-- ==== Sys2Proof/Word.lean ====
section
/-! DEFINITION. The byte, the packet and the packet body: the value types every other file uses.
A byte is 8 bits (R9). A packet is exactly 188 bytes by type (R8, R35, R49, R181), so that a shorter input cannot be written down. -/

namespace Sys2Proof

/-- A byte (R9): 8 bits, bit 7 the most significant. -/
abbrev Byte := BitVec 8

/-- `P`, the packet of one operation: the packet space `PKT`, offsets 0 to 187 (R35). -/
abbrev Packet := Vector Byte 188

/-- What follows the 4-byte TS header in a packet: offsets 4 to 187 (R41). -/
abbrev Body := Vector Byte 184

end Sys2Proof
end

