-- ==== Sys2Proof/Config.lean ====
section
/-! DEFINITION. The parameters of the block (R8) and the model's free values.
The fixed sizes are constants. `BUF_CAP` and `NO_EXT_STREAM_IDS`, which the spec leaves to the model as arguments, are a
record that a state carries and that no operation writes, so a claim about every state holds for every choice of them.
The third open parameter, `N_INST`, is the number of core instances a state holds (R163). -/

namespace Sys2Proof

namespace Config

/-- `TS_PACKET_LEN` (R8). -/
def tsPacketLen : Nat := 188

/-- `SYNC_BYTE` (R8). -/
def syncByte : Byte := 0x47#8

/-- `AF_LEN_MAX` (R8, R76): the longest adaptation field that ends inside the packet. -/
def afLenMax : Nat := 183

/-- `PES_PREFIX_LEN` (R8). -/
def pesPrefixLen : Nat := 6

/-- `PES_PREFIX_LEN` + `PES_EXT_FIXED_LEN` (R8): the fixed part of the extended PES header. -/
def pesExtFixedEnd : Nat := 9

/-- `PES_START_CODE` (R8). -/
def pesStartCode : BitVec 24 := 0x000001#24

/-- FREE VALUE (log entry 4): the 13 bits `target_pid` holds after RESET, which the spec calls unspecified (R33, R129).
It is applied to the counter `State.free`, and nothing in Lean can evaluate it. -/
opaque freePid : Nat → BitVec 13

/-- FREE VALUE (log entry 6): what a read of `PKT` outside offsets 0 to 187 would give. `MemRead` is undefined there (R37),
every parse checks its bound first, and so no result of the model depends on it. -/
opaque outsidePacket : Nat → Byte

end Config

/-- The open parameters of the block that a model takes as arguments (R8). -/
structure Params where
  /-- `NO_EXT_STREAM_IDS`, the stream ids that carry no extended PES header (R64), in rising order. -/
  noExtStreamIds : List Byte
  /-- `BUF_CAP`, the capacity of the accumulation buffer in bytes (R48); `none` is unbounded. -/
  bufCap : Option Nat
deriving DecidableEq, Repr

/-- The defaults of R8: the eight ids of R64 (UNVERIFIED: the spec takes them from general knowledge, log entry 2)
and an unbounded buffer. -/
def Params.default : Params where
  noExtStreamIds := [0xBC#8, 0xBE#8, 0xBF#8, 0xF0#8, 0xF1#8, 0xF2#8, 0xF8#8, 0xFF#8]
  bufCap := none

end Sys2Proof
end

