-- ==== Sys2Proof/Syntax.lean ====
section
/-! DEFINITION. The instruction type: one constructor per row of spec/opcode_table.json, with the row's free fields as its
operands, and the records those operands are made of (R22 to R26).
A packet-class row fixes sync_byte, pusi and afc (R59), so its operands are the other header fields and the 184 bytes after
the header; the row PKT.BADSYNC fixes nothing and carries the whole header. -/

namespace Sys2Proof

/-- Record `TsHeader` (R22), the fields of the word W of R51. -/
structure TsHeader where
  syncByte : Byte
  /-- transport_error_indicator -/
  tei : Bool
  /-- payload_unit_start_indicator -/
  pusi : Bool
  /-- transport_priority -/
  prio : Bool
  pid : BitVec 13
  /-- transport_scrambling_control -/
  tsc : BitVec 2
  /-- adaptation_field_control: 0 reserved, 1 payload only, 2 adaptation field only, 3 both -/
  afc : BitVec 2
  /-- continuity_counter -/
  cc : BitVec 4
deriving DecidableEq, Repr

/-- The header fields a packet class leaves free (R59: the mask covers sync_byte, pusi and afc). -/
structure PktFields where
  tei : Bool
  prio : Bool
  pid : BitVec 13
  tsc : BitVec 2
  cc : BitVec 4
deriving DecidableEq, Repr

/-- The adaptation field's flag byte, first field at bit 7 (R53). -/
structure AfFlags where
  discontinuity : Bool
  randomAccess : Bool
  esPriority : Bool
  pcrFlag : Bool
  opcrFlag : Bool
  splicingPointFlag : Bool
  privateDataFlag : Bool
  extensionFlag : Bool
deriving DecidableEq, Repr

/-- All eight flags 0: the field is absent or its length is 0 (R23). -/
def AfFlags.zero : AfFlags := ⟨false, false, false, false, false, false, false, false⟩

/-- Record `Pcr` (R24), also the layout of the OPCR (R80). -/
structure Pcr where
  base : BitVec 33
  reserved : BitVec 6
  ext : BitVec 9
deriving DecidableEq, Repr

/-- Record `AfExtension` (R25). -/
structure AfExtension where
  extLength : Byte
  ltwFlag : Bool
  piecewiseRateFlag : Bool
  seamlessSpliceFlag : Bool
  extReserved : BitVec 5
  ltw : Option (BitVec 16)
  piecewiseRate : Option (BitVec 24)
  seamlessSplice : Option Byte
deriving DecidableEq, Repr

/-- Record `AdaptationField` (R23). -/
structure AdaptationField where
  present : Bool
  length : Byte
  byteCount : Nat
  flags : AfFlags
  pcr : Option Pcr
  opcr : Option Pcr
  spliceByte : Option Byte
  privateByte : Option Byte
  ext : Option AfExtension
  stuffingCount : Nat
  overrun : Bool
deriving DecidableEq, Repr

/-- "all fields 0, all optionals none" (R75), which is the record of an absent field (R86). -/
def AdaptationField.absent : AdaptationField where
  present := false
  length := 0
  byteCount := 0
  flags := AfFlags.zero
  pcr := none
  opcr := none
  spliceByte := none
  privateByte := none
  ext := none
  stuffingCount := 0
  overrun := false

/-- The fixed six bytes of a PES header (R56). -/
structure PesPrefix where
  startCode : BitVec 24
  streamId : Byte
  pesPacketLength : BitVec 16
deriving DecidableEq, Repr

/-- The fields of the bytes A, B and N of an extended PES header (R57), the two marker bits apart. -/
structure PesExt where
  scramblingControl : BitVec 2
  priority : Bool
  dataAlignment : Bool
  copyright : Bool
  originalOrCopy : Bool
  ptsDtsFlags : BitVec 2
  escrFlag : Bool
  esRateFlag : Bool
  dsmTrickModeFlag : Bool
  additionalCopyInfoFlag : Bool
  crcFlag : Bool
  extensionFlag : Bool
  /-- header_data_length, N -/
  headerDataLength : Byte
deriving DecidableEq, Repr

/-- "With `extended` = 0 those fields are all 0" (R26). -/
def PesExt.zero : PesExt :=
  ⟨0, false, false, false, false, 0, false, false, false, false, false, false, 0⟩

/-- Record `PesHeader` (R26). `fields` are the extended-only fields. -/
structure PesHeader where
  startCode : BitVec 24
  pscOk : Bool
  streamId : Byte
  pesPacketLength : BitVec 16
  extended : Bool
  fields : PesExt
deriving DecidableEq, Repr

/-- The operations of the block, one constructor per row of spec/opcode_table.json, in the table's order. -/
inductive Instr where
  /-- PKT.S.RSV (R131): start packet, afc 0. -/
  | pktSRsv (f : PktFields) (body : Body)
  /-- PKT.S.PAY (R132): start packet, afc 1. -/
  | pktSPay (f : PktFields) (body : Body)
  /-- PKT.S.AF (R133): start packet, afc 2. -/
  | pktSAf (f : PktFields) (body : Body)
  /-- PKT.S.AFPAY (R134): start packet, afc 3. -/
  | pktSAfpay (f : PktFields) (body : Body)
  /-- PKT.C.RSV (R135): continuation packet, afc 0. -/
  | pktCRsv (f : PktFields) (body : Body)
  /-- PKT.C.PAY (R136): continuation packet, afc 1. -/
  | pktCPay (f : PktFields) (body : Body)
  /-- PKT.C.AF (R137): continuation packet, afc 2. -/
  | pktCAf (f : PktFields) (body : Body)
  /-- PKT.C.AFPAY (R138): continuation packet, afc 3. -/
  | pktCAfpay (f : PktFields) (body : Body)
  /-- PKT.BADSYNC (R139): any header whose sync byte is not 0x47. -/
  | pktBadsync (h : TsHeader) (body : Body)
  /-- AF.ABSENT (R86): the zero-width form, afc 0 or 1. -/
  | afAbsent
  /-- AF.LENGTH (R76): the length byte L. -/
  | afLength (len : Byte)
  /-- AF.EMPTY (R77): the length byte 0. -/
  | afEmpty
  /-- AF.FLAGS (R78): the flag byte. -/
  | afFlags (f : AfFlags)
  /-- AF.PCR (R79): six bytes. -/
  | afPcr (v : Pcr)
  /-- AF.OPCR (R80): six bytes. -/
  | afOpcr (v : Pcr)
  /-- AF.SPLICE (R81): one raw byte. -/
  | afSplice (b : Byte)
  /-- AF.PRIVATE (R82): one raw byte. -/
  | afPrivate (b : Byte)
  /-- AF.EXT (R83): the extension's length byte and flag byte. -/
  | afExt (extLength : Byte) (ltwFlag piecewiseRateFlag seamlessSpliceFlag : Bool) (reserved : BitVec 5)
  /-- AF.EXT.LTW (R83): two raw bytes. -/
  | afExtLtw (w : BitVec 16)
  /-- AF.EXT.PIECEWISE (R83): three raw bytes. -/
  | afExtPiecewise (q : BitVec 24)
  /-- AF.EXT.SEAMLESS (R83): one raw byte. -/
  | afExtSeamless (m : Byte)
  /-- AF.STUFFING (R84): the zero-width form that closes the field. -/
  | afStuffing
  /-- PESH.BASIC (R92): the six fixed bytes. -/
  | peshBasic (pre : PesPrefix)
  /-- PESH.EXT (R94): the nine fixed bytes of the extended form. -/
  | peshExt (pre : PesPrefix) (x : PesExt)
  /-- TSH_PARSE (R70). -/
  | tshParse (pkt : Packet)
  /-- AF_PARSE (R75). -/
  | afParse (pkt : Packet) (afc : BitVec 2)
  /-- PESH_PARSE (R90): off is any natural number (R99). -/
  | peshParse (pkt : Packet) (off : Nat)
  /-- ABSORB (R100). -/
  | absorb (pkt : Packet) (h : TsHeader) (a : AdaptationField)
  /-- STEP (R126). -/
  | step (pkt : Packet)
  /-- SET_PID (R127). -/
  | setPid (p : BitVec 13)
  /-- FLUSH (R128). -/
  | flush
  /-- RESET (R129). -/
  | reset
deriving DecidableEq, Repr

end Sys2Proof
end

