-- ==== Sys2Proof/WellFormed.lean ====
section
/-! DEFINITION. Which instruction terms the spec's encodings can write.
Most bounds are in the types (188 bytes, field widths). What is left to check: PKT.BADSYNC is the row for sync bytes other than
0x47 (R59), AF.LENGTH with L = 0 is the row AF.EMPTY (R77), PESH.EXT needs a stream id outside `NO_EXT_STREAM_IDS` (R93), and
ABSORB's record has a byte_count of at most 184 (R23). -/

namespace Sys2Proof

/-- The check itself, under the parameters `p` of the block. -/
def wellFormed (p : Params) : Instr → Bool
  | .pktBadsync h _ => h.syncByte != Config.syncByte
  | .afLength len => len != 0
  | .peshExt pre _ => !p.noExtStreamIds.contains pre.streamId
  | .absorb _ _ a => decide (a.byteCount ≤ 184)
  | .pktSRsv _ _ | .pktSPay _ _ | .pktSAf _ _ | .pktSAfpay _ _ | .pktCRsv _ _ | .pktCPay _ _ | .pktCAf _ _ | .pktCAfpay _ _
  | .afAbsent | .afEmpty | .afFlags _ | .afPcr _ | .afOpcr _ | .afSplice _ | .afPrivate _ | .afExt _ _ _ _ _ | .afExtLtw _
  | .afExtPiecewise _ | .afExtSeamless _ | .afStuffing | .peshBasic _ | .tshParse _ | .afParse _ _ | .peshParse _ _ | .step _
  | .setPid _ | .flush | .reset => true

/-- An instruction term that the spec's encodings can write. -/
abbrev WellFormed (p : Params) (i : Instr) : Prop := wellFormed p i = true

end Sys2Proof
end

