-- ==== Sys2Proof/Decode.lean ====
section
/-! DEFINITION. From the driver's requests to instructions and back.
A request names what the driver asks for and carries the bytes. Where the spec gives an encoding (packets R51, adaptation
field forms R52 to R55, PES header forms R56 and R57, command codes R60) the bytes are that encoding. The operations of format
OP are "selected by the operation's name" with "no bit pattern" (R65), so their non-packet operands stand in the selector by
value (DESIGN CHOICE, log entry 8). Bit and byte order is most significant first throughout (R36). -/

namespace Sys2Proof

/-- Which place of the adaptation field the bytes stand at: the flag byte and the fixed order of R52, not the bits
themselves, select among the forms of format AF. -/
inductive AfForm where
  | absent | length | flags | pcr | opcr | splice | privateByte | ext | extLtw | extPiecewise | extSeamless | stuffing
deriving DecidableEq, Repr

/-- What the driver asks for: the table's formats TSH, AF, PESH and CMD, and the four operations of format OP by name. -/
inductive Selector where
  /-- Format TSH: a packet, to be run as its class. -/
  | packet
  /-- Format AF: one form of the adaptation field. -/
  | af (form : AfForm)
  /-- Format PESH: the bytes that stand at a PES header. -/
  | pes
  /-- Format OP: TSH_PARSE on a packet. -/
  | tshParse
  /-- Format OP: AF_PARSE on a packet. -/
  | afParse (afc : BitVec 2)
  /-- Format OP: PESH_PARSE on a packet. -/
  | peshParse (off : Nat)
  /-- Format OP: ABSORB on a packet. -/
  | absorb (h : TsHeader) (a : AdaptationField)
  /-- Format CMD: a command code and its operand bytes. -/
  | command
deriving DecidableEq, Repr

/-- One request of the driver to core instance number `core` (R163). -/
structure Request where
  core : Nat
  sel : Selector
  bytes : List Byte
deriving DecidableEq, Repr

/-- Why a request's bytes are no instruction. -/
inductive DecodeError where
  /-- The bytes are not as many as the selected encoding has (R49, R181: a packet is exactly 188 bytes). -/
  | wrongLength (got : Nat)
  /-- Bits above the 2-bit command code are set (R60). -/
  | commandCode (b : Byte)
  /-- The operand of SET_PID does not fit 13 bits (R60). -/
  | pidOperand (hi lo : Byte)
  /-- Fewer bytes stand at a PES header than its form has (R91, R96). -/
  | shortPesHeader (got : Nat)
  /-- ABSORB was given a record whose byte_count is over 184, which R23 excludes. -/
  | byteCount (n : Nat)
deriving DecidableEq, Repr

/-! ### Bits and records -/

/-- The fields of the four header bytes (R51, R70). -/
def headerOfBytes (b0 b1 b2 b3 : Byte) : TsHeader where
  syncByte := b0
  tei := b1.getLsbD 7
  pusi := b1.getLsbD 6
  prio := b1.getLsbD 5
  pid := b1.extractLsb' 0 5 ++ b2
  tsc := b3.extractLsb' 6 2
  afc := b3.extractLsb' 4 2
  cc := b3.extractLsb' 0 4

/-- The four bytes that carry a header (R72: the inverse of R70). -/
def bytesOfHeader (h : TsHeader) : List Byte :=
  [h.syncByte,
   BitVec.ofBool h.tei ++ BitVec.ofBool h.pusi ++ BitVec.ofBool h.prio ++ h.pid.extractLsb' 8 5,
   h.pid.extractLsb' 0 8,
   h.tsc ++ h.afc ++ h.cc]

/-- The header of a packet class: sync byte 0x47 and the class's own pusi and afc (R59). -/
def classHeader (pusi : Bool) (afc : BitVec 2) (f : PktFields) : TsHeader where
  syncByte := Config.syncByte
  tei := f.tei
  pusi := pusi
  prio := f.prio
  pid := f.pid
  tsc := f.tsc
  afc := afc
  cc := f.cc

/-- The header fields that a packet class leaves free. -/
def fieldsOfHeader (h : TsHeader) : PktFields where
  tei := h.tei
  prio := h.prio
  pid := h.pid
  tsc := h.tsc
  cc := h.cc

/-- The eight flags of the flag byte F (R53). -/
def flagsOfByte (b : Byte) : AfFlags where
  discontinuity := b.getLsbD 7
  randomAccess := b.getLsbD 6
  esPriority := b.getLsbD 5
  pcrFlag := b.getLsbD 4
  opcrFlag := b.getLsbD 3
  splicingPointFlag := b.getLsbD 2
  privateDataFlag := b.getLsbD 1
  extensionFlag := b.getLsbD 0

def byteOfFlags (f : AfFlags) : Byte :=
  BitVec.ofBool f.discontinuity ++ BitVec.ofBool f.randomAccess ++ BitVec.ofBool f.esPriority ++ BitVec.ofBool f.pcrFlag ++
    BitVec.ofBool f.opcrFlag ++ BitVec.ofBool f.splicingPointFlag ++ BitVec.ofBool f.privateDataFlag ++
    BitVec.ofBool f.extensionFlag

/-- `DecodePcr(V)` (R54, R75). -/
def pcrOfBits (v : BitVec 48) : Pcr where
  base := v.extractLsb' 15 33
  reserved := v.extractLsb' 9 6
  ext := v.extractLsb' 0 9

def bitsOfPcr (p : Pcr) : BitVec 48 := p.base ++ p.reserved ++ p.ext

/-- Six bytes as one number, the first the most significant (R36). -/
def bits48 (b0 b1 b2 b3 b4 b5 : Byte) : BitVec 48 := b0 ++ b1 ++ b2 ++ b3 ++ b4 ++ b5

def bytesOfBits48 (v : BitVec 48) : List Byte :=
  [v.extractLsb' 40 8, v.extractLsb' 32 8, v.extractLsb' 24 8, v.extractLsb' 16 8, v.extractLsb' 8 8, v.extractLsb' 0 8]

/-- The extension block's flag byte E (R55). -/
def byteOfExtFlags (ltw pw ss : Bool) (reserved : BitVec 5) : Byte :=
  BitVec.ofBool ltw ++ BitVec.ofBool pw ++ BitVec.ofBool ss ++ reserved

/-- The six fixed bytes of a PES header (R56). -/
def prefixOfBytes (c0 c1 c2 sid l0 l1 : Byte) : PesPrefix where
  startCode := c0 ++ c1 ++ c2
  streamId := sid
  pesPacketLength := l0 ++ l1

def bytesOfPrefix (p : PesPrefix) : List Byte :=
  [p.startCode.extractLsb' 16 8, p.startCode.extractLsb' 8 8, p.startCode.extractLsb' 0 8, p.streamId,
   p.pesPacketLength.extractLsb' 8 8, p.pesPacketLength.extractLsb' 0 8]

/-- The "top two bits" of byte A "equal `10`" (R57, R93). -/
def markerIs10 (a : Byte) : Bool := a.extractLsb' 6 2 == 0b10#2

/-- The bytes A, B and N of an extended PES header (R57). -/
def extOfBytes (a b n : Byte) : PesExt where
  scramblingControl := a.extractLsb' 4 2
  priority := a.getLsbD 3
  dataAlignment := a.getLsbD 2
  copyright := a.getLsbD 1
  originalOrCopy := a.getLsbD 0
  ptsDtsFlags := b.extractLsb' 6 2
  escrFlag := b.getLsbD 5
  esRateFlag := b.getLsbD 4
  dsmTrickModeFlag := b.getLsbD 3
  additionalCopyInfoFlag := b.getLsbD 2
  crcFlag := b.getLsbD 1
  extensionFlag := b.getLsbD 0
  headerDataLength := n

def bytesOfExt (x : PesExt) : List Byte :=
  [0b10#2 ++ x.scramblingControl ++ BitVec.ofBool x.priority ++ BitVec.ofBool x.dataAlignment ++ BitVec.ofBool x.copyright ++
     BitVec.ofBool x.originalOrCopy,
   x.ptsDtsFlags ++ BitVec.ofBool x.escrFlag ++ BitVec.ofBool x.esRateFlag ++ BitVec.ofBool x.dsmTrickModeFlag ++
     BitVec.ofBool x.additionalCopyInfoFlag ++ BitVec.ofBool x.crcFlag ++ BitVec.ofBool x.extensionFlag,
   x.headerDataLength]

/-! ### Decoding -/

/-- The packet a list of bytes is, if it is 188 long. -/
def packetOfList (l : List Byte) : Option Packet :=
  if h : l.length = 188 then some ⟨l.toArray, by simpa using h⟩ else none

/-- The packet body a list of bytes is, if it is 184 long. -/
def bodyOfList (l : List Byte) : Option Body :=
  if h : l.length = 184 then some ⟨l.toArray, by simpa using h⟩ else none

/-- The packet class of a header (R59): the rows in the table's order, the last for everything else. -/
def classify (h : TsHeader) (body : Body) : Instr :=
  if h.syncByte ≠ Config.syncByte then .pktBadsync h body
  else if h.pusi then
    if h.afc = 0 then .pktSRsv (fieldsOfHeader h) body
    else if h.afc = 1 then .pktSPay (fieldsOfHeader h) body
    else if h.afc = 2 then .pktSAf (fieldsOfHeader h) body
    else .pktSAfpay (fieldsOfHeader h) body
  else
    if h.afc = 0 then .pktCRsv (fieldsOfHeader h) body
    else if h.afc = 1 then .pktCPay (fieldsOfHeader h) body
    else if h.afc = 2 then .pktCAf (fieldsOfHeader h) body
    else .pktCAfpay (fieldsOfHeader h) body

/-- Format TSH (R51, R59). -/
def decodePacket (bytes : List Byte) : Except DecodeError Instr :=
  match bytes with
  | b0 :: b1 :: b2 :: b3 :: rest =>
    match bodyOfList rest with
    | some body => .ok (classify (headerOfBytes b0 b1 b2 b3) body)
    | none => .error (.wrongLength bytes.length)
  | _ => .error (.wrongLength bytes.length)

/-- Format AF (R52 to R55). The length byte 0 is the row AF.EMPTY. -/
def decodeAf (form : AfForm) (bytes : List Byte) : Except DecodeError Instr :=
  match form, bytes with
  | .absent, [] => .ok .afAbsent
  | .length, [b] => .ok (if b = 0 then .afEmpty else .afLength b)
  | .flags, [b] => .ok (.afFlags (flagsOfByte b))
  | .pcr, [b0, b1, b2, b3, b4, b5] => .ok (.afPcr (pcrOfBits (bits48 b0 b1 b2 b3 b4 b5)))
  | .opcr, [b0, b1, b2, b3, b4, b5] => .ok (.afOpcr (pcrOfBits (bits48 b0 b1 b2 b3 b4 b5)))
  | .splice, [b] => .ok (.afSplice b)
  | .privateByte, [b] => .ok (.afPrivate b)
  | .ext, [n, e] => .ok (.afExt n (e.getLsbD 7) (e.getLsbD 6) (e.getLsbD 5) (e.extractLsb' 0 5))
  | .extLtw, [b0, b1] => .ok (.afExtLtw (b0 ++ b1))
  | .extPiecewise, [b0, b1, b2] => .ok (.afExtPiecewise (b0 ++ b1 ++ b2))
  | .extSeamless, [b] => .ok (.afExtSeamless b)
  | .stuffing, [] => .ok .afStuffing
  | _, _ => .error (.wrongLength bytes.length)

/-- Format PESH (R93): the extended form is chosen when a seventh byte stands there, its marker is 10 and the stream id is
not in `NO_EXT_STREAM_IDS`. What follows the form's own bytes is header data or payload and is not looked at. -/
def decodePes (p : Params) (bytes : List Byte) : Except DecodeError Instr :=
  match bytes with
  | c0 :: c1 :: c2 :: sid :: l0 :: l1 :: rest =>
    let pre := prefixOfBytes c0 c1 c2 sid l0 l1
    match rest with
    | [] => .ok (.peshBasic pre)
    | a :: rest' =>
      if markerIs10 a && !p.noExtStreamIds.contains sid then
        match rest' with
        | b :: n :: _ => .ok (.peshExt pre (extOfBytes a b n))
        | _ => .error (.shortPesHeader bytes.length)
      else .ok (.peshBasic pre)
  | _ => .error (.shortPesHeader bytes.length)

/-- An operation on one packet: exactly 188 bytes (R49). -/
def decodeOnPacket (bytes : List Byte) (mk : Packet → Instr) : Except DecodeError Instr :=
  match packetOfList bytes with
  | some pkt => .ok (mk pkt)
  | none => .error (.wrongLength bytes.length)

/-- Format CMD (R60): the code in the low two bits of the first byte, then STEP's 188 bytes or SET_PID's 13 bits in two bytes. -/
def decodeCommand (bytes : List Byte) : Except DecodeError Instr :=
  match bytes with
  | [] => .error (.wrongLength 0)
  | code :: rest =>
    if code = 0#8 then decodeOnPacket rest .step
    else if code = 1#8 then
      match rest with
      | [hi, lo] => if hi.extractLsb' 5 3 = 0#3 then .ok (.setPid (hi.extractLsb' 0 5 ++ lo)) else .error (.pidOperand hi lo)
      | _ => .error (.wrongLength bytes.length)
    else if code = 2#8 then
      match rest with
      | [] => .ok .flush
      | _ => .error (.wrongLength bytes.length)
    else if code = 3#8 then
      match rest with
      | [] => .ok .reset
      | _ => .error (.wrongLength bytes.length)
    else .error (.commandCode code)

/-- The instruction a request's selector and bytes stand for, under the parameters of the block. -/
def decode (p : Params) (r : Request) : Except DecodeError Instr :=
  match r.sel with
  | .packet => decodePacket r.bytes
  | .af form => decodeAf form r.bytes
  | .pes => decodePes p r.bytes
  | .tshParse => decodeOnPacket r.bytes .tshParse
  | .afParse afc => decodeOnPacket r.bytes (fun pkt => .afParse pkt afc)
  | .peshParse off => decodeOnPacket r.bytes (fun pkt => .peshParse pkt off)
  | .absorb h a =>
    if a.byteCount ≤ 184 then decodeOnPacket r.bytes (fun pkt => .absorb pkt h a) else .error (.byteCount a.byteCount)
  | .command => decodeCommand r.bytes

/-! ### Encoding -/

/-- A class's packet: the header's four bytes, then the body (R59). -/
def encodePacket (core : Nat) (h : TsHeader) (body : Body) : Request :=
  ⟨core, .packet, bytesOfHeader h ++ body.toList⟩

/-- The request that asks core instance `core` for an instruction, from the same encodings. -/
def encode (core : Nat) : Instr → Request
  | .pktSRsv f body => encodePacket core (classHeader true 0 f) body
  | .pktSPay f body => encodePacket core (classHeader true 1 f) body
  | .pktSAf f body => encodePacket core (classHeader true 2 f) body
  | .pktSAfpay f body => encodePacket core (classHeader true 3 f) body
  | .pktCRsv f body => encodePacket core (classHeader false 0 f) body
  | .pktCPay f body => encodePacket core (classHeader false 1 f) body
  | .pktCAf f body => encodePacket core (classHeader false 2 f) body
  | .pktCAfpay f body => encodePacket core (classHeader false 3 f) body
  | .pktBadsync h body => encodePacket core h body
  | .afAbsent => ⟨core, .af .absent, []⟩
  | .afLength len => ⟨core, .af .length, [len]⟩
  | .afEmpty => ⟨core, .af .length, [0]⟩
  | .afFlags f => ⟨core, .af .flags, [byteOfFlags f]⟩
  | .afPcr v => ⟨core, .af .pcr, bytesOfBits48 (bitsOfPcr v)⟩
  | .afOpcr v => ⟨core, .af .opcr, bytesOfBits48 (bitsOfPcr v)⟩
  | .afSplice b => ⟨core, .af .splice, [b]⟩
  | .afPrivate b => ⟨core, .af .privateByte, [b]⟩
  | .afExt n l p s r => ⟨core, .af .ext, [n, byteOfExtFlags l p s r]⟩
  | .afExtLtw w => ⟨core, .af .extLtw, [w.extractLsb' 8 8, w.extractLsb' 0 8]⟩
  | .afExtPiecewise q => ⟨core, .af .extPiecewise, [q.extractLsb' 16 8, q.extractLsb' 8 8, q.extractLsb' 0 8]⟩
  | .afExtSeamless m => ⟨core, .af .extSeamless, [m]⟩
  | .afStuffing => ⟨core, .af .stuffing, []⟩
  | .peshBasic pre => ⟨core, .pes, bytesOfPrefix pre⟩
  | .peshExt pre x => ⟨core, .pes, bytesOfPrefix pre ++ bytesOfExt x⟩
  | .tshParse pkt => ⟨core, .tshParse, pkt.toList⟩
  | .afParse pkt afc => ⟨core, .afParse afc, pkt.toList⟩
  | .peshParse pkt off => ⟨core, .peshParse off, pkt.toList⟩
  | .absorb pkt h a => ⟨core, .absorb h a, pkt.toList⟩
  | .step pkt => ⟨core, .command, 0#8 :: pkt.toList⟩
  | .setPid p => ⟨core, .command, [1#8, 0#3 ++ p.extractLsb' 8 5, p.extractLsb' 0 8]⟩
  | .flush => ⟨core, .command, [2#8]⟩
  | .reset => ⟨core, .command, [3#8]⟩

/-! ### The table's numbering -/

/-- `n` bytes of a number, the most significant first: how a table word lies in the request's bytes (R36, R51). -/
def bytesOfNat : Nat → Nat → List Byte
  | 0, _ => []
  | n + 1, w => BitVec.ofNat 8 (w / 256 ^ n) :: bytesOfNat n w

/-- The request that a table word stands for. The table selects by format as well as by bits, and `nbits` alone tells
formats apart here: 32 is a packet with 184 zero bytes after W, 8 is a command byte (with zero operands) or, above the four
codes, an adaptation field length byte, 48 a PCR, 16 and 24 the extension forms, 72 an extended PES header, 0 the absent
field (DESIGN CHOICE, log entry 9). -/
def tableRequest (core nbits w : Nat) : Request :=
  match nbits with
  | 0 => ⟨core, .af .absent, []⟩
  | 8 =>
    match w with
    | 0 => ⟨core, .command, 0#8 :: List.replicate 188 0⟩
    | 1 => ⟨core, .command, [1#8, 0, 0]⟩
    | 2 => ⟨core, .command, [2#8]⟩
    | 3 => ⟨core, .command, [3#8]⟩
    | _ => ⟨core, .af .length, bytesOfNat 1 w⟩
  | 16 => ⟨core, .af .ext, bytesOfNat 2 w⟩
  | 24 => ⟨core, .af .extPiecewise, bytesOfNat 3 w⟩
  | 32 => ⟨core, .packet, bytesOfNat 4 w ++ List.replicate 184 0⟩
  | 48 => ⟨core, .af .pcr, bytesOfNat 6 w⟩
  | 72 => ⟨core, .pes, bytesOfNat 9 w⟩
  | _ => ⟨core, .packet, []⟩

/-- The instruction the decoder reads from a table word, under the default parameters. -/
def decodeTableWord (nbits w : Nat) : Option Instr :=
  match decode Params.default (tableRequest 0 nbits w) with
  | .ok i => some i
  | .error _ => none

end Sys2Proof
end

