-- ==== Sys2Proof/Machine/State.lean ====
section
/-! DEFINITION. What the machine holds: the registers and the buffer of each core instance (R11), the parameters it was built
with (R8), the driver's pending requests, and the value the last operation returned.
The registers are exactly the tuple of R11. The other fields are the model's own and each says so. -/

namespace Sys2Proof.Machine

/-- `st` (R13): the source's in-progress flag. -/
inductive AsmState where
  | idle
  | assembling
deriving DecidableEq, Repr

/-- The seven status values of a step (R29). -/
inductive Status where
  | unexpectedPid
  | streamPacketLost
  | assemblingStarted
  | assemblingContinue
  | assemblingFinished
  | invalidSyncByte
  | truncatedHeader
deriving DecidableEq, Repr

/-- What a parse raises, with the information the spec's pseudocode passes (R70, R75, R90). -/
inductive Condition where
  /-- `InvalidSyncByte(P[0])` -/
  | invalidSyncByte (got : Byte)
  /-- `TruncatedHeader("adaptation field", L)` -/
  | truncatedAf (len : Byte)
  /-- `TruncatedHeader("PES prefix", off)` -/
  | truncatedPesPrefix (off : Nat)
  /-- `TruncatedHeader("PES extended header", off)` -/
  | truncatedPesExt (off : Nat)
  /-- `TruncatedHeader("PES header data", off, N)` -/
  | truncatedPesData (off n : Nat)
deriving DecidableEq, Repr

/-- Record `Emission` (R27). -/
structure Emission where
  data : List Byte
  len : Nat
deriving DecidableEq, Repr

/-- What ABSORB returns (R100). -/
structure AbsorbResult where
  status : Status
  dup : Bool
  pesh : Option PesHeader
  emit : Option Emission
deriving DecidableEq, Repr

/-- Record `Output`, what a STEP returns (R28). -/
structure Output where
  status : Status
  dup : Bool
  tsh : Option TsHeader
  af : Option AdaptationField
  pesh : Option PesHeader
  emit : Option Emission
deriving DecidableEq, Repr

/-- The value an operation returns to the driver. -/
inductive Result where
  /-- Nothing: before the first operation (R171), after SET_PID and RESET (R127, R129), and after a form that is not the last
  of its parse. -/
  | noValue
  /-- STEP and the packet classes (R28). -/
  | output (o : Output)
  /-- TSH_PARSE (R70). -/
  | header (h : TsHeader)
  /-- AF_PARSE (R75), and the forms that end an adaptation field. -/
  | field (a : AdaptationField)
  /-- PESH_PARSE (R90) and the PES header forms. -/
  | pesHeader (ph : PesHeader) (newOffset : Nat)
  /-- ABSORB (R100). -/
  | absorbed (r : AbsorbResult)
  /-- FLUSH (R128). -/
  | flushed (e : Option Emission)
  /-- A parse operation on its own ended with a condition (R70, R75, R90). -/
  | raised (c : Condition)
deriving DecidableEq, Repr

/-- The adaptation field parse in progress when its forms are issued one by one: the record `a` built so far and the cursor
`cur` (R31, R75). The model's own (log entry 7). -/
structure ParseCtx where
  af : AdaptationField
  cur : Nat
deriving DecidableEq, Repr

/-- No parse in progress: an empty record and the cursor where an adaptation field would begin (R52: "It starts at offset 4"). -/
def ParseCtx.init : ParseCtx := ⟨AdaptationField.absent, 4⟩

/-- The buffer space `BUF` (R35): address and byte, addresses strictly rising. An address that is not listed holds no value
(R33: "unspecified and unreadable"). -/
abbrev Memory := List Host.Cell

/-- One core instance: the tuple of R11, and the parse in progress. -/
structure Inst where
  /-- `pid_valid` (R12) -/
  pidValid : Bool
  /-- `target_pid` (R12) -/
  targetPid : BitVec 13
  /-- `st` (R13) -/
  st : AsmState
  /-- `last_cc` (R14) -/
  lastCc : Option (BitVec 4)
  /-- `pes_total` (R15) -/
  pesTotal : BitVec 17
  /-- `unbounded` (R16) -/
  unbounded : Bool
  /-- `hdr_len` (R17) -/
  hdrLen : BitVec 8
  /-- `wr_off` (R18) -/
  wrOff : Nat
  /-- `BUF` (R18, R35) -/
  buf : Memory
  /-- The model's own: the parse in progress (R31). -/
  parse : ParseCtx
deriving DecidableEq, Repr

/-- A core instance after power-on or RESET (R33). `target_pid` has no reset value there; the model's is 0
(DESIGN CHOICE, log entry 3). -/
def Inst.reset : Inst where
  pidValid := false
  targetPid := 0
  st := .idle
  lastCc := none
  pesTotal := 0
  unbounded := false
  hdrLen := 0
  wrOff := 0
  buf := []
  parse := ParseCtx.init

/-- The machine. `below`, `inst` and `above` together are the `N_INST` independent core instances (R163), numbered from 0;
`inst`, number `below.length`, is the one the current operation acts on. -/
structure State where
  /-- The parameters of the block (R8); no operation writes them. -/
  params : Params
  /-- The instances with lower numbers. -/
  below : List Inst
  /-- The instance the current operation acts on. -/
  inst : Inst
  /-- The instances with higher numbers. -/
  above : List Inst
  /-- The model's own: the value the last operation returned (R28, R34; log entry 5). -/
  out : Result
  /-- The model's own: how many free values have been drawn (log entry 4). -/
  free : Nat
  /-- The model's own: the driver's requests not yet taken, in arrival order (R42; log entry 8). -/
  queue : List Request
deriving DecidableEq, Repr

/-- The machine at power-on (R33, R171): default parameters, one instance, no output, nothing asked for yet. -/
def State.reset : State where
  params := Params.default
  below := []
  inst := Inst.reset
  above := []
  out := .noValue
  free := 0
  queue := []

/-- Why the machine stops with a fault. -/
inductive Fault where
  /-- BufferOverflow (R48, R122, R168): an append does not fit a finite `BUF_CAP`. Raised by STEP, the start and continuation
  packet classes and ABSORB. Safe: the model stops where the spec gives no state. -/
  | bufferOverflow
  /-- An emission would hand over a byte of `BUF` below `wr_off` that nothing has written (R18, R33). Raised by STEP, the
  packet classes, ABSORB and FLUSH, only from states no run reaches. Safe: the model stops. -/
  | unwrittenByte (addr : Nat)
deriving DecidableEq, Repr

/-- Why the machine refuses an instruction. -/
inductive Refusal where
  /-- The instruction has no meaning in the model yet. Raised by the dispatch. Safe: the model stops. -/
  | notModelled (mnemonic : String)
  /-- STEP, by itself or as a packet class, while `pid_valid` = 0 (R126, R172). Safe: the spec asks for this refusal. -/
  | stepBeforeSetPid
  /-- ABSORB on its own while `pid_valid` = 0: it would read `target_pid`, which "a model must not read" then (R33).
  Safe: the model stops. -/
  | absorbBeforeSetPid
  /-- ABSORB on its own with a record whose byte_count is over 184, which R23 excludes: `BufAppend(P, from)` is defined only for
  from up to 188 (R38). Safe: the model stops. -/
  | appendPastPacket
  /-- The request names a core instance that the machine does not have (R163). Raised by the step. Safe: the model stops. -/
  | noSuchInstance (core : Nat)
  /-- The request's bytes are no instruction (R49, R181). Raised by the step. Safe: the model stops. -/
  | badRequest (e : DecodeError)
deriving DecidableEq, Repr

end Sys2Proof.Machine
end

