-- ==== Sys2Proof/Machine/Ops.lean ====
section
/-! DEFINITION. The operations every meaning shares: reading the packet (R37), reading and writing the buffer (R38), leaving
a unit (`ToIdle`, R100), handing a buffer over (R46), ending an operation with a value or a condition (R158), choosing the core
instance (R163) and taking the driver's next request (R42). -/

namespace Sys2Proof.Machine

/-! ### The packet space -/

/-- `P[i]` (R10). Outside 0 to 187 it is undefined, and the model's free value (log entry 6). -/
def pktByte (P : Packet) (i : Nat) : Byte :=
  if h : i < 188 then P[i] else Config.outsidePacket i

/-- `MemRead(addr, n)` (R37): n bytes as one number, the byte at the lowest offset the most significant (R36). -/
def memRead (P : Packet) (addr : Nat) : (n : Nat) → BitVec (8 * n)
  | 0 => 0#0
  | n + 1 => (memRead P addr n ++ pktByte P (addr + n) : BitVec (8 * n + 8))

/-- `P[start..187]`, the bytes a copy takes (R38). -/
def pktFrom (P : Packet) (start : Nat) : List Byte := P.toList.drop start

/-! ### The buffer space -/

/-- The byte at an address of `BUF`, if one was written. -/
def Memory.read : Memory → Nat → Option Byte
  | [], _ => none
  | (k, v) :: m, a => if k = a then some v else Memory.read m a

/-- Write one byte, keeping the addresses strictly rising. -/
def Memory.write : Memory → Nat → Byte → Memory
  | [], a, b => [(a, b)]
  | (k, v) :: m, a, b =>
    if a < k then (a, b) :: (k, v) :: m
    else if a = k then (a, b) :: m
    else (k, v) :: Memory.write m a b

/-- `MemWrite` of a run of bytes at rising addresses (R38). -/
def Memory.writeBytes : Memory → Nat → List Byte → Memory
  | m, _, [] => m
  | m, a, b :: bs => Memory.writeBytes (Memory.write m a b) (a + 1) bs

/-- `BUF[a..a+n-1]`; an address that was never written stops it with that address. -/
def Memory.slice (m : Memory) : (a n : Nat) → Except Nat (List Byte)
  | _, 0 => .ok []
  | a, n + 1 =>
    match Memory.read m a with
    | none => .error a
    | some b =>
      match Memory.slice m (a + 1) n with
      | .ok bs => .ok (b :: bs)
      | .error e => .error e

/-- The canonical form: addresses strictly rising. An unlisted address holds no value, so no entry can equal what an unlisted
address reads as. -/
def Memory.wf : Memory → Bool
  | [] => true
  | [_] => true
  | (j, _) :: (k, v) :: m => decide (j < k) && Memory.wf ((k, v) :: m)

/-! ### Outcomes -/

/-- Go on from a next value; a stop stays a stop. -/
def andThen {α β : Type} (o : Host.Outcome α Fault Refusal) (f : α → Host.Outcome β Fault Refusal) :
    Host.Outcome β Fault Refusal :=
  match o with
  | .next a => f a
  | .fault e => .fault e
  | .refused r => .refused r

/-! ### The assembler's buffer -/

/-- The append fits the capacity (R38, R48). -/
def fits (cap : Option Nat) (size : Nat) : Bool :=
  match cap with
  | none => true
  | some n => decide (size ≤ n)

/-- `BufAppend(P, start)` (R38), defined for start up to 188; over the capacity it is the fault of R168. -/
def bufAppend (p : Params) (P : Packet) (start : Nat) (c : Inst) : Host.Outcome Inst Fault Refusal :=
  if 188 < start then .refused .appendPastPacket
  else if fits p.bufCap (c.wrOff + (188 - start)) then
    .next { c with buf := Memory.writeBytes c.buf c.wrOff (pktFrom P start), wrOff := c.wrOff + (188 - start) }
  else .fault .bufferOverflow

/-- `ToIdle()` (R100). The buffer is released with the registers (R103, R46; log entry 10). -/
def toIdle (c : Inst) : Inst :=
  { c with st := .idle, lastCc := none, pesTotal := 0, unbounded := false, hdrLen := 0, wrOff := 0, buf := [] }

/-- The emission of the open unit: `BUF[0..wr_off-1]` and its length (R27, R46, R115). -/
def emission (c : Inst) : Host.Outcome Emission Fault Refusal :=
  match Memory.slice c.buf 0 c.wrOff with
  | .ok bytes => .next ⟨bytes, c.wrOff⟩
  | .error a => .fault (.unwrittenByte a)

/-! ### Ending an operation -/

/-- End an operation with a value for the driver. -/
def finish (r : Result) (s : State) : Host.Outcome State Fault Refusal := .next { s with out := r }

/-- A condition raised by a parse on its own (R158): it saves nothing, switches no mode and transfers control nowhere; the
operation returns it. There is no return from it either (R159): the next operation is accepted at once. -/
def raiseCondition (cond : Condition) (s : State) : Host.Outcome State Fault Refusal := finish (.raised cond) s

/-- The status a condition gives a STEP (R150). -/
def Condition.status : Condition → Status
  | .invalidSyncByte _ => .invalidSyncByte
  | .truncatedAf _ => .truncatedHeader
  | .truncatedPesPrefix _ => .truncatedHeader
  | .truncatedPesExt _ => .truncatedHeader
  | .truncatedPesData _ _ => .truncatedHeader

/-! ### Core instances and requests -/

/-- All core instances in the order of their numbers. -/
def State.insts (s : State) : List Inst := s.below ++ s.inst :: s.above

/-- Make instance number `k` the one the next operation acts on (R163). -/
def State.select (s : State) (k : Nat) : Option State :=
  match s.insts.drop k with
  | [] => none
  | c :: rest => some { s with below := s.insts.take k, inst := c, above := rest }

/-- What the machine finds when it takes its next operation. -/
inductive Fetched where
  /-- The driver has asked for nothing. -/
  | idle
  /-- The request cannot be run. -/
  | reject (r : Refusal)
  /-- The instruction, and the state it runs in. -/
  | run (i : Instr) (s : State)
deriving DecidableEq, Repr

/-- Take the driver's oldest request (R42): choose its core instance and decode its bytes. -/
def fetchRequest (s : State) : Fetched :=
  match s.queue with
  | [] => .idle
  | r :: rest =>
    match State.select s r.core with
    | none => .reject (.noSuchInstance r.core)
    | some s' =>
      match decode s.params r with
      | .error e => .reject (.badRequest e)
      | .ok i => .run i { s' with queue := rest }

end Sys2Proof.Machine
end

