-- ==== Sys2Proof/Machine/Operands.lean ====
section
/-! DEFINITION. The operand forms: the packet a class stands for, and the records read from a packet at an offset.
Every multi-bit value is unsigned and zero-extended (R58). -/

namespace Sys2Proof.Machine

/-- The packet of a header and a body (R41, R72). -/
def packetOf (h : TsHeader) (body : Body) : Packet :=
  ⟨(bytesOfHeader h ++ body.toList).toArray, by simp [bytesOfHeader]⟩

/-- The header at offset 0 (R51). -/
def headerAt (P : Packet) : TsHeader := headerOfBytes (pktByte P 0) (pktByte P 1) (pktByte P 2) (pktByte P 3)

/-- A PCR or OPCR at `cur` (R54). -/
def pcrAt (P : Packet) (cur : Nat) : Pcr := pcrOfBits (memRead P cur 6)

/-- The six fixed bytes of a PES header at `off` (R56). -/
def prefixAt (P : Packet) (off : Nat) : PesPrefix where
  startCode := memRead P off 3
  streamId := pktByte P (off + 3)
  pesPacketLength := memRead P (off + 4) 2

/-- The bytes A, B and N of an extended PES header at `off` (R57, R94). -/
def extAt (P : Packet) (off : Nat) : PesExt :=
  extOfBytes (pktByte P (off + 6)) (pktByte P (off + 7)) (pktByte P (off + 8))

/-- The payload offset of a packet (R88): `4 + byte_count`. -/
def payloadOffset (a : AdaptationField) : Nat := 4 + a.byteCount

end Sys2Proof.Machine
end

