-- ==== Sys2Proof/Machine/Flags.lean ====
section
/-! DEFINITION. The one-bit values and small codes the operations compute (R30): the header accessors, the continuity tests,
the completion test, the adaptation field's stuffing count and overrun, the PES header's psc_ok and form, the status codes. -/

namespace Sys2Proof.Machine

/-- `hasAdaptationField(h)` = `h.afc[1]` (R71). -/
def hasAdaptationField (h : TsHeader) : Bool := h.afc.getLsbD 1

/-- `hasPayload(h)` = `h.afc[0]` (R71). -/
def hasPayload (h : TsHeader) : Bool := h.afc.getLsbD 0

/-- The next in-sequence counter, `(c + 1) mod 16` (R107, R140). -/
def nextCc (c : BitVec 4) : BitVec 4 := c + 1

/-- The completion test of R113: `unbounded == 0 and hdr_len + wr_off == pes_total`, on natural numbers. -/
def unitComplete (c : Inst) : Bool := !c.unbounded && c.hdrLen.toNat + c.wrOff == c.pesTotal.toNat

/-- The derived view `expected_size` (R19). -/
def expectedSize (c : Inst) : Option Nat :=
  if c.st = .assembling ∧ c.unbounded = false ∧ c.hdrLen.toNat ≤ c.pesTotal.toNat then
    some (c.pesTotal.toNat - c.hdrLen.toNat)
  else none

/-- `stuffing_count` (R84): L - opt, saturating at 0. -/
def stuffingCount (len opt : Nat) : Nat := if opt ≤ len then len - opt else 0

/-- `overrun` (R85): the flagged sub-fields need more room than the length gives. -/
def overruns (len opt : Nat) : Bool := decide (1 + opt > len)

/-- `psc_ok` (R97). -/
def pscOk (pre : PesPrefix) : Bool := pre.startCode == Config.pesStartCode

/-- `pes_total` (R104): pes_packet_length + 6 on 17 bits. -/
def pesTotalOf (len : BitVec 16) : BitVec 17 := len.setWidth 17 + 6#17

/-- The 3-bit status codes (R29). -/
def statusCode : Status → BitVec 3
  | .unexpectedPid => 1
  | .streamPacketLost => 2
  | .assemblingStarted => 3
  | .assemblingContinue => 4
  | .assemblingFinished => 5
  | .invalidSyncByte => 6
  | .truncatedHeader => 7

/-- The 1-bit state codes (R13). -/
def asmStateCode : AsmState → BitVec 1
  | .idle => 0
  | .assembling => 1

end Sys2Proof.Machine
end

