-- ==== Sys2Proof/Machine/AdaptationField.lean ====
section
/-! DEFINITION. AdaptationField: the thirteen forms of the field (R76 to R86), each one line of AF_PARSE's pseudocode on the
record `a` and the cursor `cur`, and the operation AF_PARSE (R75), which is those lines in order.
A form has its effect when it is due: its flag is set and it has not been consumed (R52: "each only if its flag is set and in
this order"); otherwise its line of the pseudocode does nothing (log entry 7). -/

namespace Sys2Proof.Machine

/-! ### The lines of the pseudocode -/

/-- `if afc in {0, 1}` (R86): the absent field. -/
def absentForm : ParseCtx := ⟨AdaptationField.absent, 4⟩

/-- The length byte (R76): the bound, then byte_count = 1 + L. -/
def lengthForm (len : Byte) : Except Condition ParseCtx :=
  if len.toNat > Config.afLenMax then .error (.truncatedAf len)
  else .ok ⟨{ AdaptationField.absent with present := true, length := len, byteCount := 1 + len.toNat }, 5⟩

/-- `if L == 0: return a` (R77): one byte, no flag byte. -/
def emptyForm : ParseCtx := ⟨{ AdaptationField.absent with present := true, byteCount := 1 }, 5⟩

/-- The flag byte stands at offset 5 and is read when L > 0 (R78). -/
def flagsDue (w : ParseCtx) : Bool := w.af.present && w.af.length != 0 && w.cur == 5

/-- The flag byte (R78). -/
def flagsForm (f : AfFlags) (w : ParseCtx) : ParseCtx :=
  if flagsDue w then { af := { w.af with flags := f }, cur := 6 } else w

/-- `if a.pcr_flag` (R79). -/
def pcrForm (v : Pcr) (w : ParseCtx) : ParseCtx :=
  if w.af.flags.pcrFlag && w.af.pcr.isNone then { af := { w.af with pcr := some v }, cur := w.cur + 6 } else w

/-- `if a.opcr_flag` (R80). -/
def opcrForm (v : Pcr) (w : ParseCtx) : ParseCtx :=
  if w.af.flags.opcrFlag && w.af.opcr.isNone then { af := { w.af with opcr := some v }, cur := w.cur + 6 } else w

/-- `if a.splicing_point_flag` (R81). -/
def spliceForm (b : Byte) (w : ParseCtx) : ParseCtx :=
  if w.af.flags.splicingPointFlag && w.af.spliceByte.isNone then
    { af := { w.af with spliceByte := some b }, cur := w.cur + 1 }
  else w

/-- `if a.private_data_flag` (R82). -/
def privateForm (b : Byte) (w : ParseCtx) : ParseCtx :=
  if w.af.flags.privateDataFlag && w.af.privateByte.isNone then
    { af := { w.af with privateByte := some b }, cur := w.cur + 1 }
  else w

/-- `if a.extension_flag` (R83): the extension's length byte and flag byte. -/
def extForm (extLength : Byte) (ltwFlag piecewiseRateFlag seamlessSpliceFlag : Bool) (reserved : BitVec 5) (w : ParseCtx) :
    ParseCtx :=
  if w.af.flags.extensionFlag && w.af.ext.isNone then
    { af := { w.af with ext := some ⟨extLength, ltwFlag, piecewiseRateFlag, seamlessSpliceFlag, reserved, none, none, none⟩ },
      cur := w.cur + 2 }
  else w

/-- `if x.ltw_flag` (R83). -/
def extLtwForm (v : BitVec 16) (w : ParseCtx) : ParseCtx :=
  match w.af.ext with
  | some x =>
    if x.ltwFlag && x.ltw.isNone then { af := { w.af with ext := some { x with ltw := some v } }, cur := w.cur + 2 } else w
  | none => w

/-- `if x.piecewise_rate_flag` (R83). -/
def extPiecewiseForm (v : BitVec 24) (w : ParseCtx) : ParseCtx :=
  match w.af.ext with
  | some x =>
    if x.piecewiseRateFlag && x.piecewiseRate.isNone then
      { af := { w.af with ext := some { x with piecewiseRate := some v } }, cur := w.cur + 3 }
    else w
  | none => w

/-- `if x.seamless_splice_flag` (R83). -/
def extSeamlessForm (v : Byte) (w : ParseCtx) : ParseCtx :=
  match w.af.ext with
  | some x =>
    if x.seamlessSpliceFlag && x.seamlessSplice.isNone then
      { af := { w.af with ext := some { x with seamlessSplice := some v } }, cur := w.cur + 1 }
    else w
  | none => w

/-- The stuffing is reached once the flag byte was read. -/
def stuffingDue (w : ParseCtx) : Bool := w.af.present && w.af.length != 0 && decide (6 ≤ w.cur)

/-- `opt <- cur - 6` and the two results computed from it (R84, R85). -/
def stuffingForm (w : ParseCtx) : ParseCtx :=
  { w with af := { w.af with
      stuffingCount := stuffingCount w.af.length.toNat (w.cur - 6)
      overrun := overruns w.af.length.toNat (w.cur - 6) } }

/-! ### AF_PARSE -/

/-- The extension block at the cursor (R55, R83). -/
def parseExtension (P : Packet) (w : ParseCtx) : ParseCtx :=
  let e := pktByte P (w.cur + 1)
  let w := extForm (pktByte P w.cur) (e.getLsbD 7) (e.getLsbD 6) (e.getLsbD 5) (e.extractLsb' 0 5) w
  let w := extLtwForm (memRead P w.cur 2) w
  let w := extPiecewiseForm (memRead P w.cur 3) w
  extSeamlessForm (pktByte P w.cur) w

/-- The flag byte and the optional sub-fields, each at the cursor (R78 to R83). -/
def parseSubfields (P : Packet) (w : ParseCtx) : ParseCtx :=
  let w := flagsForm (flagsOfByte (pktByte P 5)) w
  let w := pcrForm (pcrAt P w.cur) w
  let w := opcrForm (pcrAt P w.cur) w
  let w := spliceForm (pktByte P w.cur) w
  let w := privateForm (pktByte P w.cur) w
  parseExtension P w

/-- AF_PARSE(P, afc) (R75). -/
def parseField (P : Packet) (afc : BitVec 2) : Except Condition AdaptationField :=
  if afc = 0 ∨ afc = 1 then .ok absentForm.af
  else if pktByte P 4 = 0 then .ok emptyForm.af
  else
    match lengthForm (pktByte P 4) with
    | .error cond => .error cond
    | .ok w => .ok (stuffingForm (parseSubfields P w)).af

/-! ### The meanings -/

/-- The parse in progress becomes `w`; the form returns nothing to the driver. -/
def goOnParse (w : ParseCtx) (s : State) : Host.Outcome State Fault Refusal :=
  finish .noValue { s with inst := { s.inst with parse := w } }

/-- The parse in progress becomes `w`, and its record is returned: the form ends the field. -/
def endParse (w : ParseCtx) (s : State) : Host.Outcome State Fault Refusal :=
  finish (.field w.af) { s with inst := { s.inst with parse := w } }

/-- AF.ABSENT (R86). -/
def execAfAbsent (s : State) : Host.Outcome State Fault Refusal := endParse absentForm s

/-- AF.LENGTH (R76): begins the field; over the bound it raises TruncatedHeader and no parse is in progress. -/
def execAfLength (len : Byte) (s : State) : Host.Outcome State Fault Refusal :=
  match lengthForm len with
  | .ok w => goOnParse w s
  | .error cond => raiseCondition cond { s with inst := { s.inst with parse := ParseCtx.init } }

/-- AF.EMPTY (R77). -/
def execAfEmpty (s : State) : Host.Outcome State Fault Refusal := endParse emptyForm s

/-- AF.FLAGS (R78). -/
def execAfFlags (f : AfFlags) (s : State) : Host.Outcome State Fault Refusal := goOnParse (flagsForm f s.inst.parse) s

/-- AF.PCR (R79). -/
def execAfPcr (v : Pcr) (s : State) : Host.Outcome State Fault Refusal := goOnParse (pcrForm v s.inst.parse) s

/-- AF.OPCR (R80). -/
def execAfOpcr (v : Pcr) (s : State) : Host.Outcome State Fault Refusal := goOnParse (opcrForm v s.inst.parse) s

/-- AF.SPLICE (R81). -/
def execAfSplice (b : Byte) (s : State) : Host.Outcome State Fault Refusal := goOnParse (spliceForm b s.inst.parse) s

/-- AF.PRIVATE (R82). -/
def execAfPrivate (b : Byte) (s : State) : Host.Outcome State Fault Refusal := goOnParse (privateForm b s.inst.parse) s

/-- AF.EXT (R83). -/
def execAfExt (extLength : Byte) (ltwFlag piecewiseRateFlag seamlessSpliceFlag : Bool) (reserved : BitVec 5) (s : State) :
    Host.Outcome State Fault Refusal :=
  goOnParse (extForm extLength ltwFlag piecewiseRateFlag seamlessSpliceFlag reserved s.inst.parse) s

/-- AF.EXT.LTW (R83). -/
def execAfExtLtw (v : BitVec 16) (s : State) : Host.Outcome State Fault Refusal := goOnParse (extLtwForm v s.inst.parse) s

/-- AF.EXT.PIECEWISE (R83). -/
def execAfExtPiecewise (v : BitVec 24) (s : State) : Host.Outcome State Fault Refusal :=
  goOnParse (extPiecewiseForm v s.inst.parse) s

/-- AF.EXT.SEAMLESS (R83). -/
def execAfExtSeamless (v : Byte) (s : State) : Host.Outcome State Fault Refusal :=
  goOnParse (extSeamlessForm v s.inst.parse) s

/-- AF.STUFFING (R84, R85): ends the field and returns its record. -/
def execAfStuffing (s : State) : Host.Outcome State Fault Refusal :=
  if stuffingDue s.inst.parse then endParse (stuffingForm s.inst.parse) s else goOnParse s.inst.parse s

/-- AF_PARSE as an operation of its own (R130): it reads and writes no register. -/
def execAfParse (P : Packet) (afc : BitVec 2) (s : State) : Host.Outcome State Fault Refusal :=
  match parseField P afc with
  | .ok a => finish (.field a) s
  | .error cond => raiseCondition cond s

end Sys2Proof.Machine
end

