-- ==== Sys2Proof/Machine/PesHeader.lean ====
section
/-! DEFINITION. PesHeader: the two forms of the PES header (R92, R94) and the operation PESH_PARSE (R90). -/

namespace Sys2Proof.Machine

/-- The basic form (R92): the extended-only fields are 0 and new_offset = off + 6 (R95). -/
def basicHeader (off : Nat) (pre : PesPrefix) : PesHeader × Nat :=
  (⟨pre.startCode, pscOk pre, pre.streamId, pre.pesPacketLength, false, PesExt.zero⟩, off + 6)

/-- The extended form (R94 to R96): nine bytes must remain and the N header-data bytes must end inside the packet. -/
def extendedHeader (off : Nat) (pre : PesPrefix) (x : PesExt) : Except Condition (PesHeader × Nat) :=
  if 188 - off < Config.pesExtFixedEnd then .error (.truncatedPesExt off)
  else if off + 9 + x.headerDataLength.toNat > 188 then .error (.truncatedPesData off x.headerDataLength.toNat)
  else .ok (⟨pre.startCode, pscOk pre, pre.streamId, pre.pesPacketLength, true, x⟩, off + 9 + x.headerDataLength.toNat)

/-- The bound on the prefix and the choice of the form (R91, R93). `ext` holds the bytes A, B and N where A's marker is 10. -/
def pesHeaderAt (p : Params) (off : Nat) (pre : PesPrefix) (ext : Option PesExt) : Except Condition (PesHeader × Nat) :=
  if off > 182 then .error (.truncatedPesPrefix off)
  else
    match ext with
    | some x =>
      if 188 - off ≥ 7 ∧ p.noExtStreamIds.contains pre.streamId = false then extendedHeader off pre x
      else .ok (basicHeader off pre)
    | none => .ok (basicHeader off pre)

/-- PESH_PARSE(P, off) (R90). -/
def parsePesHeader (p : Params) (P : Packet) (off : Nat) : Except Condition (PesHeader × Nat) :=
  pesHeaderAt p off (prefixAt P off) (if markerIs10 (pktByte P (off + 6)) then some (extAt P off) else none)

/-- A PES header parse returns its record and new_offset, or raises; no register is read or written (R99, R130). -/
def endPesParse (r : Except Condition (PesHeader × Nat)) (s : State) : Host.Outcome State Fault Refusal :=
  match r with
  | .ok (ph, newOffset) => finish (.pesHeader ph newOffset) s
  | .error cond => raiseCondition cond s

/-- PESH.BASIC (R92) at the payload offset of the parse in progress (R41). -/
def execPeshBasic (pre : PesPrefix) (s : State) : Host.Outcome State Fault Refusal :=
  endPesParse (pesHeaderAt s.params (payloadOffset s.inst.parse.af) pre none) s

/-- PESH.EXT (R94) at the payload offset of the parse in progress (R41). -/
def execPeshExt (pre : PesPrefix) (x : PesExt) (s : State) : Host.Outcome State Fault Refusal :=
  endPesParse (pesHeaderAt s.params (payloadOffset s.inst.parse.af) pre (some x)) s

/-- PESH_PARSE as an operation of its own (R99, R130). -/
def execPeshParse (P : Packet) (off : Nat) (s : State) : Host.Outcome State Fault Refusal :=
  endPesParse (parsePesHeader s.params P off) s

end Sys2Proof.Machine
end

