-- ==== Sys2Proof/Machine/PesAssembler.lean ====
section
/-! DEFINITION. PesAssembler: the state machine (R100 to R124) and the operation ABSORB.
The steps are those of R100's pseudocode: step 1 is `matchPid`, step 2 `startUnit`, step 3 `continueUnit`. -/

namespace Sys2Proof.Machine

/-- What one call of the assembler gives: its result and the instance after it. -/
abbrev AbsorbOutcome := Host.Outcome (AbsorbResult × Inst) Fault Refusal

/-- A status with neither dup, PES header nor emission. -/
def plainResult (status : Status) : AbsorbResult := ⟨status, false, none, none⟩

/-- Step 2a (R102): the prior unit's emission, if one is open. -/
def implicitFinish (c : Inst) : Host.Outcome (Option Emission) Fault Refusal :=
  match c.st with
  | .idle => .next none
  | .assembling => andThen (emission c) (fun e => .next (some e))

/-- Step 2b after the parse (R104 to R106): the sizes, the first copy, the baseline. -/
def openUnit (p : Params) (P : Packet) (cc : BitVec 4) (off : Nat) (ph : PesHeader) (newOffset : Nat) (c : Inst) :
    Host.Outcome Inst Fault Refusal :=
  andThen
    (bufAppend p P newOffset
      { c with
        pesTotal := pesTotalOf ph.pesPacketLength
        unbounded := ph.pesPacketLength == 0
        hdrLen := BitVec.ofNat 8 (newOffset - off) })
    (fun c => .next { c with lastCc := some cc, st := .assembling })

/-- Step 2 (R102 to R106, R118): a start packet of the target PID whose payload begins at `off`. -/
def startUnit (p : Params) (P : Packet) (cc : BitVec 4) (off : Nat) (c : Inst) : AbsorbOutcome :=
  andThen (implicitFinish c) fun emit =>
    match parsePesHeader p P off with
    | .error _ => .next (⟨.truncatedHeader, false, none, emit⟩, toIdle c)
    | .ok (ph, newOffset) =>
      andThen (openUnit p P cc off ph newOffset (toIdle c)) fun c' =>
        .next (⟨.assemblingStarted, false, some ph, emit⟩, c')

/-- Step 3c (R113, R120): the completion test after an in-sequence packet. -/
def completionTest (c : Inst) : AbsorbOutcome :=
  if unitComplete c then
    andThen (emission c) fun e => .next (⟨.assemblingFinished, false, none, some e⟩, toIdle c)
  else .next (plainResult .assemblingContinue, c)

/-- Step 3b (R111, R112): the append, where the packet has a payload. -/
def appendPayload (p : Params) (P : Packet) (cc : BitVec 4) (payload : Option Nat) (c : Inst) :
    Host.Outcome Inst Fault Refusal :=
  match payload with
  | some start => andThen (bufAppend p P start c) fun c => .next { c with lastCc := some cc }
  | none => .next c

/-- Step 3 (R107 to R113): a continuation packet of the target PID. `payload` is where its payload begins, `none` for a packet
without one. `last_cc` is present exactly while a unit is open (R20), so a state without it takes the arm of Idle. -/
def continueUnit (p : Params) (P : Packet) (cc : BitVec 4) (payload : Option Nat) (c : Inst) : AbsorbOutcome :=
  match c.st, c.lastCc with
  | .assembling, some last =>
    if cc = last then .next ({ plainResult .assemblingContinue with dup := true }, c)
    else if cc ≠ nextCc last then .next (plainResult .streamPacketLost, toIdle c)
    else andThen (appendPayload p P cc payload c) completionTest
  | _, _ => .next (plainResult .streamPacketLost, c)

/-- Step 1 (R101): the PID filter. -/
def matchPid (pid : BitVec 13) (c : Inst) (rest : AbsorbOutcome) : AbsorbOutcome :=
  if pid ≠ c.targetPid then .next (plainResult .unexpectedPid, c) else rest

/-- ABSORB(P, h, a) (R100). -/
def absorbPacket (p : Params) (P : Packet) (h : TsHeader) (a : AdaptationField) (c : Inst) : AbsorbOutcome :=
  matchPid h.pid c
    (if h.pusi then startUnit p P h.cc (payloadOffset a) c
     else continueUnit p P h.cc (if hasPayload h then some (payloadOffset a) else none) c)

/-- ABSORB as an operation of its own (R130). It reads `target_pid`, which is unspecified while `pid_valid` = 0 (R33). -/
def execAbsorb (P : Packet) (h : TsHeader) (a : AdaptationField) (s : State) : Host.Outcome State Fault Refusal :=
  if s.inst.pidValid then
    andThen (absorbPacket s.params P h a s.inst) fun r => finish (.absorbed r.1) { s with inst := r.2 }
  else .refused .absorbBeforeSetPid

end Sys2Proof.Machine
end

