-- ==== Sys2Proof/Machine/TsPacketHeader.lean ====
section
/-! DEFINITION. TsPacketHeader: the operation TSH_PARSE (R70). -/

namespace Sys2Proof.Machine

/-- TSH_PARSE(P) (R70). -/
def parseHeader (P : Packet) : Except Condition TsHeader :=
  if pktByte P 0 ≠ Config.syncByte then .error (.invalidSyncByte (pktByte P 0)) else .ok (headerAt P)

/-- TSH_PARSE as an operation of its own (R130): it reads and writes no register. -/
def execTshParse (P : Packet) (s : State) : Host.Outcome State Fault Refusal :=
  match parseHeader P with
  | .ok h => finish (.header h) s
  | .error cond => raiseCondition cond s

end Sys2Proof.Machine
end

