-- ==== Sys2Proof/Machine/Commands.lean ====
section
/-! DEFINITION. The host commands: STEP (R126), SET_PID (R127), FLUSH (R128), RESET (R129). -/

namespace Sys2Proof.Machine

/-- The output of a step that ended before ABSORB (R150). -/
def earlyOutput (status : Status) (tsh : Option TsHeader) : Output := ⟨status, false, tsh, none, none, none⟩

/-- The output of a step that reached ABSORB (R126, R28). -/
def absorbOutput (h : TsHeader) (a : AdaptationField) (r : AbsorbResult) : Output :=
  ⟨r.status, r.dup, some h, some a, r.pesh, r.emit⟩

/-- The steps of STEP after TSH_PARSE: the adaptation field's parse, which may raise before the PID is looked at (R157), and
then the assembler. -/
def afterHeader (h : TsHeader) (field : Except Condition AdaptationField) (assemble : AdaptationField → Inst → AbsorbOutcome)
    (s : State) : Host.Outcome State Fault Refusal :=
  match field with
  | .error cond => finish (.output (earlyOutput cond.status (some h))) s
  | .ok a => andThen (assemble a s.inst) fun r => finish (.output (absorbOutput h a r.1)) { s with inst := r.2 }

/-- STEP's admission check (R126, R172). -/
def admission (s : State) (rest : Host.Outcome State Fault Refusal) : Host.Outcome State Fault Refusal :=
  if s.inst.pidValid then rest else .refused .stepBeforeSetPid

/-- STEP(P) (R126). -/
def execStep (P : Packet) (s : State) : Host.Outcome State Fault Refusal :=
  admission s
    (match parseHeader P with
     | .error cond => finish (.output (earlyOutput cond.status none)) s
     | .ok h => afterHeader h (parseField P h.afc) (absorbPacket s.params P h) s)

/-- SET_PID(p) (R127): any unit in progress is dropped without emission. -/
def execSetPid (p : BitVec 13) (s : State) : Host.Outcome State Fault Refusal :=
  finish .noValue { s with inst := { toIdle s.inst with targetPid := p, pidValid := true } }

/-- FLUSH (R128): the open unit as it stands; nothing in Idle. -/
def execFlush (s : State) : Host.Outcome State Fault Refusal :=
  match s.inst.st with
  | .assembling => andThen (emission s.inst) fun e => finish (.flushed (some e)) { s with inst := toIdle s.inst }
  | .idle => finish (.flushed none) s

/-- RESET (R129): the reset values of R33. A `target_pid` that was set becomes unspecified, a free value (log entry 4); while
`pid_valid` = 0 it is unspecified already and RESET changes nothing (R172). -/
def execReset (s : State) : Host.Outcome State Fault Refusal :=
  if s.inst.pidValid then
    finish .noValue { s with inst := { Inst.reset with targetPid := Config.freePid s.free }, free := s.free + 1 }
  else finish .noValue { s with inst := { Inst.reset with targetPid := s.inst.targetPid } }

end Sys2Proof.Machine
end

