-- ==== Sys2Proof/Machine/Packets.lean ====
section
/-! DEFINITION. The nine packet classes (R131 to R139), each as its own rule gives it: what the class's pusi and afc fix is
fixed here (whether an adaptation field is parsed, where the payload begins, whether there is one), and the rest is the shared
steps of STEP. That each agrees with STEP on its packets is a statement, not a definition. -/

namespace Sys2Proof.Machine

/-- A start packet whose adaptation field is absent (R131, R132): the PES header stands at offset 4. -/
def startAt4 (h : TsHeader) (body : Body) (s : State) : Host.Outcome State Fault Refusal :=
  admission s (afterHeader h (.ok AdaptationField.absent)
    (fun _ c => matchPid h.pid c (startUnit s.params (packetOf h body) h.cc 4 c)) s)

/-- A start packet with an adaptation field (R133, R134): the PES header stands at 5 + L, or at 5 when L = 0. -/
def startAfterField (h : TsHeader) (body : Body) (s : State) : Host.Outcome State Fault Refusal :=
  admission s (afterHeader h (parseField (packetOf h body) h.afc)
    (fun a c => matchPid h.pid c (startUnit s.params (packetOf h body) h.cc (payloadOffset a) c)) s)

/-- PKT.S.RSV (R131): "step 2 of ABSORB runs although `hasPayload` is false". -/
def execPktSRsv (f : PktFields) (body : Body) (s : State) : Host.Outcome State Fault Refusal :=
  startAt4 (classHeader true 0 f) body s

/-- PKT.S.PAY (R132). -/
def execPktSPay (f : PktFields) (body : Body) (s : State) : Host.Outcome State Fault Refusal :=
  startAt4 (classHeader true 1 f) body s

/-- PKT.S.AF (R133): "step 2 runs although `hasPayload` is false". -/
def execPktSAf (f : PktFields) (body : Body) (s : State) : Host.Outcome State Fault Refusal :=
  startAfterField (classHeader true 2 f) body s

/-- PKT.S.AFPAY (R134). -/
def execPktSAfpay (f : PktFields) (body : Body) (s : State) : Host.Outcome State Fault Refusal :=
  startAfterField (classHeader true 3 f) body s

/-- PKT.C.RSV (R135): no adaptation field and no payload. -/
def execPktCRsv (f : PktFields) (body : Body) (s : State) : Host.Outcome State Fault Refusal :=
  let h := classHeader false 0 f
  admission s (afterHeader h (.ok AdaptationField.absent)
    (fun _ c => matchPid h.pid c (continueUnit s.params (packetOf h body) h.cc none c)) s)

/-- PKT.C.PAY (R136): 184 payload bytes at offset 4. -/
def execPktCPay (f : PktFields) (body : Body) (s : State) : Host.Outcome State Fault Refusal :=
  let h := classHeader false 1 f
  admission s (afterHeader h (.ok AdaptationField.absent)
    (fun _ c => matchPid h.pid c (continueUnit s.params (packetOf h body) h.cc (some 4) c)) s)

/-- PKT.C.AF (R137): an adaptation field and no payload. -/
def execPktCAf (f : PktFields) (body : Body) (s : State) : Host.Outcome State Fault Refusal :=
  let h := classHeader false 2 f
  admission s (afterHeader h (parseField (packetOf h body) 2)
    (fun _ c => matchPid h.pid c (continueUnit s.params (packetOf h body) h.cc none c)) s)

/-- PKT.C.AFPAY (R138): the payload follows the adaptation field. -/
def execPktCAfpay (f : PktFields) (body : Body) (s : State) : Host.Outcome State Fault Refusal :=
  let h := classHeader false 3 f
  admission s (afterHeader h (parseField (packetOf h body) 3)
    (fun a c => matchPid h.pid c (continueUnit s.params (packetOf h body) h.cc (some (payloadOffset a)) c)) s)

/-- PKT.BADSYNC (R139): only the status, no register changes. -/
def execPktBadsync (h : TsHeader) (body : Body) (s : State) : Host.Outcome State Fault Refusal :=
  let P := packetOf h body
  admission s (finish (.output (earlyOutput (Condition.invalidSyncByte (pktByte P 0)).status none)) s)

end Sys2Proof.Machine
end

