-- ==== Sys2Proof/Machine/Dispatch.lean ====
section
/-! DEFINITION. One arm per instruction, each one call of its meaning. -/

namespace Sys2Proof.Machine

def exec (i : Instr) (s : State) : Host.Outcome State Fault Refusal :=
  match i with
  | .pktSRsv f body => Sys2Proof.Machine.execPktSRsv f body s
  | .pktSPay f body => Sys2Proof.Machine.execPktSPay f body s
  | .pktSAf f body => Sys2Proof.Machine.execPktSAf f body s
  | .pktSAfpay f body => Sys2Proof.Machine.execPktSAfpay f body s
  | .pktCRsv f body => Sys2Proof.Machine.execPktCRsv f body s
  | .pktCPay f body => Sys2Proof.Machine.execPktCPay f body s
  | .pktCAf f body => Sys2Proof.Machine.execPktCAf f body s
  | .pktCAfpay f body => Sys2Proof.Machine.execPktCAfpay f body s
  | .pktBadsync h body => Sys2Proof.Machine.execPktBadsync h body s
  | .afAbsent => Sys2Proof.Machine.execAfAbsent s
  | .afLength len => Sys2Proof.Machine.execAfLength len s
  | .afEmpty => Sys2Proof.Machine.execAfEmpty s
  | .afFlags f => Sys2Proof.Machine.execAfFlags f s
  | .afPcr v => Sys2Proof.Machine.execAfPcr v s
  | .afOpcr v => Sys2Proof.Machine.execAfOpcr v s
  | .afSplice b => Sys2Proof.Machine.execAfSplice b s
  | .afPrivate b => Sys2Proof.Machine.execAfPrivate b s
  | .afExt n l p q r => Sys2Proof.Machine.execAfExt n l p q r s
  | .afExtLtw w => Sys2Proof.Machine.execAfExtLtw w s
  | .afExtPiecewise q => Sys2Proof.Machine.execAfExtPiecewise q s
  | .afExtSeamless m => Sys2Proof.Machine.execAfExtSeamless m s
  | .afStuffing => Sys2Proof.Machine.execAfStuffing s
  | .peshBasic pre => Sys2Proof.Machine.execPeshBasic pre s
  | .peshExt pre x => Sys2Proof.Machine.execPeshExt pre x s
  | .tshParse pkt => Sys2Proof.Machine.execTshParse pkt s
  | .afParse pkt afc => Sys2Proof.Machine.execAfParse pkt afc s
  | .peshParse pkt off => Sys2Proof.Machine.execPeshParse pkt off s
  | .absorb pkt h a => Sys2Proof.Machine.execAbsorb pkt h a s
  | .step pkt => Sys2Proof.Machine.execStep pkt s
  | .setPid p => Sys2Proof.Machine.execSetPid p s
  | .flush => Sys2Proof.Machine.execFlush s
  | .reset => Sys2Proof.Machine.execReset s

end Sys2Proof.Machine
end

