-- ==== Sys2Proof/Machine/Step.lean ====
section
/-! DEFINITION. One step of the machine: take the driver's oldest request and run it (R42). With nothing asked for, the block
"holds its registers and does nothing" (R167). -/

namespace Sys2Proof.Machine

/-- One step. -/
def step (s : State) : Host.Outcome State Fault Refusal :=
  match fetchRequest s with
  | .idle => .next s
  | .reject r => .refused r
  | .run i s' => exec i s'

/-- `s` with a table word as the driver's oldest request to the current core instance: the load of a program of one request
(log entry 8). -/
def State.withFetchWord (s : State) (nbits w : Nat) : State :=
  { s with queue := tableRequest s.below.length nbits w :: s.queue }

end Sys2Proof.Machine
end

