-- ==== Sys2Proof/Safety.lean ====
section
/-! DEFINITION. What a claim may take for granted of a state a run can be in: the invariants of R20, the form of the buffer,
and the facts of R87 about the parse in progress. A run is safe as long as its states meet `State.Inv`; a step out of one stops
only by a named fault or refusal. -/

namespace Sys2Proof.Machine

/-- The bytes accumulated for the open unit, `BUF[0], …, BUF[wr_off-1]` (R18), of a buffer in the form of `BufInv`. -/
def content (c : Inst) : List Byte := c.buf.map Prod.snd

/-- The buffer that holds `bytes` at addresses `a`, `a + 1`, … and nothing else. -/
def cells : Nat → List Byte → Memory
  | _, [] => []
  | a, b :: bs => (a, b) :: cells (a + 1) bs

/-- I1 of R20. -/
abbrev IdleInv (c : Inst) : Prop :=
  c.st = .idle → c.lastCc = none ∧ c.pesTotal = 0 ∧ c.unbounded = false ∧ c.hdrLen = 0 ∧ c.wrOff = 0

/-- I2 of R20. -/
abbrev AssemblingInv (c : Inst) : Prop :=
  c.st = .assembling → c.lastCc.isSome = true ∧ 6 ≤ c.hdrLen.toNat ∧ c.hdrLen.toNat ≤ 184 ∧ 6 ≤ c.pesTotal.toNat ∧
    c.pesTotal.toNat ≤ 65541 ∧ (c.unbounded = true ↔ c.pesTotal.toNat = 6) ∧ c.pidValid = true

/-- I3 of R20: `wr_off` ≤ `BUF_CAP`. -/
abbrev CapacityInv (p : Params) (c : Inst) : Prop := fits p.bufCap c.wrOff = true

/-- The buffer holds exactly the bytes below `wr_off` (R18, R46). -/
abbrev BufInv (c : Inst) : Prop := c.buf.map Prod.fst = List.range c.wrOff

/-- How many bytes the sub-fields of a record took: `opt` of R84, counted over what was consumed. -/
def consumed (a : AdaptationField) : Nat :=
  (if a.pcr.isSome then 6 else 0) + (if a.opcr.isSome then 6 else 0) + (if a.spliceByte.isSome then 1 else 0) +
    (if a.privateByte.isSome then 1 else 0) +
    match a.ext with
    | none => 0
    | some x => 2 + (if x.ltw.isSome then 2 else 0) + (if x.piecewiseRate.isSome then 3 else 0) +
        (if x.seamlessSplice.isSome then 1 else 0)

/-- byte_count is 0 for an absent field, else 1 + length, and at most 184 (R23, R87). -/
abbrev ByteCountInv (a : AdaptationField) : Prop :=
  a.byteCount = (if a.present then 1 + a.length.toNat else 0) ∧ a.byteCount ≤ 184

/-- The parse in progress (R31): before the flag byte the cursor is at 4 or 5 and nothing is flagged or consumed; after it the
cursor is 6 + what was consumed. -/
abbrev ParseInv (w : ParseCtx) : Prop :=
  ByteCountInv w.af ∧
    (((w.cur = 4 ∨ w.cur = 5) ∧ w.af.flags = AfFlags.zero ∧ consumed w.af = 0) ∨ w.cur = 6 + consumed w.af)

/-- The invariant of one core instance. -/
abbrev Inst.Inv (p : Params) (c : Inst) : Prop :=
  IdleInv c ∧ AssemblingInv c ∧ CapacityInv p c ∧ BufInv c ∧ ParseInv c.parse

/-- The invariant of the machine: every core instance meets its own. -/
abbrev State.Inv (s : State) : Prop := ∀ c ∈ s.insts, Inst.Inv s.params c

end Sys2Proof.Machine
end

