-- ==== Sys2Proof/Certificates/Slice0/Obligations.lean ====
section
/-! DEFINITION. The statements about the model, and the spec's formulas they are written with.
The helpers of `Sys2Proof.Claims` restate the spec in plain arithmetic on the numbers of a packet's bytes (R58), apart from the
definitions the machine runs. -/

namespace Sys2Proof.Claims

open Sys2Proof.Machine

/-! ### The packet in numbers -/

/-- The byte at offset `i` of a packet, as a number. -/
def byte (P : Packet) (i : Nat) : Nat := (P.toList.getD i 0).toNat

/-- Bit `i` of a number. -/
def bit (n i : Nat) : Bool := decide (n / 2 ^ i % 2 = 1)

/-- 1 for a set bit, 0 for a clear one. -/
def num (b : Bool) : Nat := if b then 1 else 0

/-- Packets that have the same bytes at offsets `lo` to `hi - 1`. -/
def AgreeOn (P Q : Packet) (lo hi : Nat) : Prop := ∀ i, lo ≤ i → i < hi → byte P i = byte Q i

/-- The header of R51 and R70, its numbers as in R58. -/
def header (P : Packet) : TsHeader where
  syncByte := BitVec.ofNat 8 (byte P 0)
  tei := bit (byte P 1) 7
  pusi := bit (byte P 1) 6
  prio := bit (byte P 1) 5
  pid := BitVec.ofNat 13 (byte P 1 % 32 * 256 + byte P 2)
  tsc := BitVec.ofNat 2 (byte P 3 / 64)
  afc := BitVec.ofNat 2 (byte P 3 / 16 % 4)
  cc := BitVec.ofNat 4 (byte P 3 % 16)

/-- A PCR or OPCR at offset `c` (R54, R58). -/
def pcr (P : Packet) (c : Nat) : Pcr where
  base := BitVec.ofNat 33
    (byte P c * 2 ^ 25 + byte P (c + 1) * 2 ^ 17 + byte P (c + 2) * 2 ^ 9 + byte P (c + 3) * 2 + byte P (c + 4) / 128)
  reserved := BitVec.ofNat 6 (byte P (c + 4) / 2 % 64)
  ext := BitVec.ofNat 9 (byte P (c + 4) % 2 * 256 + byte P (c + 5))

/-- The flag byte of R53. -/
def flags (F : Nat) : AfFlags where
  discontinuity := bit F 7
  randomAccess := bit F 6
  esPriority := bit F 5
  pcrFlag := bit F 4
  opcrFlag := bit F 3
  splicingPointFlag := bit F 2
  privateDataFlag := bit F 1
  extensionFlag := bit F 0

/-- Where the OPCR, the splicing byte, the private byte and the extension block stand, after the sub-fields before them (R52). -/
def opcrOff (F : Nat) : Nat := 6 + 6 * num (bit F 4)
def spliceOff (F : Nat) : Nat := opcrOff F + 6 * num (bit F 3)
def privateOff (F : Nat) : Nat := spliceOff F + num (bit F 2)
def extOff (F : Nat) : Nat := privateOff F + num (bit F 1)

/-- The extension block at offset `x` (R55, R83). -/
def extension (P : Packet) (x : Nat) : AfExtension :=
  let E := byte P (x + 1)
  let pw := x + 2 + 2 * num (bit E 7)
  let ss := pw + 3 * num (bit E 6)
  { extLength := BitVec.ofNat 8 (byte P x)
    ltwFlag := bit E 7
    piecewiseRateFlag := bit E 6
    seamlessSpliceFlag := bit E 5
    extReserved := BitVec.ofNat 5 (E % 32)
    ltw := if bit E 7 then some (BitVec.ofNat 16 (byte P (x + 2) * 256 + byte P (x + 3))) else none
    piecewiseRate :=
      if bit E 6 then some (BitVec.ofNat 24 (byte P pw * 65536 + byte P (pw + 1) * 256 + byte P (pw + 2))) else none
    seamlessSplice := if bit E 5 then some (BitVec.ofNat 8 (byte P ss)) else none }

/-- `opt` of R84 for the flag bytes F and E. -/
def optBytes (F E : Nat) : Nat :=
  6 * num (bit F 4) + 6 * num (bit F 3) + num (bit F 2) + num (bit F 1) +
    num (bit F 0) * (2 + 2 * num (bit E 7) + 3 * num (bit E 6) + num (bit E 5))

/-- `opt` of the field in a packet. -/
def opt (P : Packet) : Nat := optBytes (byte P 5) (byte P (extOff (byte P 5) + 1))

/-- The record of a field with a flag byte, 0 < L ≤ 183 (R75, R78 to R85). -/
def fieldWithFlags (P : Packet) : AdaptationField :=
  let F := byte P 5
  { present := true
    length := BitVec.ofNat 8 (byte P 4)
    byteCount := 1 + byte P 4
    flags := flags F
    pcr := if bit F 4 then some (pcr P 6) else none
    opcr := if bit F 3 then some (pcr P (opcrOff F)) else none
    spliceByte := if bit F 2 then some (BitVec.ofNat 8 (byte P (spliceOff F))) else none
    privateByte := if bit F 1 then some (BitVec.ofNat 8 (byte P (privateOff F))) else none
    ext := if bit F 0 then some (extension P (extOff F)) else none
    stuffingCount := byte P 4 - opt P
    overrun := decide (byte P 4 < 1 + opt P) }

/-- A record without flags and sub-fields: absent (R86) or of length 0 (R77). -/
def bareField (present : Bool) (byteCount : Nat) : AdaptationField :=
  ⟨present, 0, byteCount, ⟨false, false, false, false, false, false, false, false⟩, none, none, none, none, none, 0, false⟩

/-- What AF_PARSE finds (R75): `none` where the length is over 183 (R76). -/
def field (P : Packet) (afc : BitVec 2) : Option AdaptationField :=
  if afc.toNat < 2 then some (bareField false 0)
  else if byte P 4 = 0 then some (bareField true 1)
  else if 183 < byte P 4 then none
  else some (fieldWithFlags P)

/-- The fields of the six fixed bytes of a PES header at `off` (R56, R97), all others 0. -/
def pesBasic (P : Packet) (off : Nat) : PesHeader where
  startCode := BitVec.ofNat 24 (byte P off * 65536 + byte P (off + 1) * 256 + byte P (off + 2))
  pscOk := decide (byte P off = 0 ∧ byte P (off + 1) = 0 ∧ byte P (off + 2) = 1)
  streamId := BitVec.ofNat 8 (byte P (off + 3))
  pesPacketLength := BitVec.ofNat 16 (byte P (off + 4) * 256 + byte P (off + 5))
  extended := false
  fields := ⟨0, false, false, false, false, 0, false, false, false, false, false, false, 0⟩

/-- The extended header at `off` (R57, R94). -/
def pesExtended (P : Packet) (off : Nat) : PesHeader :=
  let A := byte P (off + 6)
  let B := byte P (off + 7)
  { pesBasic P off with
    extended := true
    fields :=
      ⟨BitVec.ofNat 2 (A / 16 % 4), bit A 3, bit A 2, bit A 1, bit A 0, BitVec.ofNat 2 (B / 64), bit B 5, bit B 4, bit B 3, bit B 2,
        bit B 1, bit B 0, BitVec.ofNat 8 (byte P (off + 8))⟩ }

/-- The form of the header is extended (R93). -/
def isExtended (p : Params) (P : Packet) (off : Nat) : Bool :=
  decide (off + 7 ≤ 188) && byte P (off + 6) / 64 == 2 && !p.noExtStreamIds.contains (BitVec.ofNat 8 (byte P (off + 3)))

/-- What PESH_PARSE finds (R90, R91, R93, R95, R96): the record and new_offset, or the condition. -/
def pes (p : Params) (P : Packet) (off : Nat) : Except Condition (PesHeader × Nat) :=
  if 188 < off + 6 then .error (.truncatedPesPrefix off)
  else if isExtended p P off = false then .ok (pesBasic P off, off + 6)
  else if 188 < off + 9 then .error (.truncatedPesExt off)
  else if 188 < off + 9 + byte P (off + 8) then .error (.truncatedPesData off (byte P (off + 8)))
  else .ok (pesExtended P off, off + 9 + byte P (off + 8))

/-- The result an operation returns for it. -/
def pesResult : Except Condition (PesHeader × Nat) → Result
  | .ok (ph, newOffset) => .pesHeader ph newOffset
  | .error cond => .raised cond

/-! ### The assembler -/

/-- The bytes of a packet from `start` to its end. -/
def slice (P : Packet) (start : Nat) : List Byte := P.toList.drop start

/-- The registers after `ToIdle` (R100): `target_pid`, `pid_valid` and the parse in progress stay. -/
def idled (c : Inst) : Inst :=
  ⟨c.pidValid, c.targetPid, .idle, none, 0, false, 0, 0, [], c.parse⟩

/-- The registers after a unit start (R104 to R106). -/
def started (P : Packet) (cc : BitVec 4) (off : Nat) (ph : PesHeader) (newOffset : Nat) (c : Inst) : Inst :=
  ⟨c.pidValid, c.targetPid, .assembling, some cc, BitVec.ofNat 17 (ph.pesPacketLength.toNat + 6),
    decide (ph.pesPacketLength.toNat = 0), BitVec.ofNat 8 (newOffset - off), 188 - newOffset, cells 0 (slice P newOffset), c.parse⟩

/-- The registers after an append of the bytes from `start` on (R111). -/
def appended (P : Packet) (cc : BitVec 4) (start : Nat) (c : Inst) : Inst :=
  { c with lastCc := some cc, wrOff := c.wrOff + (188 - start), buf := cells 0 (content c ++ slice P start) }

/-- The emission of the accumulated bytes (R27, R115). -/
def whole (c : Inst) : Emission := ⟨content c, c.wrOff⟩

/-- The emission of a prior unit, if one is open (R102). -/
def prior (c : Inst) : Option Emission := if c.st = .assembling then some (whole c) else none

/-- The completion test of R113. -/
abbrev Complete (c : Inst) : Prop := c.unbounded = false ∧ c.hdrLen.toNat + c.wrOff = c.pesTotal.toNat

/-- The counter is the one after `last` (R107). -/
abbrev InSequence (last cc : BitVec 4) : Prop := cc.toNat = (last.toNat + 1) % 16

/-- There is room for `n` more bytes (R38, R48). -/
abbrev Room (p : Params) (c : Inst) (n : Nat) : Prop := ∀ cap ∈ p.bufCap, c.wrOff + n ≤ cap

/-- The instance after an in-sequence continuation packet, `d` being the one after step 3b (R113). -/
def concluded (d : Inst) : Inst := if Complete d then idled d else d

/-- Its status and emission (R113, R120). -/
def conclusion (d : Inst) : AbsorbResult :=
  if Complete d then ⟨.assemblingFinished, false, none, some (whole d)⟩ else ⟨.assemblingContinue, false, none, none⟩

/-- The payload of a packet with header `h` and field `a` is appended where there is one (R111, R112). -/
def afterPayload (P : Packet) (h : TsHeader) (a : AdaptationField) (c : Inst) : Inst :=
  if h.afc.toNat % 2 = 1 then appended P h.cc (4 + a.byteCount) c else c

/-- The transition table (R119) behind the order of the tests (R157): the instance and the output after a STEP. -/
def table (p : Params) (P : Packet) (c : Inst) : Inst × Output :=
  let h := header P
  if byte P 0 ≠ 0x47 then (c, ⟨.invalidSyncByte, false, none, none, none, none⟩)
  else
    match field P h.afc with
    | none => (c, ⟨.truncatedHeader, false, some h, none, none, none⟩)
    | some a =>
      if h.pid ≠ c.targetPid then (c, ⟨.unexpectedPid, false, some h, some a, none, none⟩)
      else if h.pusi then
        match pes p P (4 + a.byteCount) with
        | .error _ => (idled c, ⟨.truncatedHeader, false, some h, some a, none, prior c⟩)
        | .ok (ph, newOffset) =>
          (started P h.cc (4 + a.byteCount) ph newOffset c, ⟨.assemblingStarted, false, some h, some a, some ph, prior c⟩)
      else
        match c.st, c.lastCc with
        | .assembling, some last =>
          if h.cc = last then (c, ⟨.assemblingContinue, true, some h, some a, none, none⟩)
          else if InSequence last h.cc then
            let d := afterPayload P h a c
            (concluded d, ⟨(conclusion d).status, false, some h, some a, none, (conclusion d).emit⟩)
          else (idled c, ⟨.streamPacketLost, false, some h, some a, none, none⟩)
        | _, _ => (c, ⟨.streamPacketLost, false, some h, some a, none, none⟩)

/-- What a start packet class gives (R131 to R134), for the instruction `i`, its packet `P`, its header `h` and the adaptation
field `found` of the packet: TruncatedHeader before the PID is looked at; UnexpectedPid; a unit start; TruncatedHeader in the
PES header. In each case the instruction completes, and only what is named changes. -/
def StartClassRuns (i : Instr) (P : Packet) (h : TsHeader) (found : Option AdaptationField) : Prop :=
  ∀ s : State, s.inst.pidValid = true →
    (found = none → exec i s = .next { s with out := .output ⟨.truncatedHeader, false, some h, none, none, none⟩ }) ∧
    ∀ a, found = some a →
      (h.pid ≠ s.inst.targetPid →
        exec i s = .next { s with out := .output ⟨.unexpectedPid, false, some h, some a, none, none⟩ }) ∧
      (h.pid = s.inst.targetPid → BufInv s.inst →
        (∀ ph newOffset, pes s.params P (4 + a.byteCount) = .ok (ph, newOffset) →
          Room s.params (idled s.inst) (188 - newOffset) →
          exec i s =
            .next { s with
              inst := started P h.cc (4 + a.byteCount) ph newOffset s.inst
              out := .output ⟨.assemblingStarted, false, some h, some a, some ph, prior s.inst⟩ }) ∧
        (∀ cond, pes s.params P (4 + a.byteCount) = .error cond →
          exec i s =
            .next { s with
              inst := idled s.inst
              out := .output ⟨.truncatedHeader, false, some h, some a, none, prior s.inst⟩ }))

/-- What a continuation packet class gives (R135 to R138): TruncatedHeader before the PID is looked at; UnexpectedPid; in Idle
StreamPacketLost; and with a unit open the duplicate, the gap and the packet in sequence. -/
def ContinuationClassRuns (i : Instr) (P : Packet) (h : TsHeader) (found : Option AdaptationField) : Prop :=
  ∀ s : State, s.inst.pidValid = true →
    (found = none → exec i s = .next { s with out := .output ⟨.truncatedHeader, false, some h, none, none, none⟩ }) ∧
    ∀ a, found = some a →
      (h.pid ≠ s.inst.targetPid →
        exec i s = .next { s with out := .output ⟨.unexpectedPid, false, some h, some a, none, none⟩ }) ∧
      (h.pid = s.inst.targetPid →
        (s.inst.st = .idle →
          exec i s = .next { s with out := .output ⟨.streamPacketLost, false, some h, some a, none, none⟩ }) ∧
        ∀ last, s.inst.st = .assembling → s.inst.lastCc = some last →
          (h.cc = last →
            exec i s = .next { s with out := .output ⟨.assemblingContinue, true, some h, some a, none, none⟩ }) ∧
          (h.cc ≠ last → ¬InSequence last h.cc →
            exec i s =
              .next { s with
                inst := idled s.inst
                out := .output ⟨.streamPacketLost, false, some h, some a, none, none⟩ }) ∧
          (InSequence last h.cc → BufInv s.inst → (h.afc.toNat % 2 = 1 → Room s.params s.inst (184 - a.byteCount)) →
            let d := afterPayload P h a s.inst
            exec i s =
              .next { s with
                inst := concluded d
                out := .output ⟨(conclusion d).status, false, some h, some a, none, (conclusion d).emit⟩ }))

/-- The match value of a packet class's row over the mask 0xFF400030 (R59); `none` for what is not one of the eight rows. -/
def rowMatch : Instr → Option (BitVec 32)
  | .pktSRsv _ _ => some 0x47400000
  | .pktSPay _ _ => some 0x47400010
  | .pktSAf _ _ => some 0x47400020
  | .pktSAfpay _ _ => some 0x47400030
  | .pktCRsv _ _ => some 0x47000000
  | .pktCPay _ _ => some 0x47000010
  | .pktCAf _ _ => some 0x47000020
  | .pktCAfpay _ _ => some 0x47000030
  | _ => none

/-- The instruction is one of the nine packet classes. -/
def isPacketClass : Instr → Bool
  | .pktBadsync _ _ => true
  | i => (rowMatch i).isSome

/-- The registers of R11, which leave the model's own field `parse` out. -/
def registers (c : Inst) : Inst := { c with parse := ParseCtx.init }

/-! ### The walk of an adaptation field by its forms -/

/-- Run one form whose operand stands at the cursor of the parse in progress. -/
def atCursor (form : Nat → Instr) (s : State) : Host.Outcome State Fault Refusal := exec (form s.inst.parse.cur) s

/-- Run forms one after another. -/
def walk : List (Nat → Instr) → State → Host.Outcome State Fault Refusal
  | [], s => .next s
  | form :: rest, s => andThen (atCursor form s) (walk rest)

/-- The forms of R52 in their order, each with the bytes that stand at the cursor it finds. -/
def fieldForms (P : Packet) : List (Nat → Instr) :=
  [fun _ => .afLength (BitVec.ofNat 8 (byte P 4)),
   fun _ => .afFlags (flags (byte P 5)),
   fun c => .afPcr (pcr P c),
   fun c => .afOpcr (pcr P c),
   fun c => .afSplice (BitVec.ofNat 8 (byte P c)),
   fun c => .afPrivate (BitVec.ofNat 8 (byte P c)),
   fun c => .afExt (BitVec.ofNat 8 (byte P c)) (bit (byte P (c + 1)) 7) (bit (byte P (c + 1)) 6) (bit (byte P (c + 1)) 5)
      (BitVec.ofNat 5 (byte P (c + 1) % 32)),
   fun c => .afExtLtw (BitVec.ofNat 16 (byte P c * 256 + byte P (c + 1))),
   fun c => .afExtPiecewise (BitVec.ofNat 24 (byte P c * 65536 + byte P (c + 1) * 256 + byte P (c + 2))),
   fun c => .afExtSeamless (BitVec.ofNat 8 (byte P c)),
   fun _ => .afStuffing]

end Sys2Proof.Claims

open Sys2Proof Sys2Proof.Machine Sys2Proof.Claims

/-! ### Encoding -/

/-- Decoding the encoding of a well-formed instruction gives it back, for every instruction and every value of its operands. -/
def Obligations.DecodeOfEncode : Prop :=
  ∀ (p : Params) (core : Nat) (i : Instr), WellFormed p i →
    decode p (encode core i) = .ok i ∧ (encode core i).core = core

/-- Every list of 188 bytes is exactly one packet class, which is well formed and encodes to the same bytes. -/
def Obligations.EveryPacketHasOneClass : Prop :=
  ∀ (p : Params) (core : Nat) (bytes : List Byte), bytes.length = 188 →
    ∃ i, decode p ⟨core, .packet, bytes⟩ = .ok i ∧ isPacketClass i = true ∧ WellFormed p i ∧
      encode core i = ⟨core, .packet, bytes⟩

/-- A packet's class is the row of R59 whose match value its word W has under the mask, and PKT.BADSYNC when no row has it (R59 is
marked derived from R51 and R100). -/
def Obligations.ClassesFollowTheTable : Prop :=
  ∀ (p : Params) (core : Nat) (b0 b1 b2 b3 : Byte) (rest : List Byte) (i : Instr),
    decode p ⟨core, .packet, b0 :: b1 :: b2 :: b3 :: rest⟩ = .ok i →
    let W : BitVec 32 := b0 ++ b1 ++ b2 ++ b3
    isPacketClass i = true ∧
      (∀ m, rowMatch i = some m ↔
        W &&& 0xFF400030 = m ∧
          m ∈ [0x47400000, 0x47400010, 0x47400020, 0x47400030, 0x47000000, 0x47000010, 0x47000020, 0x47000030]) ∧
      (rowMatch i = none ↔ b0 ≠ 0x47)

/-- The fields of a PCR and an OPCR are the slices of R54, as AF_PARSE's reader takes them and as the decoder does (R54 is marked
derived from R36). -/
def Obligations.PcrLayout : Prop :=
  (∀ (p : Params) (core : Nat) (b0 b1 b2 b3 b4 b5 : Byte),
    let v : Pcr := ⟨b0 ++ b1 ++ b2 ++ b3 ++ b4.extractLsb' 7 1, b4.extractLsb' 1 6, b4.extractLsb' 0 1 ++ b5⟩
    decode p ⟨core, .af .pcr, [b0, b1, b2, b3, b4, b5]⟩ = .ok (.afPcr v) ∧
    decode p ⟨core, .af .opcr, [b0, b1, b2, b3, b4, b5]⟩ = .ok (.afOpcr v)) ∧
  (∀ (P : Packet) (c : Nat), c + 6 ≤ 188 →
    let V : BitVec 48 := memRead P c 6
    pcrAt P c = ⟨V.extractLsb' 15 33, V.extractLsb' 9 6, V.extractLsb' 0 9⟩ ∧ pcrAt P c = pcr P c)

/-- Words written out from the spec's encodings decode to the instructions they stand for: one of each format that has bits. -/
def Obligations.SpecWordsDecode : Prop :=
  let zeros : Body := Vector.replicate 184 0
  decodeTableWord 32 0x47410015 = some (.pktSPay ⟨false, false, 0x0100, 0, 5⟩ zeros) ∧
  decodeTableWord 32 0x475FFFF7 = some (.pktSAfpay ⟨false, false, 0x1FFF, 3, 7⟩ zeros) ∧
  decodeTableWord 32 0x47A1002A = some (.pktCAf ⟨true, true, 0x0100, 0, 10⟩ zeros) ∧
  decodeTableWord 32 0x48000000 = some (.pktBadsync ⟨0x48, false, false, false, 0, 0, 0, 0⟩ zeros) ∧
  decodeTableWord 8 0xB7 = some (.afLength 183) ∧
  decodeTableWord 48 0x0000000000007E00 = some (.afPcr ⟨0, 63, 0⟩) ∧
  decodeTableWord 16 0x0BDF = some (.afExt 11 true true false 31) ∧
  decodeTableWord 72 0x000001C00198808005 =
    some (.peshExt ⟨1, 0xC0, 408⟩ ⟨0, false, false, false, false, 2, false, false, false, false, false, false, 5⟩) ∧
  decodeTableWord 8 2 = some .flush ∧ decodeTableWord 8 3 = some .reset

/-- Purity and round trip of TSH_PARSE (R72, marked derived from R70): it depends on bytes 0 to 3 alone, and the four bytes made
from any field values parse back to them. -/
def Obligations.HeaderRoundTrip : Prop :=
  (∀ (P Q : Packet) (s : State), AgreeOn P Q 0 4 → exec (.tshParse P) s = exec (.tshParse Q) s) ∧
  (∀ (P : Packet) (s : State) (tei pusi prio : Bool) (pid : BitVec 13) (tsc afc : BitVec 2) (cc : BitVec 4),
    byte P 0 = 0x47 → byte P 1 = num tei * 128 + num pusi * 64 + num prio * 32 + pid.toNat / 256 →
    byte P 2 = pid.toNat % 256 → byte P 3 = tsc.toNat * 64 + afc.toNat * 16 + cc.toNat →
    exec (.tshParse P) s = .next { s with out := .header ⟨0x47, tei, pusi, prio, pid, tsc, afc, cc⟩ })

/-! ### The step -/

/-- A step runs the decoded instruction of the driver's oldest request, on the core instance the request names, with the request
taken from the queue. -/
def Obligations.StepRunsTheDecodedInstruction : Prop :=
  ∀ (s : State) (r : Request) (rest : List Request) (c : Inst) (i : Instr),
    s.queue = r :: rest → s.insts[r.core]? = some c → decode s.params r = .ok i →
    step s = exec i { s with below := s.insts.take r.core, inst := c, above := s.insts.drop (r.core + 1), queue := rest }

/-- Where a step does not run an instruction: with nothing asked for it holds everything (R167), and a request that names no
instance, decodes to nothing or gives a packet operation other than 188 bytes (R181) is refused (the model's names, log entry 8).
-/
def Obligations.StepWithoutAnInstruction : Prop :=
  (∀ s : State, s.queue = [] → step s = .next s) ∧
  (∀ (s : State) (r : Request) (rest : List Request), s.queue = r :: rest → s.insts.length ≤ r.core →
    step s = .refused (.noSuchInstance r.core)) ∧
  (∀ (s : State) (r : Request) (rest : List Request) (e : DecodeError), s.queue = r :: rest → r.core < s.insts.length →
    decode s.params r = .error e → step s = .refused (.badRequest e)) ∧
  (∀ (s : State) (core : Nat) (bytes : List Byte) (rest : List Request) (sel : Selector),
    s.queue = ⟨core, sel, bytes⟩ :: rest → core < s.insts.length → bytes.length ≠ 188 →
    (sel = .packet ∨ sel = .tshParse ∨ (∃ afc, sel = .afParse afc) ∨ ∃ off, sel = .peshParse off) →
    step s = .refused (.badRequest (.wrongLength bytes.length)))

/-! ### Invariants -/

/-- The invariant of the machine holds at power-on. -/
def Obligations.ResetMeetsInvariant : Prop := State.reset.Inv

/-- The values of R33 at power-on, after RESET and after SET_PID(p). The value of `target_pid` after reset is not stated: the spec
leaves it unspecified. -/
def Obligations.ResetValues : Prop :=
  let atReset (c : Inst) : Prop :=
    c.st = .idle ∧ c.lastCc = none ∧ c.pesTotal = 0 ∧ c.unbounded = false ∧ c.hdrLen = 0 ∧ c.wrOff = 0 ∧
      ∀ a, c.buf.read a = none
  (State.reset.inst.pidValid = false ∧ atReset State.reset.inst) ∧
  (∀ s : State, ∃ t, exec .reset s = .next t ∧ t.inst.pidValid = false ∧ atReset t.inst) ∧
  (∀ (p : BitVec 13) (s : State), ∃ t, exec (.setPid p) s = .next t ∧ t.inst.pidValid = true ∧ t.inst.targetPid = p ∧
    atReset t.inst)

/-- R20 (marked derived from R103 to R113 and R127 to R129): the invariants I1 to I3 (with the buffer's form and the parse in
progress, the model's own) hold after reset and after every operation, and after a STEP with status AssemblingStarted I4 holds. -/
def Obligations.InvariantsAfterEveryOperation : Prop :=
  State.reset.Inv ∧
  (∀ (i : Instr) (s t : State), s.Inv → exec i s = .next t → t.Inv) ∧
  (∀ (P : Packet) (s t : State) (o : Output), exec (.step P) s = .next t → t.out = .output o → o.status = .assemblingStarted →
    ∃ a ph newOffset, o.af = some a ∧ o.pesh = some ph ∧ pes s.params P (4 + a.byteCount) = .ok (ph, newOffset) ∧
      t.inst.wrOff = 188 - newOffset ∧ t.inst.wrOff ≤ 178)

/-- Every step keeps the invariant, from any state that meets it. -/
def Obligations.StepKeepsInvariant : Prop := ∀ s t : State, s.Inv → step s = .next t → t.Inv

/-- Every step keeps the canonical form of every instance's buffer, from any state, whatever else the state holds. -/
def Obligations.StepKeepsBuffersCanonical : Prop :=
  ∀ s t : State, (∀ c ∈ s.insts, c.buf.wf = true) → step s = .next t → ∀ c ∈ t.insts, c.buf.wf = true

/-- R163: a step on one core instance leaves every other instance, their number, the parameters and the requests behind it as they
were. -/
def Obligations.OtherInstancesUntouched : Prop :=
  ∀ (s t : State) (r : Request) (rest : List Request), s.queue = r :: rest → step s = .next t →
    t.params = s.params ∧ t.queue = rest ∧ t.insts.length = s.insts.length ∧
      ∀ k, k ≠ r.core → t.insts[k]? = s.insts[k]?

/-- R163, R32: what an instruction does depends on its own instance, the parameters and the free values alone, and neither on the
other instances, the requests waiting nor the value an earlier operation returned. -/
def Obligations.OperationsReadTheirInstanceOnly : Prop :=
  ∀ (i : Instr) (s s' : State), s.params = s'.params → s.inst = s'.inst → s.free = s'.free →
    (∀ t, exec i s = .next t → exec i s' = .next { s' with inst := t.inst, out := t.out, free := t.free }) ∧
    (∀ e, exec i s = .fault e → exec i s' = .fault e) ∧
    (∀ r, exec i s = .refused r → exec i s' = .refused r)

/-- R21 (marked derived from R11): who writes which register. Only SET_PID and RESET write `target_pid` and `pid_valid`; the three
parse operations and the forms of the two variable headers write no register; no instruction writes the parameters, another
instance or the queue. -/
def Obligations.WritersOfEachRegister : Prop :=
  ∀ (i : Instr) (s t : State), exec i s = .next t →
    t.params = s.params ∧ t.below = s.below ∧ t.above = s.above ∧ t.queue = s.queue ∧
    ((t.inst.targetPid = s.inst.targetPid ∧ t.inst.pidValid = s.inst.pidValid ∧ t.free = s.free) ∨
      i = .reset ∨ ∃ p, i = .setPid p) ∧
    (isPacketClass i = true ∨ (∃ P, i = .step P) ∨ (∃ P h a, i = .absorb P h a) ∨ (∃ p, i = .setPid p) ∨ i = .flush ∨
      i = .reset ∨ registers t.inst = registers s.inst) ∧
    (t.inst.parse = s.inst.parse ∨ i = .reset ∨ ∃ form, ((encode 0 i).sel = .af form))

/-! ### TSH_PARSE -/

/-- R70: TSH_PARSE returns the fields of bytes 0 to 3 when the sync byte is 0x47, else the condition, and changes nothing else. -/
def Obligations.TshParseResult : Prop :=
  ∀ (P : Packet) (s : State),
    exec (.tshParse P) s =
      .next { s with out := if byte P 0 = 0x47 then .header (header P) else .raised (.invalidSyncByte (BitVec.ofNat 8 (byte P 0))) }

/-- R71: the two accessors, over all headers. -/
def Obligations.HeaderAccessors : Prop :=
  ∀ h : TsHeader,
    (hasAdaptationField h = true ↔ h.afc = 2 ∨ h.afc = 3) ∧ (hasPayload h = true ↔ h.afc = 1 ∨ h.afc = 3) ∧
    hasAdaptationField h = h.afc.getLsbD 1 ∧ hasPayload h = h.afc.getLsbD 0

/-! ### AF_PARSE and its forms -/

/-- R86: the absent field, through AF_PARSE and as the form AF.ABSENT. The form also begins and ends a parse (log entry 7). -/
def Obligations.AbsentField : Prop :=
  (∀ (P : Packet) (afc : BitVec 2) (s : State), afc = 0 ∨ afc = 1 →
    exec (.afParse P afc) s = .next { s with out := .field (bareField false 0) }) ∧
  (∀ s : State, exec .afAbsent s =
    .next { s with inst := { s.inst with parse := ⟨bareField false 0, 4⟩ }, out := .field (bareField false 0) })

/-- R76: with afc 2 or 3 a length over 183 is TruncatedHeader and no record; any other gives a record with that length and
byte_count = 1 + L, 1 to 184. -/
def Obligations.LengthBound : Prop :=
  ∀ (P : Packet) (afc : BitVec 2) (s : State), afc = 2 ∨ afc = 3 →
    (183 < byte P 4 →
      exec (.afParse P afc) s = .next { s with out := .raised (.truncatedAf (BitVec.ofNat 8 (byte P 4))) }) ∧
    (byte P 4 ≤ 183 → ∃ a, exec (.afParse P afc) s = .next { s with out := .field a } ∧
      a.present = true ∧ a.length.toNat = byte P 4 ∧ a.byteCount = 1 + byte P 4 ∧ 1 ≤ a.byteCount ∧ a.byteCount ≤ 184)

/-- R77: length 0, through AF_PARSE and as the form AF.EMPTY. The form also begins and ends a parse (log entry 7). -/
def Obligations.EmptyField : Prop :=
  (∀ (P : Packet) (afc : BitVec 2) (s : State), afc = 2 ∨ afc = 3 → byte P 4 = 0 →
    exec (.afParse P afc) s = .next { s with out := .field (bareField true 1) }) ∧
  (∀ s : State, exec .afEmpty s =
    .next { s with inst := { s.inst with parse := ⟨bareField true 1, 5⟩ }, out := .field (bareField true 1) })

/-- R75: the whole record of a field with a flag byte, every sub-field at the offset the ones before it leave. -/
def Obligations.FieldWithFlagByte : Prop :=
  ∀ (P : Packet) (afc : BitVec 2) (s : State), afc = 2 ∨ afc = 3 → 0 < byte P 4 → byte P 4 ≤ 183 →
    exec (.afParse P afc) s = .next { s with out := .field (fieldWithFlags P) }

/-- R84 and R85: stuffing_count and overrun of every record with a flag byte, `opt` counted from the flags. -/
def Obligations.StuffingAndOverrun : Prop :=
  ∀ (P : Packet) (afc : BitVec 2) (s t : State) (a : AdaptationField), exec (.afParse P afc) s = .next t → t.out = .field a →
    a.length ≠ 0 →
    let x : Nat := match a.ext with
      | none => 0
      | some e => 2 + 2 * num e.ltwFlag + 3 * num e.piecewiseRateFlag + num e.seamlessSpliceFlag
    let n := 6 * num a.flags.pcrFlag + 6 * num a.flags.opcrFlag + num a.flags.splicingPointFlag + num a.flags.privateDataFlag + x
    n ≤ 22 ∧ a.stuffingCount = (if n ≤ a.length.toNat then a.length.toNat - n else 0) ∧
      (a.overrun = true ↔ a.length.toNat < 1 + n) ∧ (a.ext.isSome = true ↔ a.flags.extensionFlag = true)

/-- R87 (marked derived from R75 and R84): the invariants of every record AF_PARSE returns. -/
def Obligations.FieldInvariants : Prop :=
  ∀ (P : Packet) (afc : BitVec 2) (s t : State) (a : AdaptationField), exec (.afParse P afc) s = .next t → t.out = .field a →
    a.byteCount = (if a.present then 1 + a.length.toNat else 0) ∧ a.byteCount ≤ 184 ∧
    (a.overrun = false → a.length ≠ 0 →
      consumed a + a.stuffingCount = a.length.toNat ∧ 1 ≤ a.stuffingCount ∧
      1 + consumed a + (a.stuffingCount - 1) = a.length.toNat) ∧
    (a.pcr.isSome = a.flags.pcrFlag ∧ a.opcr.isSome = a.flags.opcrFlag ∧ a.spliceByte.isSome = a.flags.splicingPointFlag ∧
      a.privateByte.isSome = a.flags.privateDataFlag ∧ a.ext.isSome = a.flags.extensionFlag) ∧
    (∀ x, a.ext = some x → x.ltw.isSome = x.ltwFlag ∧ x.piecewiseRate.isSome = x.piecewiseRateFlag ∧
      x.seamlessSplice.isSome = x.seamlessSpliceFlag)

/-- R89 (marked derived from R75): AF_PARSE reads at most P[4..27] and the argument afc, and writes no state but the value it
returns. -/
def Obligations.AfParseReads : Prop :=
  ∀ (P Q : Packet) (afc : BitVec 2) (s : State), AgreeOn P Q 4 28 →
    ∃ r, exec (.afParse P afc) s = .next { s with out := r } ∧ exec (.afParse Q afc) s = .next { s with out := r } ∧
      ∀ s', exec (.afParse P afc) s' = .next { s' with out := r }

/-- The forms AF.LENGTH and AF.FLAGS (R76, R78): the length begins a parse or raises, and the flag byte is taken where it stands,
at offset 5 of a field with L > 0. That a form which is not due does nothing is the model's choice (log entry 7). -/
def Obligations.LengthAndFlagForms : Prop :=
  (∀ (len : Byte) (s : State), len.toNat ≤ 183 → exec (.afLength len) s =
    .next { s with inst := { s.inst with parse := ⟨{ bareField true (1 + len.toNat) with length := len }, 5⟩ }, out := .noValue }) ∧
  (∀ (len : Byte) (s : State), 183 < len.toNat → exec (.afLength len) s =
    .next { s with inst := { s.inst with parse := ⟨bareField false 0, 4⟩ }, out := .raised (.truncatedAf len) }) ∧
  (∀ (f : AfFlags) (s : State), s.inst.parse.af.present = true → s.inst.parse.af.length ≠ 0 → s.inst.parse.cur = 5 →
    exec (.afFlags f) s =
      .next { s with inst := { s.inst with parse := ⟨{ s.inst.parse.af with flags := f }, 6⟩ }, out := .noValue }) ∧
  (∀ (f : AfFlags) (s : State), s.inst.parse.af.present = false ∨ s.inst.parse.af.length = 0 ∨ s.inst.parse.cur ≠ 5 →
    exec (.afFlags f) s = .next { s with out := .noValue })

/-- The forms AF.PCR, AF.OPCR, AF.SPLICE and AF.PRIVATE (R79 to R82): each stores its value and moves the cursor over its bytes
when its flag is set and it was not consumed yet, and otherwise does nothing (the model's choice, log entry 7). -/
def Obligations.SubfieldForms : Prop :=
  (∀ (v : Pcr) (s : State), exec (.afPcr v) s =
    .next { s with
      inst := { s.inst with parse :=
        if s.inst.parse.af.flags.pcrFlag = true ∧ s.inst.parse.af.pcr = none then
          ⟨{ s.inst.parse.af with pcr := some v }, s.inst.parse.cur + 6⟩ else s.inst.parse }
      out := .noValue }) ∧
  (∀ (v : Pcr) (s : State), exec (.afOpcr v) s =
    .next { s with
      inst := { s.inst with parse :=
        if s.inst.parse.af.flags.opcrFlag = true ∧ s.inst.parse.af.opcr = none then
          ⟨{ s.inst.parse.af with opcr := some v }, s.inst.parse.cur + 6⟩ else s.inst.parse }
      out := .noValue }) ∧
  (∀ (b : Byte) (s : State), exec (.afSplice b) s =
    .next { s with
      inst := { s.inst with parse :=
        if s.inst.parse.af.flags.splicingPointFlag = true ∧ s.inst.parse.af.spliceByte = none then
          ⟨{ s.inst.parse.af with spliceByte := some b }, s.inst.parse.cur + 1⟩ else s.inst.parse }
      out := .noValue }) ∧
  (∀ (b : Byte) (s : State), exec (.afPrivate b) s =
    .next { s with
      inst := { s.inst with parse :=
        if s.inst.parse.af.flags.privateDataFlag = true ∧ s.inst.parse.af.privateByte = none then
          ⟨{ s.inst.parse.af with privateByte := some b }, s.inst.parse.cur + 1⟩ else s.inst.parse }
      out := .noValue })

/-- The forms of the extension block (R55, R83): AF.EXT, then each of its three values when its own flag is set and it was not
consumed yet; otherwise they do nothing (the model's choice, log entry 7). ext_length never moves the cursor. -/
def Obligations.ExtensionForms : Prop :=
  (∀ (n : Byte) (l p q : Bool) (r : BitVec 5) (s : State), exec (.afExt n l p q r) s =
    .next { s with
      inst := { s.inst with parse :=
        if s.inst.parse.af.flags.extensionFlag = true ∧ s.inst.parse.af.ext = none then
          ⟨{ s.inst.parse.af with ext := some ⟨n, l, p, q, r, none, none, none⟩ }, s.inst.parse.cur + 2⟩ else s.inst.parse }
      out := .noValue }) ∧
  (∀ (s : State) (x : AfExtension), s.inst.parse.af.ext = some x →
    (∀ v, exec (.afExtLtw v) s =
      .next { s with
        inst := { s.inst with parse :=
          if x.ltwFlag = true ∧ x.ltw = none then
            ⟨{ s.inst.parse.af with ext := some { x with ltw := some v } }, s.inst.parse.cur + 2⟩ else s.inst.parse }
        out := .noValue }) ∧
    (∀ v, exec (.afExtPiecewise v) s =
      .next { s with
        inst := { s.inst with parse :=
          if x.piecewiseRateFlag = true ∧ x.piecewiseRate = none then
            ⟨{ s.inst.parse.af with ext := some { x with piecewiseRate := some v } }, s.inst.parse.cur + 3⟩
          else s.inst.parse }
        out := .noValue }) ∧
    (∀ v, exec (.afExtSeamless v) s =
      .next { s with
        inst := { s.inst with parse :=
          if x.seamlessSpliceFlag = true ∧ x.seamlessSplice = none then
            ⟨{ s.inst.parse.af with ext := some { x with seamlessSplice := some v } }, s.inst.parse.cur + 1⟩
          else s.inst.parse }
        out := .noValue })) ∧
  (∀ s : State, s.inst.parse.af.ext = none →
    (∀ v, exec (.afExtLtw v) s = .next { s with out := .noValue }) ∧
    (∀ v, exec (.afExtPiecewise v) s = .next { s with out := .noValue }) ∧
    (∀ v, exec (.afExtSeamless v) s = .next { s with out := .noValue }))

/-- The form AF.STUFFING (R84, R85): from the invariant of the parse, once the flag byte was read it ends the field with the count
and the overrun of what was consumed; before that it does nothing (the model's choice, log entry 7). -/
def Obligations.StuffingForm : Prop :=
  ∀ s : State, ParseInv s.inst.parse →
    (s.inst.parse.af.present = true → s.inst.parse.af.length ≠ 0 → 6 ≤ s.inst.parse.cur →
      let a : AdaptationField := { s.inst.parse.af with
        stuffingCount := s.inst.parse.af.length.toNat - consumed s.inst.parse.af
        overrun := decide (s.inst.parse.af.length.toNat < 1 + consumed s.inst.parse.af) }
      exec .afStuffing s =
        .next { s with inst := { s.inst with parse := ⟨a, s.inst.parse.cur⟩ }, out := .field a }) ∧
    (s.inst.parse.af.present = false ∨ s.inst.parse.af.length = 0 ∨ s.inst.parse.cur < 6 →
      exec .afStuffing s = .next { s with out := .noValue })

/-- AF_PARSE is its forms one after another: the eleven forms of R52 in their order, each with the bytes at the cursor it finds,
return the record AF_PARSE returns. That forms can be issued one by one is the model's choice (log entry 7). -/
def Obligations.AfParseIsTheWalkOfItsForms : Prop :=
  ∀ (P : Packet) (afc : BitVec 2) (s : State), afc = 2 ∨ afc = 3 → 0 < byte P 4 → byte P 4 ≤ 183 →
    ∃ t a, walk (fieldForms P) s = .next t ∧ t.out = .field a ∧ t.inst.parse.af = a ∧
      t.inst.parse.cur = 6 + opt P ∧ exec (.afParse P afc) s = .next { s with out := .field a }

/-! ### PESH_PARSE and its forms -/

/-- R90: the whole result of PESH_PARSE, for every packet and every natural offset. -/
def Obligations.PeshParseResult : Prop :=
  ∀ (P : Packet) (off : Nat) (s : State),
    exec (.peshParse P off) s = .next { s with out := pesResult (pes s.params P off) }

/-- R93: the header is extended exactly when a seventh byte exists, its top two bits are 10 and the stream id is not in the set;
otherwise it is basic and ends at off + 6, for a stream id of the set whatever the next byte is. -/
def Obligations.ChoiceOfPesForm : Prop :=
  (∀ (P : Packet) (off : Nat) (s t : State) (ph : PesHeader) (n : Nat),
    exec (.peshParse P off) s = .next t → t.out = .pesHeader ph n →
    (ph.extended = true ↔
      188 - off ≥ 7 ∧ byte P (off + 6) / 64 = 2 ∧ ph.streamId ∉ s.params.noExtStreamIds) ∧
    (ph.extended = false → n = off + 6)) ∧
  (∀ (P : Packet) (off : Nat) (s : State), off + 6 ≤ 188 →
    BitVec.ofNat 8 (byte P (off + 3)) ∈ s.params.noExtStreamIds ∨ byte P (off + 6) / 64 ≠ 2 ∨ off + 6 = 188 →
    exec (.peshParse P off) s = .next { s with out := .pesHeader (pesBasic P off) (off + 6) })

/-- R99 (marked derived from R90): PESH_PARSE reads at most P[off .. off+8], the offset and the parameter; it writes no state but
the value it returns; and every off > 182 raises TruncatedHeader. -/
def Obligations.PeshParseReads : Prop :=
  (∀ (P Q : Packet) (off : Nat) (s s' : State), AgreeOn P Q off (off + 9) → s.params.noExtStreamIds = s'.params.noExtStreamIds →
    ∃ r, exec (.peshParse P off) s = .next { s with out := r } ∧ exec (.peshParse Q off) s' = .next { s' with out := r }) ∧
  (∀ (P : Packet) (off : Nat) (s : State), 182 < off →
    exec (.peshParse P off) s = .next { s with out := .raised (.truncatedPesPrefix off) })

/-- The forms PESH.BASIC (R92) and PESH.EXT (R94 to R96) at the payload offset of the parse in progress (log entry 7). -/
def Obligations.PesForms : Prop :=
  ∀ (pre : PesPrefix) (x : PesExt) (s : State),
    let off := 4 + s.inst.parse.af.byteCount
    let basic : PesHeader := ⟨pre.startCode, decide (pre.startCode.toNat = 1), pre.streamId, pre.pesPacketLength, false,
      ⟨0, false, false, false, false, 0, false, false, false, false, false, false, 0⟩⟩
    (off ≤ 182 → exec (.peshBasic pre) s = .next { s with out := .pesHeader basic (off + 6) }) ∧
    (182 < off → exec (.peshBasic pre) s = .next { s with out := .raised (.truncatedPesPrefix off) } ∧
      exec (.peshExt pre x) s = .next { s with out := .raised (.truncatedPesPrefix off) }) ∧
    (pre.streamId ∉ s.params.noExtStreamIds → off + 9 + x.headerDataLength.toNat ≤ 188 →
      exec (.peshExt pre x) s =
        .next { s with out := .pesHeader { basic with extended := true, fields := x } (off + 9 + x.headerDataLength.toNat) }) ∧
    (pre.streamId ∉ s.params.noExtStreamIds → 179 < off → off < 182 →
      exec (.peshExt pre x) s = .next { s with out := .raised (.truncatedPesExt off) }) ∧
    (pre.streamId ∉ s.params.noExtStreamIds → off ≤ 179 → 188 < off + 9 + x.headerDataLength.toNat →
      exec (.peshExt pre x) s = .next { s with out := .raised (.truncatedPesData off x.headerDataLength.toNat) }) ∧
    (pre.streamId ∈ s.params.noExtStreamIds ∧ off ≤ 182 ∨ off = 182 →
      exec (.peshExt pre x) s = .next { s with out := .pesHeader basic (off + 6) })

/-! ### ABSORB -/

/-- R101: a packet of another PID returns UnexpectedPid and changes no state, whatever else it holds. -/
def Obligations.ForeignPid : Prop :=
  ∀ (P : Packet) (h : TsHeader) (a : AdaptationField) (s : State), s.inst.pidValid = true → h.pid ≠ s.inst.targetPid →
    exec (.absorb P h a) s = .next { s with out := .absorbed ⟨.unexpectedPid, false, none, none⟩ }

/-- R102 to R106: a start packet of the target PID emits the prior unit, clears the registers, and opens a unit with the sizes,
the first copy and the counter, whatever its afc and its counter are. -/
def Obligations.StartPacket : Prop :=
  ∀ (P : Packet) (h : TsHeader) (a : AdaptationField) (s : State) (ph : PesHeader) (newOffset : Nat),
    s.inst.pidValid = true → BufInv s.inst → h.pid = s.inst.targetPid → h.pusi = true →
    pes s.params P (4 + a.byteCount) = .ok (ph, newOffset) → Room s.params (idled s.inst) (188 - newOffset) →
    exec (.absorb P h a) s =
      .next { s with
        inst := started P h.cc (4 + a.byteCount) ph newOffset s.inst
        out := .absorbed ⟨.assemblingStarted, false, some ph, prior s.inst⟩ }

/-- R118: a start packet whose PES header does not fit emits the prior unit, leaves Idle with cleared registers, returns no PES
header, and the continuation packets that follow are lost. -/
def Obligations.TruncatedStartPacket : Prop :=
  ∀ (P : Packet) (h : TsHeader) (a : AdaptationField) (s : State) (cond : Condition),
    s.inst.pidValid = true → BufInv s.inst → h.pid = s.inst.targetPid → h.pusi = true →
    pes s.params P (4 + a.byteCount) = .error cond →
    let t : State := { s with
      inst := idled s.inst
      out := .absorbed ⟨.truncatedHeader, false, none, prior s.inst⟩ }
    exec (.absorb P h a) s = .next t ∧
    ∀ (P' : Packet) (h' : TsHeader) (a' : AdaptationField), h'.pid = s.inst.targetPid → h'.pusi = false →
      exec (.absorb P' h' a') t = .next { t with out := .absorbed ⟨.streamPacketLost, false, none, none⟩ }

/-- R108: a continuation packet of the target PID in Idle returns StreamPacketLost and changes nothing. -/
def Obligations.ContinuationInIdle : Prop :=
  ∀ (P : Packet) (h : TsHeader) (a : AdaptationField) (s : State), s.inst.pidValid = true → h.pid = s.inst.targetPid →
    h.pusi = false → s.inst.st = .idle →
    exec (.absorb P h a) s = .next { s with out := .absorbed ⟨.streamPacketLost, false, none, none⟩ }

/-- R109: a duplicate is skipped: AssemblingContinue with dup, no state change at all, and so any number of times. -/
def Obligations.Duplicate : Prop :=
  ∀ (P : Packet) (h : TsHeader) (a : AdaptationField) (s : State), s.inst.pidValid = true → h.pid = s.inst.targetPid →
    h.pusi = false → s.inst.st = .assembling → s.inst.lastCc = some h.cc →
    exec (.absorb P h a) s = .next { s with out := .absorbed ⟨.assemblingContinue, true, none, none⟩ }

/-- R110: a gap abandons the open unit: StreamPacketLost, Idle, every assembler register cleared, no emission, no append; and
the next start packet resumes normal operation. -/
def Obligations.ContinuityGap : Prop :=
  ∀ (P : Packet) (h : TsHeader) (a : AdaptationField) (s : State) (last : BitVec 4), s.inst.pidValid = true →
    h.pid = s.inst.targetPid → h.pusi = false → s.inst.st = .assembling → s.inst.lastCc = some last →
    h.cc.toNat ≠ last.toNat → h.cc.toNat ≠ (last.toNat + 1) % 16 →
    let t : State := { s with inst := idled s.inst, out := .absorbed ⟨.streamPacketLost, false, none, none⟩ }
    exec (.absorb P h a) s = .next t ∧
    ∀ (P' : Packet) (h' : TsHeader) (a' : AdaptationField) (ph : PesHeader) (newOffset : Nat), h'.pid = s.inst.targetPid →
      h'.pusi = true → pes s.params P' (4 + a'.byteCount) = .ok (ph, newOffset) →
      Room s.params (idled s.inst) (188 - newOffset) →
      exec (.absorb P' h' a') t =
        .next { t with
          inst := started P' h'.cc (4 + a'.byteCount) ph newOffset (idled s.inst)
          out := .absorbed ⟨.assemblingStarted, false, some ph, none⟩ }

/-- R111 and R113: an in-sequence continuation packet with payload appends it, moves the counter, and finishes the unit exactly
when the expected size is reached. -/
def Obligations.InSequenceWithPayload : Prop :=
  ∀ (P : Packet) (h : TsHeader) (a : AdaptationField) (s : State) (last : BitVec 4), s.inst.pidValid = true → BufInv s.inst →
    h.pid = s.inst.targetPid → h.pusi = false → s.inst.st = .assembling → s.inst.lastCc = some last →
    InSequence last h.cc → (h.afc = 1 ∨ h.afc = 3) → a.byteCount ≤ 184 → Room s.params s.inst (184 - a.byteCount) →
    let d := appended P h.cc (4 + a.byteCount) s.inst
    (Complete d → exec (.absorb P h a) s =
      .next { s with inst := idled s.inst, out := .absorbed ⟨.assemblingFinished, false, none, some (whole d)⟩ }) ∧
    (¬Complete d → exec (.absorb P h a) s =
      .next { s with inst := d, out := .absorbed ⟨.assemblingContinue, false, none, none⟩ })

/-- R112 and R113: an in-sequence continuation packet without payload appends nothing and leaves the counter, and the completion
test still runs. -/
def Obligations.InSequenceWithoutPayload : Prop :=
  ∀ (P : Packet) (h : TsHeader) (a : AdaptationField) (s : State) (last : BitVec 4), s.inst.pidValid = true → BufInv s.inst →
    h.pid = s.inst.targetPid → h.pusi = false → s.inst.st = .assembling → s.inst.lastCc = some last →
    InSequence last h.cc → (h.afc = 0 ∨ h.afc = 2) →
    (Complete s.inst → exec (.absorb P h a) s =
      .next { s with inst := idled s.inst, out := .absorbed ⟨.assemblingFinished, false, none, some (whole s.inst)⟩ }) ∧
    (¬Complete s.inst → exec (.absorb P h a) s =
      .next { s with out := .absorbed ⟨.assemblingContinue, false, none, none⟩ })

/-- R114: while `unbounded` is 1 no continuation packet finishes the unit or emits anything, and it stays unbounded as long as it
is open. -/
def Obligations.UnboundedNeverCompletes : Prop :=
  ∀ (P : Packet) (h : TsHeader) (a : AdaptationField) (s t : State), s.inst.unbounded = true → h.pusi = false →
    exec (.absorb P h a) s = .next t →
    ∃ r, t.out = .absorbed r ∧ r.emit = none ∧ r.status ≠ .assemblingFinished ∧ r.status ≠ .assemblingStarted ∧
      (t.inst.unbounded = true ∨ r.status = .streamPacketLost)

/-- R115: an ABSORB emits at most one unit, an emission is the bytes of `BUF` below `wr_off` with their number, status
AssemblingFinished means exactly pes_total − hdr_len bytes, and after an emission that opens no unit `wr_off` is 0. -/
def Obligations.Emissions : Prop :=
  ∀ (P : Packet) (h : TsHeader) (a : AdaptationField) (s t : State) (r : AbsorbResult) (e : Emission), s.inst.Inv s.params →
    exec (.absorb P h a) s = .next t → t.out = .absorbed r → r.emit = some e →
    e.data.length = e.len ∧ s.inst.st = .assembling ∧
    (r.status = .assemblingFinished → e.len + s.inst.hdrLen.toNat = s.inst.pesTotal.toNat ∧ t.inst = idled s.inst ∧
      content s.inst <+: e.data) ∧
    (r.status ≠ .assemblingFinished → h.pusi = true ∧ e = whole s.inst) ∧
    (r.status ≠ .assemblingStarted → t.inst.wrOff = 0 ∧ t.inst.st = .idle)

/-- What ABSORB ignores (R121): of the header it reads pid, pusi, cc and the payload bit, of the field the byte_count, of the PES
header the length and the size; whatever else differs, the result and the registers are the same. -/
def Obligations.IgnoredFields : Prop :=
  (∀ (P : Packet) (h h' : TsHeader) (a a' : AdaptationField) (s : State), h.pid = h'.pid → h.pusi = h'.pusi → h.cc = h'.cc →
    hasPayload h = hasPayload h' → a.byteCount = a'.byteCount → exec (.absorb P h a) s = exec (.absorb P h' a') s) ∧
  (∀ (P Q : Packet) (h : TsHeader) (a : AdaptationField) (s t t' : State) (ph ph' : PesHeader) (n : Nat), h.pusi = true →
    pes s.params P (4 + a.byteCount) = .ok (ph, n) → pes s.params Q (4 + a.byteCount) = .ok (ph', n) →
    ph.pesPacketLength = ph'.pesPacketLength → AgreeOn P Q n 188 →
    exec (.absorb P h a) s = .next t → exec (.absorb Q h a) s = .next t' → t.inst = t'.inst)

/-- R122, R168: an append that does not fit a finite capacity is the fault BufferOverflow, on a start packet and on an in-sequence
continuation packet. -/
def Obligations.Overflow : Prop :=
  ∀ (P : Packet) (h : TsHeader) (a : AdaptationField) (s : State) (cap : Nat), s.inst.pidValid = true → BufInv s.inst →
    h.pid = s.inst.targetPid → s.params.bufCap = some cap →
    (∀ ph newOffset, h.pusi = true → pes s.params P (4 + a.byteCount) = .ok (ph, newOffset) → cap < 188 - newOffset →
      exec (.absorb P h a) s = .fault .bufferOverflow) ∧
    (∀ last, h.pusi = false → s.inst.st = .assembling → s.inst.lastCc = some last → InSequence last h.cc →
      (h.afc = 1 ∨ h.afc = 3) → a.byteCount ≤ 184 → cap < s.inst.wrOff + (184 - a.byteCount) →
      exec (.absorb P h a) s = .fault .bufferOverflow)

/-- The frame of the buffer (R38; R124, marked derived from it): a payload is stored at `wr_off` upward, byte for byte, every
other address reads as before, and a step that neither starts nor ends a unit nor appends leaves every address alone. Said through
the read of one byte, for any buffer. -/
def Obligations.StoredBytes : Prop :=
  ∀ (P : Packet) (h : TsHeader) (a : AdaptationField) (s t : State), exec (.absorb P h a) s = .next t →
    h.pusi = false → t.inst.st = .assembling →
    (∀ addr, addr < s.inst.wrOff ∨ t.inst.wrOff ≤ addr → t.inst.buf.read addr = s.inst.buf.read addr) ∧
    (∀ k, s.inst.wrOff + k < t.inst.wrOff →
      (t.inst.buf.read (s.inst.wrOff + k)).map BitVec.toNat = some (byte P (4 + a.byteCount + k))) ∧
    (t.inst.wrOff = s.inst.wrOff ∨
      t.inst.wrOff = s.inst.wrOff + (184 - a.byteCount) ∧ hasPayload h = true ∧ t.inst.lastCc = some h.cc)

/-! ### Commands and STEP -/

/-- Before SET_PID (R172): STEP is refused, FLUSH returns none, RESET changes no register, and the three parse operations run. -/
def Obligations.BeforeSetPid : Prop :=
  ∀ s : State, s.inst.pidValid = false →
    (∀ P, exec (.step P) s = .refused .stepBeforeSetPid) ∧
    (s.inst.Inv s.params → exec .flush s = .next { s with out := .flushed none }) ∧
    (s.inst.Inv s.params → ∃ t, exec .reset s = .next t ∧ registers t.inst = registers s.inst) ∧
    (∀ P, ∃ r, exec (.tshParse P) s = .next { s with out := r }) ∧
    (∀ P afc, ∃ r, exec (.afParse P afc) s = .next { s with out := r }) ∧
    (∀ P off, ∃ r, exec (.peshParse P off) s = .next { s with out := r })

/-- The refusals of the model besides STEP's (log entry 11): the packet classes and ABSORB while `pid_valid` is 0, and ABSORB when
it would append from beyond the end of the packet (R38). -/
def Obligations.RefusedOperations : Prop :=
  (∀ (i : Instr) (s : State), s.inst.pidValid = false → isPacketClass i = true → exec i s = .refused .stepBeforeSetPid) ∧
  (∀ (P : Packet) (h : TsHeader) (a : AdaptationField) (s : State), s.inst.pidValid = false →
    exec (.absorb P h a) s = .refused .absorbBeforeSetPid) ∧
  (∀ (P : Packet) (h : TsHeader) (a : AdaptationField) (s : State) (last : BitVec 4), s.inst.pidValid = true →
    h.pid = s.inst.targetPid → h.pusi = false → s.inst.st = .assembling → s.inst.lastCc = some last → InSequence last h.cc →
    hasPayload h = true → 184 < a.byteCount → exec (.absorb P h a) s = .refused .appendPastPacket)

/-- R127: SET_PID sets the PID and drops a unit in progress without emission, for every p and from every state. -/
def Obligations.SetPid : Prop :=
  ∀ (p : BitVec 13) (s : State),
    exec (.setPid p) s =
      .next { s with inst := { idled s.inst with targetPid := p, pidValid := true }, out := .noValue }

/-- R128: FLUSH returns the open unit as it stands and leaves Idle, and in Idle returns none and changes nothing. -/
def Obligations.Flush : Prop :=
  ∀ s : State,
    (s.inst.st = .assembling → BufInv s.inst →
      exec .flush s = .next { s with inst := idled s.inst, out := .flushed (some (whole s.inst)) }) ∧
    (s.inst.st = .idle → exec .flush s = .next { s with out := .flushed none })

/-- R129: RESET takes every register to its reset value, drops a unit without emission and returns nothing, from every state.
`target_pid` is unspecified after it: nothing is said of it. That the parse in progress is reset too, and that drawing the
unspecified value counts, is the model's (log entries 4 and 15). -/
def Obligations.ResetCommand : Prop :=
  ∀ s : State, ∃ (pid : BitVec 13) (n : Nat),
    exec .reset s =
      .next { s with
        inst := ⟨false, pid, .idle, none, 0, false, 0, 0, [], ⟨bareField false 0, 4⟩⟩
        out := .noValue
        free := n }

/-- R126: STEP is TSH_PARSE, then AF_PARSE, then ABSORB, each as the operation of that name runs; the first condition ends it with
no state change, and what ABSORB does to the state and returns is what STEP does and returns. -/
def Obligations.StepIsThePipeline : Prop :=
  ∀ (P : Packet) (s : State),
    (s.inst.pidValid = false → exec (.step P) s = .refused .stepBeforeSetPid) ∧
    (s.inst.pidValid = true →
      (∀ cond, exec (.tshParse P) s = .next { s with out := .raised cond } →
        exec (.step P) s = .next { s with out := .output ⟨.invalidSyncByte, false, none, none, none, none⟩ }) ∧
      (∀ h, exec (.tshParse P) s = .next { s with out := .header h } →
        (∀ cond, exec (.afParse P h.afc) s = .next { s with out := .raised cond } →
          exec (.step P) s = .next { s with out := .output ⟨.truncatedHeader, false, some h, none, none, none⟩ }) ∧
        (∀ a, exec (.afParse P h.afc) s = .next { s with out := .field a } →
          (∀ t r, exec (.absorb P h a) s = .next t → t.out = .absorbed r →
            exec (.step P) s = .next { t with out := .output ⟨r.status, r.dup, some h, some a, r.pesh, r.emit⟩ }) ∧
          (∀ e, exec (.absorb P h a) s = .fault e → exec (.step P) s = .fault e))))

/-- R28: which optional fields of a STEP's output are present. -/
def Obligations.OutputFields : Prop :=
  ∀ (P : Packet) (s t : State), exec (.step P) s = .next t →
    ∃ o, t.out = .output o ∧ (o.tsh.isSome = true ↔ byte P 0 = 0x47) ∧
      (o.af.isSome = true ↔ o.tsh.isSome = true ∧ (field P (header P).afc).isSome = true) ∧
      (o.pesh.isSome = true ↔ o.status = .assemblingStarted) ∧
      (o.emit.isSome = true ↔
        o.status = .assemblingFinished ∨
        s.inst.st = .assembling ∧ (o.status = .assemblingStarted ∨ o.status = .truncatedHeader ∧ o.af.isSome = true)) ∧
      (o.dup = true → o.status = .assemblingContinue ∧ t = { s with out := t.out })

/-- R150, R158: the state after a STEP that returned a condition. InvalidSyncByte, TruncatedHeader from the adaptation field,
UnexpectedPid, and StreamPacketLost in Idle leave it as it was; the other two leave Idle with cleared registers. -/
def Obligations.StateAfterACondition : Prop :=
  ∀ (P : Packet) (s t : State) (o : Output), s.inst.Inv s.params → exec (.step P) s = .next t → t.out = .output o →
    (o.status = .invalidSyncByte → byte P 0 ≠ 0x47 ∧ t = { s with out := t.out } ∧
      o.tsh = none ∧ o.af = none ∧ o.pesh = none ∧ o.emit = none) ∧
    (o.status = .truncatedHeader → o.af = none → 183 < byte P 4 ∧ t = { s with out := t.out } ∧ o.tsh = some (header P) ∧
      o.pesh = none ∧ o.emit = none) ∧
    (o.status = .truncatedHeader → o.af ≠ none → t = { s with inst := idled s.inst, out := t.out } ∧ o.pesh = none ∧
      o.emit = prior s.inst) ∧
    (o.status = .unexpectedPid → (header P).pid ≠ s.inst.targetPid ∧ t = { s with out := t.out } ∧ o.pesh = none ∧
      o.emit = none) ∧
    (o.status = .streamPacketLost → t = { s with inst := idled s.inst, out := t.out } ∧ o.pesh = none ∧ o.emit = none ∧
      (s.inst.st = .idle → t = { s with out := t.out }))

/-- Every STEP returns, with the state and the output the transition table (R119, marked derived from R100 to R118)
gives after the order of tests (R157), from every state that meets the invariants, once the PID is set and there is room for one
packet. -/
def Obligations.StepFollowsTheTransitionTable : Prop :=
  ∀ (P : Packet) (s : State), s.inst.pidValid = true → s.inst.Inv s.params → Room s.params s.inst 184 →
    exec (.step P) s =
      .next { s with inst := (table s.params P s.inst).1, out := .output (table s.params P s.inst).2 }

/-- R131 to R134 (marked derived from R126 and R103 to R118): what each start packet class does, on every operand and state:
without an adaptation field the PES header stands at 4, with one after it. -/
def Obligations.StartClasses : Prop :=
  ∀ (f : PktFields) (body : Body),
    let P (afc : BitVec 2) : Packet := packetOf (classHeader true afc f) body
    StartClassRuns (.pktSRsv f body) (P 0) (classHeader true 0 f) (some (bareField false 0)) ∧
    StartClassRuns (.pktSPay f body) (P 1) (classHeader true 1 f) (some (bareField false 0)) ∧
    StartClassRuns (.pktSAf f body) (P 2) (classHeader true 2 f) (field (P 2) 2) ∧
    StartClassRuns (.pktSAfpay f body) (P 3) (classHeader true 3 f) (field (P 3) 3)

/-- R135 to R138 (marked derived from R126 and R107 to R113): what each continuation packet class does, on every operand and
state: afc 0 and 2 have no payload to append, afc 1 has one at 4 and afc 3 one after the field. -/
def Obligations.ContinuationClasses : Prop :=
  ∀ (f : PktFields) (body : Body),
    let P (afc : BitVec 2) : Packet := packetOf (classHeader false afc f) body
    ContinuationClassRuns (.pktCRsv f body) (P 0) (classHeader false 0 f) (some (bareField false 0)) ∧
    ContinuationClassRuns (.pktCPay f body) (P 1) (classHeader false 1 f) (some (bareField false 0)) ∧
    ContinuationClassRuns (.pktCAf f body) (P 2) (classHeader false 2 f) (field (P 2) 2) ∧
    ContinuationClassRuns (.pktCAfpay f body) (P 3) (classHeader false 3 f) (field (P 3) 3)

/-- R139 (marked derived from R126 and R70): a packet whose sync byte is not 0x47 gives InvalidSyncByte with nothing else and no
register change, whatever the instance holds. -/
def Obligations.BadSyncClass : Prop :=
  ∀ (h : TsHeader) (body : Body) (s : State), s.inst.pidValid = true → h.syncByte ≠ 0x47 →
    exec (.pktBadsync h body) s = .next { s with out := .output ⟨.invalidSyncByte, false, none, none, none, none⟩ }

/-- Each of the nine packet classes does what STEP does with a packet of the class (R131 to R139): for every 188 bytes. -/
def Obligations.ClassesRunAsStep : Prop :=
  ∀ (p : Params) (core : Nat) (bytes : List Byte) (i : Instr), decode p ⟨core, .packet, bytes⟩ = .ok i →
    ∃ P : Packet, P.toList = bytes ∧ decode p ⟨core, .command, 0 :: bytes⟩ = .ok (.step P) ∧
      ∀ s : State, exec i s = exec (.step P) s
end

