-- ==== Sys2Proof/Laws/State.lean ====
section
/-! SUPPORT. One lemma per field per update of a core instance and of the machine, true by unfolding, so that no later proof
unfolds an update. -/

namespace Sys2Proof.Machine

section Idle
variable (c : Inst)

@[simp] theorem toIdle_pidValid : (toIdle c).pidValid = c.pidValid := rfl
@[simp] theorem toIdle_targetPid : (toIdle c).targetPid = c.targetPid := rfl
@[simp] theorem toIdle_st : (toIdle c).st = .idle := rfl
@[simp] theorem toIdle_lastCc : (toIdle c).lastCc = none := rfl
@[simp] theorem toIdle_pesTotal : (toIdle c).pesTotal = 0 := rfl
@[simp] theorem toIdle_unbounded : (toIdle c).unbounded = false := rfl
@[simp] theorem toIdle_hdrLen : (toIdle c).hdrLen = 0 := rfl
@[simp] theorem toIdle_wrOff : (toIdle c).wrOff = 0 := rfl
@[simp] theorem toIdle_buf : (toIdle c).buf = [] := rfl
@[simp] theorem toIdle_parse : (toIdle c).parse = c.parse := rfl
@[simp] theorem toIdle_toIdle : toIdle (toIdle c) = toIdle c := rfl

end Idle

section Reset

@[simp] theorem instReset_pidValid : Inst.reset.pidValid = false := rfl
@[simp] theorem instReset_st : Inst.reset.st = .idle := rfl
@[simp] theorem instReset_lastCc : Inst.reset.lastCc = none := rfl
@[simp] theorem instReset_pesTotal : Inst.reset.pesTotal = 0 := rfl
@[simp] theorem instReset_unbounded : Inst.reset.unbounded = false := rfl
@[simp] theorem instReset_hdrLen : Inst.reset.hdrLen = 0 := rfl
@[simp] theorem instReset_wrOff : Inst.reset.wrOff = 0 := rfl
@[simp] theorem instReset_buf : Inst.reset.buf = [] := rfl
@[simp] theorem instReset_parse : Inst.reset.parse = ParseCtx.init := rfl

end Reset

section Ending
variable (s : State) (r : Result) (cond : Condition) (w : ParseCtx)

@[simp] theorem finish_eq : finish r s = .next { s with out := r } := rfl
@[simp] theorem raiseCondition_eq : raiseCondition cond s = .next { s with out := .raised cond } := rfl
@[simp] theorem goOnParse_eq :
    goOnParse w s = .next { s with inst := { s.inst with parse := w }, out := .noValue } := rfl
@[simp] theorem endParse_eq :
    endParse w s = .next { s with inst := { s.inst with parse := w }, out := .field w.af } := rfl

end Ending

section Outcomes
variable {α β : Type} (f : α → Host.Outcome β Fault Refusal)

@[simp] theorem andThen_next (a : α) : andThen (.next a) f = f a := rfl
@[simp] theorem andThen_fault (e : Fault) : andThen (.fault e : Host.Outcome α Fault Refusal) f = .fault e := rfl
@[simp] theorem andThen_refused (r : Refusal) : andThen (.refused r : Host.Outcome α Fault Refusal) f = .refused r := rfl

/-- What going on from an outcome to a next value means. -/
theorem andThen_eq_next {o : Host.Outcome α Fault Refusal} {b : β} :
    andThen o f = .next b ↔ ∃ a, o = .next a ∧ f a = .next b := by
  cases o <;> simp

end Outcomes

section Instances
variable (s : State)

theorem insts_eq : s.insts = s.below ++ s.inst :: s.above := rfl

theorem length_insts : s.insts.length = s.below.length + 1 + s.above.length := by
  simp [State.insts]; omega

theorem inst_mem_insts : s.inst ∈ s.insts := by simp [State.insts]

/-- Choosing an instance: it must exist, and then the instances are the same ones in the same order. -/
theorem select_eq_some {k : Nat} {t : State} :
    s.select k = some t ↔
      ∃ c, s.insts[k]? = some c ∧ t = { s with below := s.insts.take k, inst := c, above := s.insts.drop (k + 1) } := by
  unfold State.select
  cases hd : s.insts.drop k with
  | nil =>
    have hk : s.insts[k]? = none := by
      have := List.drop_eq_nil_iff.mp hd
      simpa using this
    simp [hk]
  | cons c rest =>
    have hk : s.insts[k]? = some c := by
      rw [← List.head?_drop, hd]; rfl
    have hr : s.insts.drop (k + 1) = rest := by
      rw [← List.tail_drop, hd]; rfl
    simp [hk, hr, eq_comm]

theorem insts_of_select {k : Nat} {t : State} (h : s.select k = some t) :
    t.insts = s.insts ∧ t.below.length = k ∧ s.insts[k]? = some t.inst := by
  obtain ⟨c, hc, rfl⟩ := (select_eq_some s).mp h
  have hk : k < s.insts.length := by
    by_contra hlt
    rw [List.getElem?_eq_none (by omega)] at hc
    exact absurd hc (by simp)
  refine ⟨?_, by simp; omega, hc⟩
  have hg : s.insts[k] = c := by simpa [List.getElem?_eq_getElem hk] using hc
  calc s.insts.take k ++ c :: s.insts.drop (k + 1)
      = s.insts.take k ++ s.insts.drop k := by rw [← hg, List.getElem_cons_drop]
    _ = s.insts := List.take_append_drop k s.insts

end Instances

end Sys2Proof.Machine
end

