-- ==== Sys2Proof/Laws/Memory.lean ====
section
/-! SUPPORT. The laws of the buffer space: read after write, the canonical form, and what an append and an emission do to a
buffer that holds exactly the addresses below `wr_off`. -/

namespace Sys2Proof.Machine

theorem read_write_same (m : Memory) (a : Nat) (b : Byte) : (m.write a b).read a = some b := by
  induction m with
  | nil => simp [Memory.write, Memory.read]
  | cons x m ih =>
    obtain ⟨k, v⟩ := x
    simp only [Memory.write]
    split
    · simp [Memory.read]
    · split
      · simp [Memory.read]
      · simp only [Memory.read]
        rw [if_neg (by omega)]
        exact ih

theorem read_write_ne (m : Memory) (a a' : Nat) (b : Byte) (h : a' ≠ a) : (m.write a b).read a' = m.read a' := by
  induction m with
  | nil => simp [Memory.write, Memory.read, h.symm]
  | cons x m ih =>
    obtain ⟨k, v⟩ := x
    simp only [Memory.write]
    split
    · simp [Memory.read, h.symm]
    · split
      · subst_vars; simp [Memory.read, h.symm]
      · simp only [Memory.read, ih]

/-- Every entry of a list in canonical form whose first address is over `j` is over `j`. -/
theorem wf_cons (j : Nat) (b : Byte) (m : Memory) :
    Memory.wf ((j, b) :: m) = true ↔ (∀ x ∈ m.head?, j < x.1) ∧ m.wf = true := by
  cases m with
  | nil => simp [Memory.wf]
  | cons x m => obtain ⟨k, v⟩ := x; simp [Memory.wf]

theorem head_write (m : Memory) (a : Nat) (b : Byte) (j : Nat) (hj : j < a) (hm : ∀ x ∈ m.head?, j < x.1) :
    ∀ x ∈ (m.write a b).head?, j < x.1 := by
  cases m with
  | nil => simp [Memory.write, hj]
  | cons x m =>
    obtain ⟨k, v⟩ := x
    have hk : j < k := by simpa using hm
    simp only [Memory.write]
    split
    · simp [hj]
    · split <;> simp [hj, hk]

/-- A write keeps the canonical form. -/
theorem wf_write (m : Memory) (a : Nat) (b : Byte) (h : m.wf = true) : (m.write a b).wf = true := by
  induction m with
  | nil => simp [Memory.write, Memory.wf]
  | cons x m ih =>
    obtain ⟨k, v⟩ := x
    obtain ⟨hk, hm⟩ := (wf_cons k v m).mp h
    simp only [Memory.write]
    split
    · rw [wf_cons]; simp_all
    · split
      · subst_vars; exact (wf_cons _ _ _).mpr ⟨hk, hm⟩
      · exact (wf_cons _ _ _).mpr ⟨head_write m a b k (by omega) hk, ih hm⟩

/-- A run of writes keeps the canonical form. -/
theorem wf_writeBytes (bs : List Byte) (m : Memory) (a : Nat) (h : m.wf = true) : (m.writeBytes a bs).wf = true := by
  induction bs generalizing m a with
  | nil => simpa [Memory.writeBytes] using h
  | cons b bs ih => exact ih _ _ (wf_write m a b h)

/-- A run of writes leaves every address outside it alone. -/
theorem read_writeBytes_outside (bs : List Byte) (m : Memory) (a a' : Nat) (h : a' < a ∨ a + bs.length ≤ a') :
    (m.writeBytes a bs).read a' = m.read a' := by
  induction bs generalizing m a with
  | nil => rfl
  | cons b bs ih =>
    simp only [List.length_cons] at h
    rw [Memory.writeBytes, ih _ _ (by omega), read_write_ne _ _ _ _ (by omega)]

/-- A run of writes puts its bytes where it says. -/
theorem read_writeBytes_inside (bs : List Byte) (m : Memory) (a k : Nat) (h : k < bs.length) :
    (m.writeBytes a bs).read (a + k) = bs[k]? := by
  induction bs generalizing m a k with
  | nil => simp at h
  | cons b bs ih =>
    rw [Memory.writeBytes]
    cases k with
    | zero => rw [read_writeBytes_outside _ _ _ _ (by omega)]; simp [read_write_same]
    | succ k =>
      have := ih (m.write a b) (a + 1) k (by simpa using h)
      rw [show a + (k + 1) = a + 1 + k by omega, this]; simp

/-! ### The form of the accumulation buffer -/

@[simp] theorem cells_nil (a : Nat) : cells a [] = [] := rfl
@[simp] theorem cells_cons (a : Nat) (b : Byte) (bs : List Byte) : cells a (b :: bs) = (a, b) :: cells (a + 1) bs := rfl

theorem map_fst_cells (bs : List Byte) (a : Nat) : (cells a bs).map Prod.fst = List.range' a bs.length := by
  induction bs generalizing a with
  | nil => rfl
  | cons b bs ih => simp [ih, List.range'_succ]

@[simp] theorem map_snd_cells (bs : List Byte) (a : Nat) : (cells a bs).map Prod.snd = bs := by
  induction bs generalizing a with
  | nil => rfl
  | cons b bs ih => simp [ih]

theorem cells_append (bs cs : List Byte) (a : Nat) : cells a (bs ++ cs) = cells a bs ++ cells (a + bs.length) cs := by
  induction bs generalizing a with
  | nil => simp
  | cons b bs ih => simp [ih, Nat.add_assoc, Nat.add_comm 1]

/-- A buffer whose addresses are a run is the cells of its bytes. -/
theorem eq_cells_of_addresses (m : Memory) (a n : Nat) (h : m.map Prod.fst = List.range' a n) :
    m = cells a (m.map Prod.snd) := by
  induction m generalizing a n with
  | nil => rfl
  | cons x m ih =>
    obtain ⟨k, v⟩ := x
    cases n with
    | zero => simp at h
    | succ n =>
      simp only [List.map_cons, List.range'_succ, List.cons.injEq] at h
      obtain ⟨rfl, h⟩ := h
      simp only [List.map_cons, cells_cons, List.cons.injEq, true_and]
      exact ih _ _ h

/-- A buffer in the form of `BufInv` is the cells of its content, `wr_off` many. -/
theorem buf_eq_cells {c : Inst} (h : BufInv c) : c.buf = cells 0 (content c) ∧ (content c).length = c.wrOff := by
  refine ⟨eq_cells_of_addresses c.buf 0 c.wrOff (by rw [h, List.range_eq_range']), ?_⟩
  have := congrArg List.length h
  simpa [content] using this

theorem bufInv_of_cells {c : Inst} (bs : List Byte) (hb : c.buf = cells 0 bs) (hw : c.wrOff = bs.length) : BufInv c := by
  simp only [BufInv, hb, map_fst_cells, hw, List.range_eq_range']

theorem write_past_end (bs : List Byte) (a : Nat) (b : Byte) :
    (cells a bs).write (a + bs.length) b = cells a (bs ++ [b]) := by
  induction bs generalizing a with
  | nil => simp [Memory.write]
  | cons c bs ih =>
    simp only [cells_cons, List.length_cons, Memory.write, List.cons_append]
    rw [if_neg (by omega), if_neg (by omega), show a + (bs.length + 1) = a + 1 + bs.length by omega, ih]

/-- Appending at the end of the run gives the run of both. -/
theorem writeBytes_at_end (cs bs : List Byte) (a : Nat) :
    (cells a bs).writeBytes (a + bs.length) cs = cells a (bs ++ cs) := by
  induction cs generalizing bs with
  | nil => simp [Memory.writeBytes]
  | cons c cs ih =>
    rw [Memory.writeBytes, write_past_end]
    have := ih (bs ++ [c])
    simpa [Nat.add_assoc] using this

theorem read_before_cells (bs : List Byte) (a j : Nat) (h : j < a) : (cells a bs).read j = none := by
  induction bs generalizing a with
  | nil => rfl
  | cons b bs ih => simp only [cells_cons, Memory.read]; rw [if_neg (by omega)]; exact ih _ (by omega)

theorem read_cells (bs : List Byte) (a k : Nat) : (cells a bs).read (a + k) = bs[k]? := by
  induction bs generalizing a k with
  | nil => simp [Memory.read]
  | cons b bs ih =>
    simp only [cells_cons, Memory.read]
    cases k with
    | zero => simp
    | succ k => rw [if_neg (by omega), show a + (k + 1) = a + 1 + k by omega, ih]; simp

/-- Reading a run of consecutive bytes of the cells of a list. -/
theorem slice_cells (bs : List Byte) (a k n : Nat) (h : k + n = bs.length) :
    (cells a bs).slice (a + k) n = .ok (bs.drop k) := by
  induction n generalizing k with
  | zero => simp [Memory.slice, List.drop_eq_nil_of_le (show bs.length ≤ k by omega)]
  | succ n ih =>
    have hk : k < bs.length := by omega
    have := ih (k + 1) (by omega)
    simp only [Memory.slice, read_cells, List.getElem?_eq_getElem hk, ← Nat.add_assoc] at this ⊢
    rw [this, List.drop_eq_getElem_cons hk]

/-- The canonical form follows from the form of the accumulation buffer. -/
theorem wf_cells (bs : List Byte) (a : Nat) : (cells a bs).wf = true := by
  induction bs generalizing a with
  | nil => rfl
  | cons b bs ih =>
    rw [cells_cons, wf_cons]
    refine ⟨?_, ih _⟩
    cases bs <;> simp

theorem wf_of_bufInv {c : Inst} (h : BufInv c) : c.buf.wf = true := by rw [(buf_eq_cells h).1]; exact wf_cells _ _

/-- The buffer of the reset state is in canonical form. -/
theorem wf_reset : State.reset.inst.buf.wf = true := rfl

end Sys2Proof.Machine
end

