-- ==== Sys2Proof/Laws/Ops.lean ====
section
/-! SUPPORT. One lemma per shared operation that says everything it can do, and the shape of the values they compute. -/

namespace Sys2Proof.Machine

/-! ### Packets -/

@[simp] theorem length_pktFrom (P : Packet) (start : Nat) : (pktFrom P start).length = 188 - start := by
  simp [pktFrom]

theorem pktByte_of_lt (P : Packet) (i : Nat) (h : i < 188) : pktByte P i = P[i] := by simp [pktByte, h]

/-- The bytes of a copy are the packet's bytes from its start on. -/
theorem getElem?_pktFrom (P : Packet) (start k : Nat) (h : start + k < 188) :
    (pktFrom P start)[k]? = some (pktByte P (start + k)) := by
  simp [pktFrom, pktByte, h, List.getElem?_drop]

/-- The first byte of a packet made of a header is its sync byte. -/
theorem pktByte_packetOf_zero (h : TsHeader) (body : Body) : pktByte (packetOf h body) 0 = h.syncByte := by
  simp [pktByte, packetOf, bytesOfHeader]

theorem pktByte_packetOf_body (h : TsHeader) (body : Body) (i : Nat) (hi : i < 184) :
    pktByte (packetOf h body) (4 + i) = body[i] := by
  rw [pktByte_of_lt _ _ (by omega)]
  have h' : (bytesOfHeader h).length = 4 := rfl
  have : (bytesOfHeader h ++ body.toList)[4 + i]? = body.toList[i]? := by
    rw [List.getElem?_append_right (by omega), h', Nat.add_sub_cancel_left]
  rw [List.getElem?_eq_getElem (by rw [List.length_append, h', Vector.length_toList]; omega),
    List.getElem?_eq_getElem (by rw [Vector.length_toList]; omega)] at this
  exact Option.some.inj this

/-! ### The append -/

/-- What a buffer append can do. -/
theorem bufAppend_eq_next {p : Params} {P : Packet} {start : Nat} {c d : Inst} :
    bufAppend p P start c = .next d ↔
      start ≤ 188 ∧ fits p.bufCap (c.wrOff + (188 - start)) = true ∧
        d = { c with buf := c.buf.writeBytes c.wrOff (pktFrom P start), wrOff := c.wrOff + (188 - start) } := by
  unfold bufAppend
  split
  · rename_i h
    simp only [reduceCtorEq, false_iff, not_and]
    omega
  · rename_i h
    have hs : start ≤ 188 := by omega
    cases hf : fits p.bufCap (c.wrOff + (188 - start)) with
    | true => simp only [if_true, Host.Outcome.next.injEq, hs, true_and]; exact eq_comm
    | false => simp

/-- An append to a buffer in its form, with room for it, puts the copied bytes after the content. -/
theorem bufAppend_eq {p : Params} {P : Packet} {start : Nat} {c : Inst} (hb : BufInv c) (hs : start ≤ 188)
    (hf : fits p.bufCap (c.wrOff + (188 - start)) = true) :
    bufAppend p P start c =
      .next { c with buf := cells 0 (content c ++ pktFrom P start), wrOff := c.wrOff + (188 - start) } := by
  obtain ⟨hbuf, hlen⟩ := buf_eq_cells hb
  rw [bufAppend_eq_next]
  refine ⟨hs, hf, ?_⟩
  have h := writeBytes_at_end (pktFrom P start) (content c) 0
  rw [Nat.zero_add, hlen, ← hbuf] at h
  rw [h]

/-- An append past a finite capacity is the fault of R168. -/
theorem bufAppend_overflow {p : Params} {P : Packet} {start : Nat} {c : Inst} (hs : start ≤ 188)
    (hf : fits p.bufCap (c.wrOff + (188 - start)) = false) : bufAppend p P start c = .fault .bufferOverflow := by
  simp [bufAppend, hf]; omega

theorem fits_mono {cap : Option Nat} {m n : Nat} (h : m ≤ n) (hn : fits cap n = true) : fits cap m = true := by
  cases cap with
  | none => rfl
  | some k => simp only [fits, decide_eq_true_eq] at hn ⊢; omega

/-! ### The emission -/

/-- The emission of a buffer in its form is its content. -/
theorem emission_eq {c : Inst} (hb : BufInv c) : emission c = .next ⟨content c, c.wrOff⟩ := by
  obtain ⟨hbuf, hlen⟩ := buf_eq_cells hb
  have h : c.buf.slice 0 c.wrOff = .ok (content c) := by
    have := slice_cells (content c) 0 0 c.wrOff (by omega)
    rw [← hbuf] at this
    simpa using this
  simp [emission, h]

/-- The length of an emission is what it says. -/
theorem length_slice {m : Memory} {a n : Nat} {bs : List Byte} (h : m.slice a n = .ok bs) : bs.length = n := by
  induction n generalizing a bs with
  | zero => simp [Memory.slice] at h; simp [← h]
  | succ n ih =>
    simp only [Memory.slice] at h
    split at h
    · simp at h
    · split at h
      · rename_i hs
        simp only [Except.ok.injEq] at h
        simp [← h, ih hs]
      · simp at h

theorem emission_eq_next {c : Inst} {e : Emission} (h : emission c = .next e) :
    c.buf.slice 0 c.wrOff = .ok e.data ∧ e.len = c.wrOff ∧ e.data.length = e.len := by
  unfold emission at h
  split at h
  · rename_i hs
    simp only [Host.Outcome.next.injEq] at h
    subst h
    exact ⟨hs, rfl, length_slice hs⟩
  · simp at h

theorem implicitFinish_eq {c : Inst} (hb : BufInv c) :
    implicitFinish c = .next (if c.st = .assembling then some ⟨content c, c.wrOff⟩ else none) := by
  cases h : c.st <;> simp [implicitFinish, h, emission_eq hb]

end Sys2Proof.Machine
end

