-- ==== Sys2Proof/Laws/Parse.lean ====
section
/-! SUPPORT. What the three parse operations can answer. -/

namespace Sys2Proof.Machine

/-! ### TSH_PARSE -/

theorem parseHeader_eq_ok {P : Packet} {h : TsHeader} :
    parseHeader P = .ok h ↔ pktByte P 0 = Config.syncByte ∧ h = headerAt P := by
  unfold parseHeader; split <;> simp_all [eq_comm]

theorem parseHeader_eq_error {P : Packet} {cond : Condition} :
    parseHeader P = .error cond ↔ pktByte P 0 ≠ Config.syncByte ∧ cond = .invalidSyncByte (pktByte P 0) := by
  unfold parseHeader; split <;> simp_all [eq_comm]

/-! ### AF_PARSE -/

theorem lengthForm_eq_ok {len : Byte} {w : ParseCtx} :
    lengthForm len = .ok w ↔ len.toNat ≤ 183 ∧
      w = ⟨{ AdaptationField.absent with present := true, length := len, byteCount := 1 + len.toNat }, 5⟩ := by
  unfold lengthForm Config.afLenMax; split <;> simp_all [eq_comm]

theorem lengthForm_eq_error {len : Byte} {cond : Condition} :
    lengthForm len = .error cond ↔ 183 < len.toNat ∧ cond = .truncatedAf len := by
  unfold lengthForm Config.afLenMax; split <;> simp_all [eq_comm]

section Forms
variable (w : ParseCtx)

/-! The forms after the length byte never change presence, length or byte_count. -/

@[simp] theorem flagsForm_byteCount (f : AfFlags) : (flagsForm f w).af.byteCount = w.af.byteCount := by
  unfold flagsForm; split <;> rfl
@[simp] theorem pcrForm_byteCount (v : Pcr) : (pcrForm v w).af.byteCount = w.af.byteCount := by
  unfold pcrForm; split <;> rfl
@[simp] theorem opcrForm_byteCount (v : Pcr) : (opcrForm v w).af.byteCount = w.af.byteCount := by
  unfold opcrForm; split <;> rfl
@[simp] theorem spliceForm_byteCount (b : Byte) : (spliceForm b w).af.byteCount = w.af.byteCount := by
  unfold spliceForm; split <;> rfl
@[simp] theorem privateForm_byteCount (b : Byte) : (privateForm b w).af.byteCount = w.af.byteCount := by
  unfold privateForm; split <;> rfl
@[simp] theorem extForm_byteCount (n : Byte) (l p s : Bool) (r : BitVec 5) :
    (extForm n l p s r w).af.byteCount = w.af.byteCount := by
  unfold extForm; split <;> rfl
@[simp] theorem extLtwForm_byteCount (v : BitVec 16) : (extLtwForm v w).af.byteCount = w.af.byteCount := by
  unfold extLtwForm; split
  · split <;> rfl
  · rfl
@[simp] theorem extPiecewiseForm_byteCount (v : BitVec 24) : (extPiecewiseForm v w).af.byteCount = w.af.byteCount := by
  unfold extPiecewiseForm; split
  · split <;> rfl
  · rfl
@[simp] theorem extSeamlessForm_byteCount (v : Byte) : (extSeamlessForm v w).af.byteCount = w.af.byteCount := by
  unfold extSeamlessForm; split
  · split <;> rfl
  · rfl
@[simp] theorem stuffingForm_byteCount : (stuffingForm w).af.byteCount = w.af.byteCount := rfl

@[simp] theorem parseSubfields_byteCount (P : Packet) : (parseSubfields P w).af.byteCount = w.af.byteCount := by
  simp [parseSubfields, parseExtension]

end Forms

/-- The byte_count of any parsed field (R76, R86, R87). -/
theorem parseField_byteCount {P : Packet} {afc : BitVec 2} {a : AdaptationField} (h : parseField P afc = .ok a) :
    a.byteCount = (if afc = 0 ∨ afc = 1 then 0 else 1 + (pktByte P 4).toNat) ∧ a.byteCount ≤ 184 := by
  unfold parseField at h
  split at h
  · rename_i hafc
    simp only [Except.ok.injEq] at h
    subst h
    rw [if_pos hafc]
    exact ⟨rfl, Nat.zero_le _⟩
  · rename_i hafc
    rw [if_neg hafc]
    split at h
    · rename_i h0
      simp only [Except.ok.injEq] at h
      subst h
      simp [emptyForm, h0]
    · split at h
      · simp at h
      · rename_i w hw
        obtain ⟨hlen, rfl⟩ := lengthForm_eq_ok.mp hw
        simp only [Except.ok.injEq] at h
        subst h
        simp only [stuffingForm_byteCount, parseSubfields_byteCount]
        exact ⟨trivial, by omega⟩

/-- When AF_PARSE raises (R76). -/
theorem parseField_eq_error {P : Packet} {afc : BitVec 2} {cond : Condition} :
    parseField P afc = .error cond ↔
      ¬(afc = 0 ∨ afc = 1) ∧ 183 < (pktByte P 4).toNat ∧ cond = .truncatedAf (pktByte P 4) := by
  unfold parseField
  split
  · rename_i hafc
    simp only [reduceCtorEq, hafc, not_true_eq_false, false_and]
  · rename_i hafc
    simp only [hafc, not_false_eq_true, true_and]
    split
    · rename_i h0; simp [h0]
    · split
      · rename_i hl
        obtain ⟨h1, rfl⟩ := lengthForm_eq_error.mp hl
        simp only [Except.error.injEq, h1, true_and]
        exact eq_comm
      · rename_i hl
        have := (lengthForm_eq_ok.mp hl).1
        simp only [reduceCtorEq, false_iff, not_and]
        omega

/-! ### PESH_PARSE -/

/-- Every header that parses: it starts where six bytes remain, takes 6 to 184 bytes and ends inside the packet (R91, R95, R96). -/
theorem pesHeaderAt_eq_ok {p : Params} {off : Nat} {pre : PesPrefix} {ext : Option PesExt} {ph : PesHeader} {n : Nat}
    (h : pesHeaderAt p off pre ext = .ok (ph, n)) :
    off ≤ 182 ∧ off + 6 ≤ n ∧ n ≤ 188 ∧ ph.pesPacketLength = pre.pesPacketLength := by
  unfold pesHeaderAt at h
  split at h
  · simp at h
  · rename_i ho
    have basic : (basicHeader off pre) = (ph, n) → off ≤ 182 ∧ off + 6 ≤ n ∧ n ≤ 188 ∧
        ph.pesPacketLength = pre.pesPacketLength := by
      intro hb
      simp only [basicHeader, Prod.mk.injEq] at hb
      obtain ⟨rfl, rfl⟩ := hb
      exact ⟨by omega, by omega, by omega, rfl⟩
    split at h
    · split at h
      · unfold extendedHeader at h
        split at h
        · simp at h
        · split at h
          · simp at h
          · simp only [Except.ok.injEq, Prod.mk.injEq] at h
            obtain ⟨rfl, rfl⟩ := h
            exact ⟨by omega, by omega, by omega, rfl⟩
      · exact basic (by simpa using h)
    · exact basic (by simpa using h)

/-- Every condition of the PES header has the status TruncatedHeader (R153). -/
theorem pesHeaderAt_status {p : Params} {off : Nat} {pre : PesPrefix} {ext : Option PesExt} {cond : Condition}
    (h : pesHeaderAt p off pre ext = .error cond) : cond.status = .truncatedHeader := by
  unfold pesHeaderAt extendedHeader at h
  split at h
  · simp only [Except.error.injEq] at h; subst h; rfl
  · split at h
    · split at h
      · split at h
        · simp only [Except.error.injEq] at h; subst h; rfl
        · split at h
          · simp only [Except.error.injEq] at h; subst h; rfl
          · simp at h
      · simp at h
    · simp at h

/-- `parsePesHeader` is `pesHeaderAt` on the bytes that stand there. -/
theorem parsePesHeader_eq_ok {p : Params} {P : Packet} {off : Nat} {ph : PesHeader} {n : Nat}
    (h : parsePesHeader p P off = .ok (ph, n)) :
    off ≤ 182 ∧ off + 6 ≤ n ∧ n ≤ 188 ∧ ph.pesPacketLength = (prefixAt P off).pesPacketLength := pesHeaderAt_eq_ok h

end Sys2Proof.Machine
end

