-- ==== Sys2Proof/Laws/Assembler.lean ====
section
/-! SUPPORT. What the assembler's steps can answer: one equation per arm for a buffer in its form, and one inversion lemma,
`absorbPacket_cases`, that says once everything a call of ABSORB can do. -/

namespace Sys2Proof.Machine

/-! ### The arms -/

theorem startUnit_error {p : Params} {P : Packet} {cc : BitVec 4} {off : Nat} {c : Inst} {cond : Condition} (hb : BufInv c)
    (h : parsePesHeader p P off = .error cond) :
    startUnit p P cc off c =
      .next (⟨.truncatedHeader, false, none, if c.st = .assembling then some ⟨content c, c.wrOff⟩ else none⟩, toIdle c) := by
  simp [startUnit, implicitFinish_eq hb, h]

/-- Opening a unit after `ToIdle`, with room. -/
theorem openUnit_ok {p : Params} {P : Packet} {cc : BitVec 4} {off n : Nat} {ph : PesHeader} (c : Inst) (hn : n ≤ 188)
    (hf : fits p.bufCap (188 - n) = true) :
    openUnit p P cc off ph n (toIdle c) =
      .next { toIdle c with
        st := .assembling
        lastCc := some cc
        pesTotal := pesTotalOf ph.pesPacketLength
        unbounded := ph.pesPacketLength == 0
        hdrLen := BitVec.ofNat 8 (n - off)
        wrOff := 188 - n
        buf := cells 0 (pktFrom P n) } := by
  unfold openUnit
  rw [bufAppend_eq rfl hn (by simpa using hf)]
  simp [content, toIdle]

theorem openUnit_overflow {p : Params} {P : Packet} {cc : BitVec 4} {off n : Nat} {ph : PesHeader} (c : Inst) (hn : n ≤ 188)
    (hf : fits p.bufCap (188 - n) = false) : openUnit p P cc off ph n (toIdle c) = .fault .bufferOverflow := by
  unfold openUnit
  rw [bufAppend_overflow hn (by simpa using hf)]
  rfl

theorem startUnit_ok {p : Params} {P : Packet} {cc : BitVec 4} {off n : Nat} {c : Inst} {ph : PesHeader} (hb : BufInv c)
    (h : parsePesHeader p P off = .ok (ph, n)) (hf : fits p.bufCap (188 - n) = true) :
    startUnit p P cc off c =
      .next (⟨.assemblingStarted, false, some ph, if c.st = .assembling then some ⟨content c, c.wrOff⟩ else none⟩,
        { toIdle c with
          st := .assembling
          lastCc := some cc
          pesTotal := pesTotalOf ph.pesPacketLength
          unbounded := ph.pesPacketLength == 0
          hdrLen := BitVec.ofNat 8 (n - off)
          wrOff := 188 - n
          buf := cells 0 (pktFrom P n) }) := by
  simp only [startUnit, implicitFinish_eq hb, h, andThen_next, openUnit_ok c (parsePesHeader_eq_ok h).2.2.1 hf]

theorem startUnit_overflow {p : Params} {P : Packet} {cc : BitVec 4} {off n : Nat} {c : Inst} {ph : PesHeader} (hb : BufInv c)
    (h : parsePesHeader p P off = .ok (ph, n)) (hf : fits p.bufCap (188 - n) = false) :
    startUnit p P cc off c = .fault .bufferOverflow := by
  simp only [startUnit, implicitFinish_eq hb, h, andThen_next, andThen_fault,
    openUnit_overflow c (parsePesHeader_eq_ok h).2.2.1 hf]

theorem completionTest_eq {c : Inst} (hb : BufInv c) :
    completionTest c =
      if unitComplete c then .next (⟨.assemblingFinished, false, none, some ⟨content c, c.wrOff⟩⟩, toIdle c)
      else .next (plainResult .assemblingContinue, c) := by
  unfold completionTest
  split
  · simp [emission_eq hb]
  · rfl

theorem continueUnit_idle {p : Params} {P : Packet} {cc : BitVec 4} {payload : Option Nat} {c : Inst} (h : c.st = .idle) :
    continueUnit p P cc payload c = .next (plainResult .streamPacketLost, c) := by
  simp [continueUnit, h]

theorem continueUnit_noBaseline {p : Params} {P : Packet} {cc : BitVec 4} {payload : Option Nat} {c : Inst}
    (h : c.lastCc = none) : continueUnit p P cc payload c = .next (plainResult .streamPacketLost, c) := by
  cases hs : c.st <;> simp [continueUnit, h, hs]

theorem continueUnit_duplicate {p : Params} {P : Packet} {cc : BitVec 4} {payload : Option Nat} {c : Inst}
    (hs : c.st = .assembling) (hl : c.lastCc = some cc) :
    continueUnit p P cc payload c = .next ({ plainResult .assemblingContinue with dup := true }, c) := by
  simp [continueUnit, hs, hl]

theorem continueUnit_gap {p : Params} {P : Packet} {cc last : BitVec 4} {payload : Option Nat} {c : Inst}
    (hs : c.st = .assembling) (hl : c.lastCc = some last) (h1 : cc ≠ last) (h2 : cc ≠ nextCc last) :
    continueUnit p P cc payload c = .next (plainResult .streamPacketLost, toIdle c) := by
  simp [continueUnit, hs, hl, h1, h2]

theorem nextCc_ne (last : BitVec 4) : nextCc last ≠ last := by
  revert last; decide

theorem continueUnit_inSequence {p : Params} {P : Packet} {last : BitVec 4} {payload : Option Nat} {c : Inst}
    (hs : c.st = .assembling) (hl : c.lastCc = some last) :
    continueUnit p P (nextCc last) payload c =
      andThen (appendPayload p P (nextCc last) payload c) completionTest := by
  simp [continueUnit, hs, hl, nextCc_ne]

/-- The append of step 3b on a buffer in its form, with room. -/
theorem appendPayload_eq {p : Params} {P : Packet} {cc : BitVec 4} {start : Nat} {c : Inst} (hb : BufInv c) (hs : start ≤ 188)
    (hf : fits p.bufCap (c.wrOff + (188 - start)) = true) :
    appendPayload p P cc (some start) c =
      .next { c with
        lastCc := some cc
        wrOff := c.wrOff + (188 - start)
        buf := cells 0 (content c ++ pktFrom P start) } := by
  simp [appendPayload, bufAppend_eq hb hs hf]

/-- An append keeps the form of the buffer. -/
theorem bufInv_append {c : Inst} (hb : BufInv c) (bs : List Byte) (cc : Option (BitVec 4)) :
    BufInv { c with lastCc := cc, wrOff := c.wrOff + bs.length, buf := cells 0 (content c ++ bs) } :=
  bufInv_of_cells (content c ++ bs) rfl (by simp [(buf_eq_cells hb).2])

/-! ### Inversion -/

/-- Everything a call of ABSORB that answers can do. -/
inductive Absorbs (p : Params) (P : Packet) (h : TsHeader) (a : AdaptationField) (c : Inst) : AbsorbResult → Inst → Prop
  | foreign : h.pid ≠ c.targetPid → Absorbs p P h a c (plainResult .unexpectedPid) c
  | truncated (emit : Option Emission) (cond : Condition) : h.pid = c.targetPid → h.pusi = true →
      implicitFinish c = .next emit → parsePesHeader p P (payloadOffset a) = .error cond →
      Absorbs p P h a c ⟨.truncatedHeader, false, none, emit⟩ (toIdle c)
  | start (emit : Option Emission) (ph : PesHeader) (n : Nat) : h.pid = c.targetPid → h.pusi = true →
      implicitFinish c = .next emit → parsePesHeader p P (payloadOffset a) = .ok (ph, n) → fits p.bufCap (188 - n) = true →
      Absorbs p P h a c ⟨.assemblingStarted, false, some ph, emit⟩
        { toIdle c with
          st := .assembling
          lastCc := some h.cc
          pesTotal := pesTotalOf ph.pesPacketLength
          unbounded := ph.pesPacketLength == 0
          hdrLen := BitVec.ofNat 8 (n - payloadOffset a)
          wrOff := 188 - n
          buf := Memory.writeBytes [] 0 (pktFrom P n) }
  | stray : h.pid = c.targetPid → h.pusi = false → c.st = .idle ∨ c.lastCc = none →
      Absorbs p P h a c (plainResult .streamPacketLost) c
  | duplicate : h.pid = c.targetPid → h.pusi = false → c.st = .assembling → c.lastCc = some h.cc →
      Absorbs p P h a c { plainResult .assemblingContinue with dup := true } c
  | gap (last : BitVec 4) : h.pid = c.targetPid → h.pusi = false → c.st = .assembling → c.lastCc = some last → h.cc ≠ last →
      h.cc ≠ nextCc last → Absorbs p P h a c (plainResult .streamPacketLost) (toIdle c)
  | goOn (last : BitVec 4) (d : Inst) : h.pid = c.targetPid → h.pusi = false → c.st = .assembling → c.lastCc = some last →
      h.cc = nextCc last → appendPayload p P h.cc (if hasPayload h then some (payloadOffset a) else none) c = .next d →
      unitComplete d = false → Absorbs p P h a c (plainResult .assemblingContinue) d
  | finish (last : BitVec 4) (d : Inst) (e : Emission) : h.pid = c.targetPid → h.pusi = false → c.st = .assembling →
      c.lastCc = some last → h.cc = nextCc last →
      appendPayload p P h.cc (if hasPayload h then some (payloadOffset a) else none) c = .next d →
      unitComplete d = true → emission d = .next e →
      Absorbs p P h a c ⟨.assemblingFinished, false, none, some e⟩ (toIdle d)

theorem startUnit_cases {p : Params} {P : Packet} {h : TsHeader} {a : AdaptationField} {c : Inst} {r : AbsorbResult} {d : Inst}
    (hp : h.pid = c.targetPid) (hu : h.pusi = true) (hr : startUnit p P h.cc (payloadOffset a) c = .next (r, d)) :
    Absorbs p P h a c r d := by
  unfold startUnit at hr
  obtain ⟨emit, he, hr⟩ := (andThen_eq_next _).mp hr
  cases hq : parsePesHeader p P (payloadOffset a) with
  | error cond =>
    simp only [hq, Host.Outcome.next.injEq, Prod.mk.injEq] at hr
    obtain ⟨rfl, rfl⟩ := hr
    exact .truncated emit cond hp hu he hq
  | ok v =>
    obtain ⟨ph, n⟩ := v
    simp only [hq] at hr
    obtain ⟨c1, h1, hr⟩ := (andThen_eq_next _).mp hr
    unfold openUnit at h1
    obtain ⟨c2, h2, h1⟩ := (andThen_eq_next _).mp h1
    obtain ⟨_, hf, rfl⟩ := bufAppend_eq_next.mp h2
    simp only [Host.Outcome.next.injEq, Prod.mk.injEq] at hr h1
    obtain ⟨rfl, rfl⟩ := hr
    subst h1
    have := Absorbs.start (h := h) (a := a) emit ph n hp hu he hq (by simpa using hf)
    simpa using this

theorem continueUnit_cases {p : Params} {P : Packet} {h : TsHeader} {a : AdaptationField} {c : Inst} {r : AbsorbResult} {d : Inst}
    (hp : h.pid = c.targetPid) (hu : h.pusi = false)
    (hr : continueUnit p P h.cc (if hasPayload h then some (payloadOffset a) else none) c = .next (r, d)) :
    Absorbs p P h a c r d := by
  unfold continueUnit at hr
  split at hr
  · rename_i last hs hl
    split at hr
    · rename_i hc
      simp only [Host.Outcome.next.injEq, Prod.mk.injEq] at hr
      obtain ⟨rfl, rfl⟩ := hr
      exact .duplicate hp hu hs (hc ▸ hl)
    · rename_i hc
      split at hr
      · rename_i hg
        simp only [Host.Outcome.next.injEq, Prod.mk.injEq] at hr
        obtain ⟨rfl, rfl⟩ := hr
        exact .gap last hp hu hs hl hc hg
      · rename_i hg
        obtain ⟨d', hd, hr⟩ := (andThen_eq_next _).mp hr
        have hcc : h.cc = nextCc last := by simpa using hg
        unfold completionTest at hr
        split at hr
        · rename_i ht
          obtain ⟨e, he, hr⟩ := (andThen_eq_next _).mp hr
          simp only [Host.Outcome.next.injEq, Prod.mk.injEq] at hr
          obtain ⟨rfl, rfl⟩ := hr
          exact .finish last d' e hp hu hs hl hcc hd ht he
        · rename_i ht
          simp only [Host.Outcome.next.injEq, Prod.mk.injEq] at hr
          obtain ⟨rfl, rfl⟩ := hr
          exact .goOn last d' hp hu hs hl hcc hd (by simpa using ht)
  · rename_i hno
    simp only [Host.Outcome.next.injEq, Prod.mk.injEq] at hr
    obtain ⟨rfl, rfl⟩ := hr
    refine .stray hp hu ?_
    cases hs : c.st with
    | idle => exact .inl rfl
    | assembling =>
      cases hl : c.lastCc with
      | none => exact .inr rfl
      | some last => exact absurd hl (hno last hs)

/-- What a call of ABSORB that answers did. -/
theorem absorbPacket_cases {p : Params} {P : Packet} {h : TsHeader} {a : AdaptationField} {c : Inst} {r : AbsorbResult} {d : Inst}
    (hr : absorbPacket p P h a c = .next (r, d)) : Absorbs p P h a c r d := by
  unfold absorbPacket matchPid at hr
  split at hr
  · rename_i hp
    simp only [Host.Outcome.next.injEq, Prod.mk.injEq] at hr
    obtain ⟨rfl, rfl⟩ := hr
    exact .foreign hp
  · rename_i hp
    have hp : h.pid = c.targetPid := by simpa using hp
    split at hr
    · rename_i hu
      exact startUnit_cases hp hu hr
    · rename_i hu
      exact continueUnit_cases hp (by simpa using hu) hr

/-- The parse in progress and the PID registers are never written by ABSORB. -/
theorem Absorbs.keeps {p : Params} {P : Packet} {h : TsHeader} {a : AdaptationField} {c d : Inst} {r : AbsorbResult}
    (hr : Absorbs p P h a c r d) : d.targetPid = c.targetPid ∧ d.pidValid = c.pidValid ∧ d.parse = c.parse := by
  have happ : ∀ {payload : Option Nat} {d : Inst}, appendPayload p P h.cc payload c = .next d →
      d.targetPid = c.targetPid ∧ d.pidValid = c.pidValid ∧ d.parse = c.parse := by
    intro payload d hd
    unfold appendPayload at hd
    split at hd
    · obtain ⟨c1, h1, hd⟩ := (andThen_eq_next _).mp hd
      obtain ⟨_, _, rfl⟩ := bufAppend_eq_next.mp h1
      simp only [Host.Outcome.next.injEq] at hd
      subst hd
      exact ⟨rfl, rfl, rfl⟩
    · simp only [Host.Outcome.next.injEq] at hd
      subst hd
      exact ⟨rfl, rfl, rfl⟩
  cases hr with
  | goOn _ _ _ _ _ _ _ hd _ => exact happ hd
  | finish _ _ _ _ _ _ _ _ hd _ _ =>
    have := happ hd
    exact this
  | _ => exact ⟨rfl, rfl, rfl⟩

end Sys2Proof.Machine
end

