-- ==== Sys2Proof/Laws/Bits.lean ====
section
/-! SUPPORT. Bits and bytes as numbers: what a concatenation and a multi-byte read are in arithmetic (R58), each at the
widths the model uses, so that a claim about numbers never unfolds a bit vector. -/

namespace Sys2Proof.Machine

theorem toNat_append_add {m n : Nat} (x : BitVec m) (y : BitVec n) : (x ++ y).toNat = x.toNat * 2 ^ n + y.toNat := by
  rw [BitVec.toNat_append, ← Nat.shiftLeft_add_eq_or_of_lt y.isLt, Nat.shiftLeft_eq]

theorem toNat_pid (x : BitVec 5) (y : Byte) : BitVec.toNat (w := 13) (x ++ y) = x.toNat * 256 + y.toNat :=
  toNat_append_add x y

theorem toNat_two (x y : Byte) : BitVec.toNat (w := 16) (x ++ y) = x.toNat * 256 + y.toNat := toNat_append_add x y

theorem toNat_three (x y z : Byte) :
    BitVec.toNat (w := 24) (x ++ y ++ z) = x.toNat * 65536 + y.toNat * 256 + z.toNat := by
  have h := toNat_append_add (x ++ y) z
  rw [toNat_append_add x y] at h
  refine h.trans ?_
  omega

theorem toNat_word (b0 b1 b2 b3 : Byte) :
    BitVec.toNat (w := 32) (b0 ++ b1 ++ b2 ++ b3) = b0.toNat * 2 ^ 24 + b1.toNat * 2 ^ 16 + b2.toNat * 2 ^ 8 + b3.toNat := by
  have h := toNat_append_add (b0 ++ b1 ++ b2) b3
  rw [toNat_append_add (b0 ++ b1) b2, toNat_append_add b0 b1] at h
  refine h.trans ?_
  omega

theorem toNat_bits48 (b0 b1 b2 b3 b4 b5 : Byte) :
    (bits48 b0 b1 b2 b3 b4 b5).toNat = b0.toNat * 2 ^ 40 + b1.toNat * 2 ^ 32 + b2.toNat * 2 ^ 24 + b3.toNat * 2 ^ 16 +
      b4.toNat * 2 ^ 8 + b5.toNat := by
  have h := toNat_append_add (b0 ++ b1 ++ b2 ++ b3 ++ b4) b5
  rw [toNat_append_add (b0 ++ b1 ++ b2 ++ b3) b4, toNat_append_add (b0 ++ b1 ++ b2) b3, toNat_append_add (b0 ++ b1) b2,
    toNat_append_add b0 b1] at h
  refine h.trans ?_
  omega

/-- The base of a PCR from its bytes (R54). -/
theorem toNat_pcrBase (b0 b1 b2 b3 : Byte) (t : BitVec 1) :
    BitVec.toNat (w := 33) (b0 ++ b1 ++ b2 ++ b3 ++ t) =
      b0.toNat * 2 ^ 25 + b1.toNat * 2 ^ 17 + b2.toNat * 2 ^ 9 + b3.toNat * 2 + t.toNat := by
  have h := toNat_append_add (b0 ++ b1 ++ b2 ++ b3) t
  rw [toNat_append_add (b0 ++ b1 ++ b2) b3, toNat_append_add (b0 ++ b1) b2, toNat_append_add b0 b1] at h
  refine h.trans ?_
  omega

/-- The extension of a PCR from its bytes (R54). -/
theorem toNat_pcrExt (t : BitVec 1) (y : Byte) : BitVec.toNat (w := 9) (t ++ y) = t.toNat * 256 + y.toNat :=
  toNat_append_add t y

/-! ### Multi-byte reads (R37) -/

@[simp] theorem toNat_memRead_zero (P : Packet) (a : Nat) : (memRead P a 0).toNat = 0 := rfl

theorem toNat_memRead_succ (P : Packet) (a n : Nat) :
    (memRead P a (n + 1)).toNat = (memRead P a n).toNat * 256 + (pktByte P (a + n)).toNat := toNat_append_add _ _

theorem toNat_memRead_two (P : Packet) (a : Nat) :
    (memRead P a 2).toNat = (pktByte P a).toNat * 256 + (pktByte P (a + 1)).toNat := by
  rw [toNat_memRead_succ, toNat_memRead_succ, toNat_memRead_zero]; simp

theorem toNat_memRead_three (P : Packet) (a : Nat) :
    (memRead P a 3).toNat = (pktByte P a).toNat * 65536 + (pktByte P (a + 1)).toNat * 256 + (pktByte P (a + 2)).toNat := by
  rw [toNat_memRead_succ, toNat_memRead_two]; omega

theorem memRead_six (P : Packet) (a : Nat) :
    memRead P a 6 = bits48 (pktByte P a) (pktByte P (a + 1)) (pktByte P (a + 2)) (pktByte P (a + 3)) (pktByte P (a + 4))
      (pktByte P (a + 5)) := by
  apply BitVec.eq_of_toNat_eq
  rw [toNat_bits48, toNat_memRead_succ, toNat_memRead_succ, toNat_memRead_succ, toNat_memRead_three]
  omega

/-- A PCR from its six bytes (R54). -/
theorem pcrOfBits_bits48 (b0 b1 b2 b3 b4 b5 : Byte) :
    (pcrOfBits (bits48 b0 b1 b2 b3 b4 b5)).base.toNat =
        b0.toNat * 2 ^ 25 + b1.toNat * 2 ^ 17 + b2.toNat * 2 ^ 9 + b3.toNat * 2 + b4.toNat / 128 ∧
      (pcrOfBits (bits48 b0 b1 b2 b3 b4 b5)).reserved.toNat = b4.toNat / 2 % 64 ∧
      (pcrOfBits (bits48 b0 b1 b2 b3 b4 b5)).ext.toNat = b4.toNat % 2 * 256 + b5.toNat := by
  have h0 := b0.isLt
  have h1 := b1.isLt
  have h2 := b2.isLt
  have h3 := b3.isLt
  have h4 := b4.isLt
  have h5 := b5.isLt
  simp only [pcrOfBits, BitVec.extractLsb'_toNat, toNat_bits48, Nat.shiftRight_eq_div_pow]
  omega

/-- The pid from its two bytes (R58). -/
theorem toNat_pid_headerOfBytes (b0 b1 b2 b3 : Byte) :
    (headerOfBytes b0 b1 b2 b3).pid.toNat = b1.toNat % 32 * 256 + b2.toNat := by
  simp only [headerOfBytes, toNat_pid, BitVec.extractLsb'_toNat, Nat.shiftRight_eq_div_pow]
  omega

end Sys2Proof.Machine
end

