-- ==== Sys2Proof/Laws/PerInstr.lean ====
section
/-! SUPPORT. Facts of every instruction as syntax, one lemma per constructor: how many bytes its encoding has (R50 to R57, R60). -/

namespace Sys2Proof.Laws.EncodedLength

/-- How many bytes the encoding of each instruction has: a packet 188, a command its code byte and its operand, a form of a
variable header its fixed bytes. -/
def bytes : Instr → Nat
  | .pktSRsv _ _ => 188
  | .pktSPay _ _ => 188
  | .pktSAf _ _ => 188
  | .pktSAfpay _ _ => 188
  | .pktCRsv _ _ => 188
  | .pktCPay _ _ => 188
  | .pktCAf _ _ => 188
  | .pktCAfpay _ _ => 188
  | .pktBadsync _ _ => 188
  | .afAbsent => 0
  | .afLength _ => 1
  | .afEmpty => 1
  | .afFlags _ => 1
  | .afPcr _ => 6
  | .afOpcr _ => 6
  | .afSplice _ => 1
  | .afPrivate _ => 1
  | .afExt _ _ _ _ _ => 2
  | .afExtLtw _ => 2
  | .afExtPiecewise _ => 3
  | .afExtSeamless _ => 1
  | .afStuffing => 0
  | .peshBasic _ => 6
  | .peshExt _ _ => 9
  | .tshParse _ => 188
  | .afParse _ _ => 188
  | .peshParse _ _ => 188
  | .absorb _ _ _ => 188
  | .step _ => 189
  | .setPid _ => 3
  | .flush => 1
  | .reset => 1

/-- The encoding of `i` has that many bytes, for whichever core instance it is meant. -/
def Statement (i : Instr) : Prop := ∀ core : Nat, (encode core i).bytes.length = bytes i

theorem length_packet (core : Nat) (h : TsHeader) (body : Body) : (encodePacket core h body).bytes.length = 188 := by
  simp [encodePacket, bytesOfHeader]

theorem pktSRsv (f : PktFields) (body : Body) : Statement (.pktSRsv f body) := fun core => length_packet core _ body
theorem pktSPay (f : PktFields) (body : Body) : Statement (.pktSPay f body) := fun core => length_packet core _ body
theorem pktSAf (f : PktFields) (body : Body) : Statement (.pktSAf f body) := fun core => length_packet core _ body
theorem pktSAfpay (f : PktFields) (body : Body) : Statement (.pktSAfpay f body) := fun core => length_packet core _ body
theorem pktCRsv (f : PktFields) (body : Body) : Statement (.pktCRsv f body) := fun core => length_packet core _ body
theorem pktCPay (f : PktFields) (body : Body) : Statement (.pktCPay f body) := fun core => length_packet core _ body
theorem pktCAf (f : PktFields) (body : Body) : Statement (.pktCAf f body) := fun core => length_packet core _ body
theorem pktCAfpay (f : PktFields) (body : Body) : Statement (.pktCAfpay f body) := fun core => length_packet core _ body
theorem pktBadsync (h : TsHeader) (body : Body) : Statement (.pktBadsync h body) := fun core => length_packet core _ body
theorem afAbsent : Statement .afAbsent := fun _ => rfl
theorem afLength (len : Byte) : Statement (.afLength len) := fun _ => rfl
theorem afEmpty : Statement .afEmpty := fun _ => rfl
theorem afFlags (f : AfFlags) : Statement (.afFlags f) := fun _ => rfl
theorem afPcr (v : Pcr) : Statement (.afPcr v) := fun _ => rfl
theorem afOpcr (v : Pcr) : Statement (.afOpcr v) := fun _ => rfl
theorem afSplice (b : Byte) : Statement (.afSplice b) := fun _ => rfl
theorem afPrivate (b : Byte) : Statement (.afPrivate b) := fun _ => rfl
theorem afExt (n : Byte) (l : Bool) (p : Bool) (s : Bool) (r : BitVec 5) : Statement (.afExt n l p s r) := fun _ => rfl
theorem afExtLtw (w : BitVec 16) : Statement (.afExtLtw w) := fun _ => rfl
theorem afExtPiecewise (q : BitVec 24) : Statement (.afExtPiecewise q) := fun _ => rfl
theorem afExtSeamless (m : Byte) : Statement (.afExtSeamless m) := fun _ => rfl
theorem afStuffing : Statement .afStuffing := fun _ => rfl
theorem peshBasic (pre : PesPrefix) : Statement (.peshBasic pre) := fun _ => rfl
theorem peshExt (pre : PesPrefix) (x : PesExt) : Statement (.peshExt pre x) := fun _ => rfl
theorem tshParse (pkt : Packet) : Statement (.tshParse pkt) := fun _ => by simp [encode, bytes]
theorem afParse (pkt : Packet) (afc : BitVec 2) : Statement (.afParse pkt afc) := fun _ => by simp [encode, bytes]
theorem peshParse (pkt : Packet) (off : Nat) : Statement (.peshParse pkt off) := fun _ => by simp [encode, bytes]
theorem absorb (pkt : Packet) (h : TsHeader) (a : AdaptationField) : Statement (.absorb pkt h a) := fun _ => by simp [encode, bytes]
theorem step (pkt : Packet) : Statement (.step pkt) := fun _ => by simp [encode, bytes]
theorem setPid (p : BitVec 13) : Statement (.setPid p) := fun _ => rfl
theorem flush : Statement .flush := fun _ => rfl
theorem reset : Statement .reset := fun _ => rfl

end Sys2Proof.Laws.EncodedLength
end

