-- ==== Sys2Proof/Tests/Slice0.lean ====
section
/-! SUPPORT. Tests: the ill-formed terms, the spec's encodings as words, single steps with the results of the spec's vectors
(spec/95_test_vectors.md; the id stands in each docstring), and one witness for the hypotheses of every statement. -/

namespace Sys2Proof.Tests

open Sys2Proof.Machine Sys2Proof.Claims

set_option Elab.async false

/-! ### Builders -/

/-- A packet that begins with `l` and is filled up with 0xFF (PAD of R63). -/
def pkt (l : List Byte) : Packet := ⟨((l ++ List.replicate (188 - l.length) 0xFF).take 188).toArray, by simp; omega⟩

/-- A body that begins with `l` and is filled up with 0xFF. -/
def body (l : List Byte) : Body := ⟨((l ++ List.replicate (184 - l.length) 0xFF).take 184).toArray, by simp; omega⟩

/-- FILL(n, s) of R63. -/
def fill (n s : Nat) : List Byte := (List.range n).map fun k => BitVec.ofNat 8 (s + k)

/-- A header with sync byte 0x47 and tei, prio and tsc 0, TS(…) of R63. -/
def ts (pid : BitVec 13) (pusi : Bool) (afc : BitVec 2) (cc : BitVec 4) : TsHeader := ⟨0x47, false, pusi, false, pid, 0, afc, cc⟩

/-- The machine with one instance. -/
def one (c : Inst) : State := { State.reset with inst := c }

/-- Idle, after SET_PID(0x0100). -/
def ready : Inst := { Inst.reset with pidValid := true, targetPid := 0x0100 }

/-- The state S1 of the vectors: a unit of 400 bytes with 170 of them accumulated. -/
def s1 : Inst :=
  { ready with st := .assembling, lastCc := some 5, pesTotal := 414, hdrLen := 14, wrOff := 170, buf := cells 0 (fill 170 0) }

/-- An unbounded unit with one byte accumulated and last counter 15. -/
def openEnded : Inst :=
  { ready with st := .assembling, lastCc := some 15, pesTotal := 6, unbounded := true, hdrLen := 6, wrOff := 1, buf := [(0, 0xAA)] }

/-- Ten bytes of a unit of 14 payload bytes (R113: 6 + 14 = 20). -/
def small : Inst :=
  { ready with st := .assembling, lastCc := some 0, pesTotal := 20, hdrLen := 6, wrOff := 10, buf := cells 0 (fill 10 0) }

/-- A capacity of `n` bytes. -/
def capped (n : Nat) (c : Inst) : State := { one c with params := { Params.default with bufCap := some n } }

def next? (o : Host.Outcome State Fault Refusal) : Option State :=
  match o with
  | .next t => some t
  | _ => none

theorem exists_next {o : Host.Outcome State Fault Refusal} (q : State → Bool) (h : (next? o).any q = true) :
    ∃ t, o = .next t ∧ q t = true := by
  cases o with
  | next t => exact ⟨t, rfl, h⟩
  | fault e => simp [next?] at h
  | refused r => simp [next?] at h

theorem eq_ok {ε α : Type} {x : Except ε α} {i : α} (h : x.toOption = some i) : x = .ok i := by
  cases x with
  | ok j => simpa [Except.toOption] using h
  | error e => simp [Except.toOption] at h

def errorOf {ε α : Type} : Except ε α → Option ε
  | .ok _ => none
  | .error e => some e

theorem eq_error {ε α : Type} {x : Except ε α} {e : ε} (h : errorOf x = some e) : x = .error e := by
  cases x with
  | ok j => simp [errorOf] at h
  | error e' => simpa [errorOf] using h

theorem exists_ok {ε α : Type} {x : Except ε α} (q : α → Bool) (h : x.toOption.any q = true) : ∃ i, x = .ok i ∧ q i = true := by
  cases x with
  | ok i => exact ⟨i, rfl, h⟩
  | error e => simp [Except.toOption] at h

def outputOf (o : Host.Outcome State Fault Refusal) : Option Result := (next? o).map State.out
def instOf (o : Host.Outcome State Fault Refusal) : Option Inst := (next? o).map State.inst

/-- The output of a STEP. -/
def stepOut (o : Host.Outcome State Fault Refusal) : Option Output :=
  match outputOf o with
  | some (.output r) => some r
  | _ => none

def statusOf (o : Host.Outcome State Fault Refusal) : Option (Status × Bool) := (stepOut o).map fun r => (r.status, r.dup)

/-- (st, last_cc, pes_total, unbounded, hdr_len, wr_off) as the vectors write it. -/
structure Regs where
  st : AsmState
  lastCc : Option (BitVec 4)
  pesTotal : BitVec 17
  unbounded : Bool
  hdrLen : BitVec 8
  wrOff : Nat
deriving DecidableEq, Repr

def regs (c : Inst) : Regs := ⟨c.st, c.lastCc, c.pesTotal, c.unbounded, c.hdrLen, c.wrOff⟩

def idleRegs : Regs := ⟨.idle, none, 0, false, 0, 0⟩

theorem exists_output {o : Host.Outcome State Fault Refusal} (q : Output → Bool) (h : (stepOut o).any q = true) :
    ∃ t r, o = .next t ∧ t.out = .output r ∧ q r = true := by
  cases o with
  | next t =>
    cases e : t.out with
    | output r => exact ⟨t, r, rfl, e, by simpa [stepOut, outputOf, next?, e] using h⟩
    | _ => simp [stepOut, outputOf, next?, e] at h
  | fault _ => simp [stepOut, outputOf, next?] at h
  | refused _ => simp [stepOut, outputOf, next?] at h

def fieldOf (o : Host.Outcome State Fault Refusal) : Option AdaptationField :=
  match outputOf o with
  | some (.field a) => some a
  | _ => none

theorem exists_field {o : Host.Outcome State Fault Refusal} (q : AdaptationField → Bool) (h : (fieldOf o).any q = true) :
    ∃ t a, o = .next t ∧ t.out = .field a ∧ q a = true := by
  cases o with
  | next t =>
    cases e : t.out with
    | field a => exact ⟨t, a, rfl, e, by simpa [fieldOf, outputOf, next?, e] using h⟩
    | _ => simp [fieldOf, outputOf, next?, e] at h
  | fault _ => simp [fieldOf, outputOf, next?] at h
  | refused _ => simp [fieldOf, outputOf, next?] at h

def pesOf (o : Host.Outcome State Fault Refusal) : Option (PesHeader × Nat) :=
  match outputOf o with
  | some (.pesHeader ph n) => some (ph, n)
  | _ => none

theorem exists_pes {o : Host.Outcome State Fault Refusal} (q : PesHeader × Nat → Bool) (h : (pesOf o).any q = true) :
    ∃ t ph n, o = .next t ∧ t.out = .pesHeader ph n ∧ q (ph, n) = true := by
  cases o with
  | next t =>
    cases e : t.out with
    | pesHeader ph n => exact ⟨t, ph, n, rfl, e, by simpa [pesOf, outputOf, next?, e] using h⟩
    | _ => simp [pesOf, outputOf, next?, e] at h
  | fault _ => simp [pesOf, outputOf, next?] at h
  | refused _ => simp [pesOf, outputOf, next?] at h

def absorbedOf (o : Host.Outcome State Fault Refusal) : Option AbsorbResult :=
  match outputOf o with
  | some (.absorbed r) => some r
  | _ => none

theorem exists_absorbed {o : Host.Outcome State Fault Refusal} (q : AbsorbResult → Bool)
    (h : (absorbedOf o).any q = true) : ∃ t r, o = .next t ∧ t.out = .absorbed r ∧ q r = true := by
  cases o with
  | next t =>
    cases e : t.out with
    | absorbed r => exact ⟨t, r, rfl, e, by simpa [absorbedOf, outputOf, next?, e] using h⟩
    | _ => simp [absorbedOf, outputOf, next?, e] at h
  | fault _ => simp [absorbedOf, outputOf, next?] at h
  | refused _ => simp [absorbedOf, outputOf, next?] at h

/-- A PES header: start code, stream id, length (R56), then further bytes. -/
def pesBytes (sid hi lo : Byte) (rest : List Byte) : List Byte := [0, 0, 1, sid, hi, lo] ++ rest

/-! ### Ill-formed terms are refused -/

theorem test_wf_badsync_has_good_sync : wellFormed Params.default (.pktBadsync (ts 0 false 1 0) (body [])) = false := by decide
theorem test_wf_length_zero : wellFormed Params.default (.afLength 0) = false := by decide
theorem test_wf_ext_of_reserved_id : wellFormed Params.default (.peshExt ⟨1, 0xBE, 20⟩ PesExt.zero) = false := by decide
theorem test_wf_byte_count : wellFormed Params.default (.absorb (pkt []) (ts 0 false 1 0) (bareField true 185)) = false := by decide

/-! ### Words of the spec's encodings, bit by bit -/

/-- A packet class by the match value of its row, the header fields it leaves free, and its body. -/
def rowOf (i : Option Instr) : Option (BitVec 32 × PktFields × List Byte) :=
  match i with
  | some (.pktSRsv f b) => some (0x47400000, f, b.toList)
  | some (.pktSPay f b) => some (0x47400010, f, b.toList)
  | some (.pktSAf f b) => some (0x47400020, f, b.toList)
  | some (.pktSAfpay f b) => some (0x47400030, f, b.toList)
  | some (.pktCRsv f b) => some (0x47000000, f, b.toList)
  | some (.pktCPay f b) => some (0x47000010, f, b.toList)
  | some (.pktCAf f b) => some (0x47000020, f, b.toList)
  | some (.pktCAfpay f b) => some (0x47000030, f, b.toList)
  | _ => none

/-- 184 bytes of zero, which a table word leaves for the body. -/
def zeros : List Byte := List.replicate 184 0

/-- 0100_0111 010_00001 00000000 00_01_0101: T7. -/
theorem test_decode_s_pay : rowOf (decode Params.default ⟨0, .packet, [0x47, 0x41, 0x00, 0x15] ++ fill 184 0⟩).toOption =
    some (0x47400010, ⟨false, false, 0x0100, 0, 5⟩, fill 184 0) := by decide +kernel
theorem test_decode_s_rsv : rowOf (decodeTableWord 32 0x47400003) = some (0x47400000, ⟨false, false, 0, 0, 3⟩, zeros) := by
  decide +kernel
theorem test_decode_s_af : rowOf (decodeTableWord 32 0x47410020) = some (0x47400020, ⟨false, false, 0x0100, 0, 0⟩, zeros) := by
  decide +kernel
theorem test_decode_s_afpay : rowOf (decodeTableWord 32 0x475FFFFF) = some (0x47400030, ⟨false, false, 0x1FFF, 3, 15⟩, zeros) := by
  decide +kernel
theorem test_decode_c_rsv : rowOf (decodeTableWord 32 0x47200009) = some (0x47000000, ⟨false, true, 0, 0, 9⟩, zeros) := by
  decide +kernel
theorem test_decode_c_pay : rowOf (decodeTableWord 32 0x47800010) = some (0x47000010, ⟨true, false, 0, 0, 0⟩, zeros) := by
  decide +kernel
theorem test_decode_c_af : rowOf (decodeTableWord 32 0x470000A6) = some (0x47000020, ⟨false, false, 0, 2, 6⟩, zeros) := by
  decide +kernel
theorem test_decode_c_afpay : rowOf (decodeTableWord 32 0x4701003A) = some (0x47000030, ⟨false, false, 0x0100, 0, 10⟩, zeros) := by
  decide +kernel
/-- T19: 0x47 with bit 7 set. -/
theorem test_decode_badsync :
    (match decodeTableWord 32 0xC7410015 with
      | some (.pktBadsync h b) => some (h, b.toList)
      | _ => none) = some (⟨0xC7, false, true, false, 0x0100, 0, 1, 5⟩, zeros) := by decide +kernel

theorem test_decode_af_absent : decodeTableWord 0 0 = some .afAbsent := by decide
theorem test_decode_af_length : decodeTableWord 8 0x07 = some (.afLength 7) := by decide
theorem test_decode_af_empty : (decode Params.default ⟨0, .af .length, [0]⟩).toOption = some .afEmpty := by decide
/-- 1110_0000: F16. -/
theorem test_decode_af_flags : (decode Params.default ⟨0, .af .flags, [0xE0]⟩).toOption =
    some (.afFlags ⟨true, true, true, false, false, false, false, false⟩) := by decide
/-- 91 A2 B3 C4 | 1_111111_1 00100011: F13. -/
theorem test_decode_af_pcr : decodeTableWord 48 0x91A2B3C4FF23 = some (.afPcr ⟨0x123456789, 63, 0x123⟩) := by decide
/-- FF FF FF FF | 1_000000_1 FF: F14. -/
theorem test_decode_af_opcr : (decode Params.default ⟨0, .af .opcr, [0xFF, 0xFF, 0xFF, 0xFF, 0x81, 0xFF]⟩).toOption =
    some (.afOpcr ⟨8589934591, 0, 511⟩) := by decide
theorem test_decode_af_splice : (decode Params.default ⟨0, .af .splice, [0xFB]⟩).toOption = some (.afSplice 0xFB) := by decide
theorem test_decode_af_private : (decode Params.default ⟨0, .af .privateByte, [0x2A]⟩).toOption = some (.afPrivate 0x2A) := by decide
/-- 03 | 1_0_0_11111: F20. -/
theorem test_decode_af_ext : decodeTableWord 16 0x039F = some (.afExt 3 true false false 31) := by decide
theorem test_decode_af_ext_ltw : (decode Params.default ⟨0, .af .extLtw, [0x80, 0x01]⟩).toOption = some (.afExtLtw 0x8001) := by decide
theorem test_decode_af_ext_piecewise : decodeTableWord 24 0x400002 = some (.afExtPiecewise 0x400002) := by decide
theorem test_decode_af_ext_seamless : (decode Params.default ⟨0, .af .extSeamless, [0xAA]⟩).toOption = some (.afExtSeamless 0xAA) := by
  decide
theorem test_decode_af_stuffing : (decode Params.default ⟨0, .af .stuffing, []⟩).toOption = some .afStuffing := by decide
/-- H3: the seventh byte begins 01. -/
theorem test_decode_pesh_basic : (decode Params.default ⟨0, .pes, pesBytes 0xC0 0x00 0x64 [0x40]⟩).toOption =
    some (.peshBasic ⟨1, 0xC0, 100⟩) := by decide
/-- H15: A = 10_11_1_1_1_1, B = 11_1_1_1_1_1_1, N = 3. -/
theorem test_decode_pesh_ext : decodeTableWord 72 0x000001C00064BFFF03 =
    some (.peshExt ⟨1, 0xC0, 100⟩ ⟨3, true, true, true, true, 3, true, true, true, true, true, true, 3⟩) := by decide
theorem test_decode_step :
    (match decodeTableWord 8 0 with
      | some (.step P) => some P.toList
      | _ => none) = some (List.replicate 188 0) := by decide +kernel
/-- 01 | 000_11111 | 11111110: PID 0x1FFE. -/
theorem test_decode_set_pid : (decode Params.default ⟨0, .command, [0x01, 0x1F, 0xFE]⟩).toOption = some (.setPid 0x1FFE) := by decide
theorem test_decode_flush : decodeTableWord 8 2 = some .flush := by decide
theorem test_decode_reset : decodeTableWord 8 3 = some .reset := by decide
/-- The operations of format OP carry no bits but the packet's. -/
theorem test_decode_absorb :
    (match (decode Params.default ⟨0, .absorb (ts 1 true 1 2) (bareField true 184), (pkt [0x47]).toList⟩).toOption with
      | some (.absorb P h a) => some (P.toList, h, a)
      | _ => none) = some ((pkt [0x47]).toList, ts 1 true 1 2, bareField true 184) := by decide +kernel
theorem test_short_packet_is_refused : (decode Params.default ⟨0, .packet, List.replicate 187 0x47⟩).toOption = none := by
  decide +kernel
theorem test_pid_operand_of_14_bits_is_refused : (decode Params.default ⟨0, .command, [0x01, 0x20, 0x00]⟩).toOption = none := by decide

/-! ### Single steps -/

/-- T5. -/
theorem test_tsh_parse : outputOf (exec (.tshParse (pkt [0x47, 0xFF, 0xFF, 0xFF])) State.reset) =
    some (.header ⟨0x47, true, true, true, 0x1FFF, 3, 3, 15⟩) := by decide +kernel
/-- T20. -/
theorem test_tsh_parse_bad_sync : outputOf (exec (.tshParse (pkt [0x46, 0x41])) State.reset) =
    some (.raised (.invalidSyncByte 0x46)) := by decide +kernel

/-- F22: every flag set, L = 22, the sub-fields take all of it but the flag byte. -/
theorem test_af_parse_all : outputOf (exec (.afParse (pkt ([0x47, 0, 0, 0x30, 0x16, 0xFF] ++ [0, 0, 0, 0, 0xFE, 2] ++
      [0, 0, 0, 1, 0xFE, 4] ++ [5, 6] ++ [7, 0xE0, 0x80, 1, 0x40, 0, 2, 0xAA])) 3) State.reset) =
    some (.field ⟨true, 22, 23, ⟨true, true, true, true, true, true, true, true⟩, some ⟨1, 63, 2⟩, some ⟨3, 63, 4⟩, some 5, some 6,
      some ⟨7, true, true, true, 0, some 0x8001, some 0x400002, some 0xAA⟩, 0, true⟩) := by decide +kernel
/-- F9. -/
theorem test_af_parse_truncated : outputOf (exec (.afParse (pkt [0x47, 0, 0, 0x20, 0xB8]) 2) State.reset) =
    some (.raised (.truncatedAf 184)) := by decide +kernel

/-- H16 at offset 12. -/
theorem test_pesh_parse : outputOf (exec (.peshParse (pkt (List.replicate 12 0x47 ++ pesBytes 0xE0 0 0 [0x8F, 0xC0, 0x0A])) 12)
      State.reset) =
    some (.pesHeader ⟨1, true, 0xE0, 0, true, ⟨0, true, true, true, true, 3, false, false, false, false, false, false, 10⟩⟩ 31) := by
  decide +kernel
/-- H33: the sum is not cut to 8 bits. -/
theorem test_pesh_parse_long_header : outputOf (exec (.peshParse (pkt ([0, 0, 0, 0] ++ pesBytes 0xC0 0 0 [0x80, 0, 0xFF])) 4)
      State.reset) = some (.raised (.truncatedPesData 4 255)) := by decide +kernel

/-- A3: in sequence, 184 bytes appended. -/
theorem test_c_pay_in_sequence :
    let o := exec (.pktCPay ⟨false, false, 0x0100, 0, 6⟩ (body (fill 184 170))) (one s1)
    statusOf o = some (.assemblingContinue, false) ∧
      (instOf o).map regs = some ⟨.assembling, some 6, 414, false, 14, 354⟩ := by decide +kernel
/-- A5: a gap of one. -/
theorem test_c_pay_gap :
    let o := exec (.pktCPay ⟨false, false, 0x0100, 0, 7⟩ (body (fill 184 170))) (one s1)
    statusOf o = some (.streamPacketLost, false) ∧ (instOf o).map regs = some idleRegs ∧
      ((stepOut o).bind Output.emit) = none := by decide +kernel
/-- A10: in sequence without payload: the counter stays. -/
theorem test_c_rsv_keeps_counter :
    (instOf (exec (.pktCRsv ⟨false, false, 0x0100, 0, 6⟩ (body [])) (one s1))).map regs =
      some ⟨.assembling, some 5, 414, false, 14, 170⟩ := by decide +kernel
/-- R137: a repeated counter is skipped, with a field decoded. -/
theorem test_c_af_duplicate :
    statusOf (exec (.pktCAf ⟨false, false, 0x0100, 0, 5⟩ (body [183, 0x10, 0, 0, 0, 0, 0xFE, 0])) (one s1)) =
      some (.assemblingContinue, true) := by decide +kernel
/-- A11: an empty slice moves the counter. -/
theorem test_c_afpay_empty_slice :
    (instOf (exec (.pktCAfpay ⟨false, false, 0x0100, 0, 6⟩ (body [183, 0])) (one s1))).map regs =
      some ⟨.assembling, some 6, 414, false, 14, 170⟩ := by decide +kernel
/-- R138, P1: the last 230 bytes of 400 end the unit. -/
theorem test_c_afpay_finishes :
    let o := exec (.pktCAfpay ⟨false, false, 0x0100, 0, 6⟩ (body ([137, 0] ++ List.replicate 136 0xFF ++ fill 46 98)))
      (one { s1 with pesTotal := 230 })
    statusOf o = some (.assemblingFinished, false) ∧ (instOf o).map regs = some idleRegs ∧
      ((stepOut o).bind Output.emit).map Emission.len = some 216 := by decide +kernel
/-- A12: the open unit is emitted and a new one starts, its counter unchecked. -/
theorem test_s_pay_starts :
    let o := exec (.pktSPay ⟨false, false, 0x0100, 0, 9⟩ (body (pesBytes 0xC0 0 0 (fill 178 0)))) (one s1)
    statusOf o = some (.assemblingStarted, false) ∧ (instOf o).map regs = some ⟨.assembling, some 9, 6, true, 6, 178⟩ ∧
      (stepOut o).bind Output.emit = some ⟨fill 170 0, 170⟩ := by decide +kernel
/-- R131: afc 0 starts a unit all the same. -/
theorem test_s_rsv_starts :
    (instOf (exec (.pktSRsv ⟨false, false, 0x0100, 0, 3⟩ (body (pesBytes 0xE0 0 0 (fill 178 0)))) (one ready))).map regs =
      some ⟨.assembling, some 3, 6, true, 6, 178⟩ := by decide +kernel
/-- A14: no PES header fits, the open unit is emitted. -/
theorem test_s_af_truncated :
    let o := exec (.pktSAf ⟨false, false, 0x0100, 0, 6⟩ (body [183, 0])) (one s1)
    statusOf o = some (.truncatedHeader, false) ∧ (instOf o).map regs = some idleRegs ∧
      ((stepOut o).bind Output.emit).map Emission.len = some 170 := by decide +kernel
/-- R134: the PES header stands after the field. -/
theorem test_s_afpay_starts :
    (instOf (exec (.pktSAfpay ⟨false, false, 0x0100, 0, 7⟩
      (body ([7, 0x10, 0, 0, 0, 0, 0x7E, 0] ++ pesBytes 0xE0 0 0 ([0x80, 0xC0, 10] ++ fill 10 0) ++ fill 157 0))) (one ready))).map
      regs = some ⟨.assembling, some 7, 6, true, 19, 157⟩ := by decide +kernel
/-- A16. -/
theorem test_badsync :
    let o := exec (.pktBadsync ⟨0, false, false, false, 0x0100, 0, 1, 6⟩ (body [])) (one s1)
    statusOf o = some (.invalidSyncByte, false) ∧ instOf o = some s1 := by decide +kernel
/-- R126: a packet of another PID whose field is too long is TruncatedHeader and not UnexpectedPid. -/
theorem test_step_order : statusOf (exec (.step (pkt [0x47, 0x01, 0x01, 0x36, 0xB8])) (one s1)) =
    some (.truncatedHeader, false) := by decide +kernel
/-- M1. -/
theorem test_step_before_set_pid : next? (exec (.step (pkt [0x47])) State.reset) = none := by decide +kernel
/-- A1 as an ABSORB. -/
theorem test_absorb_foreign : outputOf (exec (.absorb (pkt []) (ts 0x0101 false 1 6) (bareField false 0)) (one s1)) =
    some (.absorbed ⟨.unexpectedPid, false, none, none⟩) := by decide +kernel
/-- B3 and B4 in small: only equality ends a unit. A field of 180 bytes leaves four bytes to append. -/
def afterSmall (total : BitVec 17) : Option Regs :=
  (instOf (exec (.absorb (pkt (List.replicate 184 0 ++ fill 4 10)) (ts 0x0100 false 3 1) (bareField true 180))
    (one { small with pesTotal := total }))).map regs

theorem test_absorb_exact : afterSmall 20 = some idleRegs ∧ afterSmall 19 = some ⟨.assembling, some 1, 19, false, 6, 14⟩ := by
  decide +kernel
/-- M6. -/
theorem test_set_pid : (instOf (exec (.setPid 0x0200) (one s1))).map (fun c => (c.pidValid, c.targetPid, regs c)) =
    some (true, 0x0200, idleRegs) := by decide +kernel
/-- M5. -/
theorem test_flush :
    let o := exec .flush (one s1)
    outputOf o = some (.flushed (some ⟨fill 170 0, 170⟩)) ∧ (instOf o).map regs = some idleRegs := by decide +kernel
/-- M3. -/
theorem test_reset_at_power_on : instOf (exec .reset State.reset) = some Inst.reset := by decide +kernel
/-- The forms of F20, issued one by one through the queue. -/
theorem test_forms_one_by_one :
    outputOf (Host.Core.run core 5 { State.reset with queue :=
      [⟨0, .af .length, [5]⟩, ⟨0, .af .flags, [0x01]⟩, ⟨0, .af .ext, [3, 0x9F]⟩, ⟨0, .af .extLtw, [0x12, 0x34]⟩,
        ⟨0, .af .stuffing, []⟩] }) =
    some (.field ⟨true, 5, 6, ⟨false, false, false, false, false, false, false, true⟩, none, none, none, none,
      some ⟨3, true, false, false, 31, some 0x1234, none, none⟩, 1, false⟩) := by decide +kernel
/-- A table word placed for the next step is the instruction it runs. -/
theorem test_with_fetch_word : outputOf (step (State.reset.withFetchWord 8 2)) = some (.flushed none) := by decide
/-- R163: a request to the second of two instances. -/
theorem test_second_instance :
    (next? (step { one s1 with above := [ready], queue := [⟨1, .command, [1, 0, 7]⟩] })).map State.insts =
      some [s1, { ready with targetPid := 7 }] := by decide +kernel

/-! ### Witnesses: for each statement that has hypotheses, values that meet all of them together -/

/-- The instance with the given parse in progress. -/
def parsing (w : ParseCtx) : State := one { ready with parse := w }

/-- The parse of a field of length `len` with the flag byte `f`, the cursor at `cur` and nothing consumed. -/
def inField (len : Byte) (f : AfFlags) (cur : Nat) : ParseCtx :=
  ⟨{ bareField true (1 + len.toNat) with length := len, flags := f }, cur⟩

/-- A record whose payload offset is `off`. -/
def fieldTo (off : Nat) : AdaptationField := bareField true (off - 4)

/-- A packet with an extended PES header of N header-data bytes at `off`. -/
def pesAt (off : Nat) (sid n : Byte) : Packet := pkt (List.replicate off 0 ++ pesBytes sid 0 0 [0x80, 0, n])

/-- A packet of the target PID with the given first bytes after its header. -/
def tsPkt (pusi : Bool) (afc : BitVec 2) (cc : BitVec 4) (rest : List Byte) : Packet :=
  pkt (bytesOfHeader (ts 0x0100 pusi afc cc) ++ rest)

theorem witness_DecodeOfEncode :
    WellFormed Params.default (.absorb (pkt []) (ts 0 false 3 0) (bareField true 184)) ∧ WellFormed Params.default (.afLength 1) ∧
      WellFormed Params.default (.peshExt ⟨1, 0xC0, 0⟩ PesExt.zero) ∧
      WellFormed Params.default (.pktBadsync ⟨0x46, false, false, false, 0, 0, 0, 0⟩ (body [])) := by decide +kernel

theorem witness_EveryPacketHasOneClass : (pkt [0x47]).toList.length = 188 := by decide +kernel

theorem witness_ClassesFollowTheTable :
    (∃ i, decode Params.default ⟨0, .packet, 0x47 :: 0x41 :: 0x00 :: 0x35 :: fill 184 0⟩ = .ok i ∧ (rowMatch i).isSome = true) ∧
      ∃ i, decode Params.default ⟨0, .packet, 0x46 :: 0x41 :: 0x00 :: 0x35 :: fill 184 0⟩ = .ok i ∧ (rowMatch i).isNone = true :=
  ⟨exists_ok _ (by decide +kernel), exists_ok _ (by decide +kernel)⟩

theorem witness_PcrLayout : 182 + 6 ≤ 188 := by decide

theorem witness_HeaderRoundTrip :
    AgreeOn (pkt [0x47, 1, 2, 3, 4]) (pkt [0x47, 1, 2, 3, 5]) 0 4 ∧
      byte (pkt [0x47, 0xFF, 0xFF, 0xFF]) 0 = 0x47 ∧
      byte (pkt [0x47, 0xFF, 0xFF, 0xFF]) 1 = num true * 128 + num true * 64 + num true * 32 + (0x1FFF : BitVec 13).toNat / 256 ∧
      byte (pkt [0x47, 0xFF, 0xFF, 0xFF]) 2 = (0x1FFF : BitVec 13).toNat % 256 ∧
      byte (pkt [0x47, 0xFF, 0xFF, 0xFF]) 3 = (3 : BitVec 2).toNat * 64 + (3 : BitVec 2).toNat * 16 + (15 : BitVec 4).toNat := by
  unfold AgreeOn; decide +kernel

/-- A request for the second of two instances. -/
def asked : State := { one s1 with above := [ready], queue := [⟨1, .command, [1, 0, 7]⟩] }

theorem witness_StepRunsTheDecodedInstruction :
    asked.queue = ⟨1, .command, [1, 0, 7]⟩ :: [] ∧ asked.insts[1]? = some ready ∧
      decode asked.params ⟨1, .command, [1, 0, 7]⟩ = .ok (.setPid 7) :=
  ⟨rfl, by decide, eq_ok (by decide)⟩

theorem witness_StepWithoutAnInstruction :
    State.reset.queue = [] ∧ asked.insts.length ≤ 2 ∧
      (1 < asked.insts.length ∧ decode asked.params ⟨1, .command, [4]⟩ = .error (.commandCode 4)) ∧
      1 < asked.insts.length ∧ (List.replicate 187 (0x47 : Byte)).length ≠ 188 :=
  ⟨rfl, by decide, ⟨by decide, eq_error (by decide)⟩, by decide, by decide +kernel⟩

theorem witness_InvariantsAfterEveryOperation :
    (one s1).Inv ∧ (∃ t, exec .flush (one s1) = .next t ∧ (t.inst.st == .idle) = true) ∧
      ∃ t o, exec (.step (tsPkt true 1 0 (pesBytes 0xC0 0 0 [0x80, 0, 0]))) (one ready) = .next t ∧ t.out = .output o ∧
        (o.status == .assemblingStarted) = true :=
  ⟨by decide +kernel, exists_next _ (by decide +kernel), exists_output _ (by decide +kernel)⟩

theorem witness_StepKeepsInvariant : asked.Inv ∧ ∃ t, step asked = .next t ∧ t.queue.isEmpty = true :=
  ⟨by decide +kernel, exists_next _ (by decide +kernel)⟩

theorem witness_StepKeepsBuffersCanonical :
    (∀ c ∈ asked.insts, c.buf.wf = true) ∧ ∃ t, step asked = .next t ∧ t.queue.isEmpty = true :=
  ⟨by decide +kernel, exists_next _ (by decide +kernel)⟩

theorem witness_OtherInstancesUntouched :
    asked.queue = ⟨1, .command, [1, 0, 7]⟩ :: [] ∧ ∃ t, step asked = .next t ∧ t.queue.isEmpty = true :=
  ⟨rfl, exists_next _ (by decide +kernel)⟩

theorem witness_OperationsReadTheirInstanceOnly :
    (one s1).params = asked.params ∧ (one s1).inst = asked.inst ∧ (one s1).free = asked.free ∧
      ∃ t, exec .flush (one s1) = .next t ∧ (t.inst.st == .idle) = true :=
  ⟨rfl, rfl, rfl, exists_next _ (by decide +kernel)⟩

theorem witness_WritersOfEachRegister : ∃ t, exec (.setPid 7) (one s1) = .next t ∧ (t.inst.targetPid == 7) = true :=
  exists_next _ (by decide +kernel)

theorem witness_AbsentField : (0 : BitVec 2) = 0 ∨ (0 : BitVec 2) = 1 := by decide

theorem witness_LengthBound :
    ((2 : BitVec 2) = 2 ∨ (2 : BitVec 2) = 3) ∧ 183 < byte (pkt [0x47, 0, 0, 0x20, 184]) 4 ∧
      byte (pkt [0x47, 0, 0, 0x20, 183]) 4 ≤ 183 := by decide +kernel

theorem witness_EmptyField : ((3 : BitVec 2) = 2 ∨ (3 : BitVec 2) = 3) ∧ byte (pkt [0x47, 0, 0, 0x30, 0]) 4 = 0 := by
  decide +kernel

theorem witness_FieldWithFlagByte :
    ((3 : BitVec 2) = 2 ∨ (3 : BitVec 2) = 3) ∧
      (0 < byte (pkt [0x47, 0, 0, 0x30, 1]) 4 ∧ byte (pkt [0x47, 0, 0, 0x30, 1]) 4 ≤ 183) ∧
      0 < byte (pkt [0x47, 0, 0, 0x30, 183]) 4 ∧ byte (pkt [0x47, 0, 0, 0x30, 183]) 4 ≤ 183 := by decide +kernel

/-- A field in which every flag is set and which is one byte too short, and one that is just long enough. -/
theorem witness_StuffingAndOverrun :
    (∃ t a, exec (.afParse (pkt [0x47, 0, 0, 0x30, 22, 0xFF]) 3) State.reset = .next t ∧ t.out = .field a ∧
        (a.length != 0 && a.overrun) = true) ∧
      ∃ t a, exec (.afParse (pkt [0x47, 0, 0, 0x30, 23, 0xFF]) 3) State.reset = .next t ∧ t.out = .field a ∧
        (a.length != 0 && !a.overrun) = true :=
  ⟨exists_field _ (by decide +kernel), exists_field _ (by decide +kernel)⟩

theorem witness_FieldInvariants :
    ∃ t a, exec (.afParse (pkt [0x47, 0, 0, 0x30, 23, 0xFF]) 3) State.reset = .next t ∧ t.out = .field a ∧
      (a.length != 0 && !a.overrun && a.ext.isSome) = true :=
  exists_field _ (by decide +kernel)

/-- Packets that differ on both sides of offsets 4 to 27. -/
theorem witness_AfParseReads :
    AgreeOn (pkt ([0x47, 0, 0, 0x30] ++ fill 24 7 ++ [1])) (pkt ([0x47, 0, 0, 0x20] ++ fill 24 7 ++ [2])) 4 28 := by
  unfold AgreeOn; decide +kernel

theorem witness_LengthAndFlagForms :
    (183 : Byte).toNat ≤ 183 ∧ 183 < (184 : Byte).toNat ∧
      ((parsing (inField 7 AfFlags.zero 5)).inst.parse.af.present = true ∧
        (parsing (inField 7 AfFlags.zero 5)).inst.parse.af.length ≠ 0 ∧ (parsing (inField 7 AfFlags.zero 5)).inst.parse.cur = 5) ∧
      ((one ready).inst.parse.af.present = false ∨ (one ready).inst.parse.af.length = 0 ∨ (one ready).inst.parse.cur ≠ 5) := by
  decide

/-- The parse after an extension flag byte with all three flags. -/
def inExt : State :=
  let w := inField 20 ⟨false, false, false, false, false, false, false, true⟩ 8
  parsing { w with af := { w.af with ext := some ⟨8, true, true, true, 0, none, none, none⟩ } }

theorem witness_ExtensionForms :
    inExt.inst.parse.af.ext = some ⟨8, true, true, true, 0, none, none, none⟩ ∧ (one ready).inst.parse.af.ext = none := by decide

theorem witness_StuffingForm :
    (ParseInv inExt.inst.parse ∧ inExt.inst.parse.af.present = true ∧ inExt.inst.parse.af.length ≠ 0 ∧ 6 ≤ inExt.inst.parse.cur) ∧
      ParseInv (inField 7 AfFlags.zero 5) ∧ (parsing (inField 7 AfFlags.zero 5)).inst.parse.cur < 6 := by decide

theorem witness_AfParseIsTheWalkOfItsForms :
    ((2 : BitVec 2) = 2 ∨ (2 : BitVec 2) = 3) ∧
      (0 < byte (pkt [0x47, 0, 0, 0x20, 1]) 4 ∧ byte (pkt [0x47, 0, 0, 0x20, 1]) 4 ≤ 183) ∧
      0 < byte (pkt [0x47, 0, 0, 0x20, 183]) 4 ∧ byte (pkt [0x47, 0, 0, 0x20, 183]) 4 ≤ 183 := by decide +kernel

/-- An extended header that ends with the packet; one of the set with 10 in the next byte; one with six bytes left. -/
theorem witness_ChoiceOfPesForm :
    (∃ t ph n, exec (.peshParse (pesAt 179 0xC0 0) 179) State.reset = .next t ∧ t.out = .pesHeader ph n ∧
        (ph.extended && n == 188) = true) ∧
      (4 + 6 ≤ 188 ∧ BitVec.ofNat 8 (byte (pesAt 4 0xBE 0) (4 + 3)) ∈ State.reset.params.noExtStreamIds) ∧
      (181 + 6 ≤ 188 ∧ byte (pkt []) (181 + 6) / 64 ≠ 2) ∧ 182 + 6 = 188 :=
  ⟨exists_pes (fun r => r.1.extended && r.2 == 188) (by decide +kernel), by decide +kernel, by decide +kernel, rfl⟩

theorem witness_PeshParseReads :
    AgreeOn (pesAt 4 0xC0 0) (pkt (List.replicate 4 1 ++ pesBytes 0xC0 0 0 [0x80, 0, 0] ++ [1])) 4 (4 + 9) ∧ 182 < 183 := by
  unfold AgreeOn; decide +kernel

/-- The parse whose payload offset is `off`. -/
def atOffset (off : Nat) : State := parsing ⟨fieldTo off, 5⟩

theorem witness_PesForms :
    4 + (atOffset 182).inst.parse.af.byteCount = 182 ∧ 182 < 4 + (atOffset 183).inst.parse.af.byteCount ∧
      ((0xC0 : Byte) ∉ Params.default.noExtStreamIds ∧ 4 + (atOffset 179).inst.parse.af.byteCount + 9 + (0 : Byte).toNat ≤ 188) ∧
      (179 < 4 + (atOffset 180).inst.parse.af.byteCount ∧ 4 + (atOffset 181).inst.parse.af.byteCount < 182) ∧
      (4 + (atOffset 179).inst.parse.af.byteCount ≤ 179 ∧ 188 < 4 + (atOffset 179).inst.parse.af.byteCount + 9 + (1 : Byte).toNat) ∧
      (0xBE : Byte) ∈ Params.default.noExtStreamIds := by decide

theorem witness_ForeignPid : (one s1).inst.pidValid = true ∧ (ts 0x0101 true 1 6).pid ≠ (one s1).inst.targetPid := by decide

/-- The header takes the whole packet (N = 175), and a buffer of no bytes has room for what is left. -/
theorem witness_StartPacket :
    (capped 0 ready).inst.pidValid = true ∧ BufInv (capped 0 ready).inst ∧
      (ts 0x0100 true 2 0).pid = (capped 0 ready).inst.targetPid ∧ (ts 0x0100 true 2 0).pusi = true ∧
      pes (capped 0 ready).params (pesAt 4 0xC0 175) (4 + (bareField false 0).byteCount) =
        .ok (pesExtended (pesAt 4 0xC0 175) 4, 188) ∧
      Room (capped 0 ready).params (idled (capped 0 ready).inst) (188 - 188) :=
  ⟨by decide, by decide, by decide, by decide, eq_ok (by decide +kernel), by decide⟩

theorem witness_TruncatedStartPacket :
    (one s1).inst.pidValid = true ∧ BufInv (one s1).inst ∧ (ts 0x0100 true 2 0).pid = (one s1).inst.targetPid ∧
      (ts 0x0100 true 2 0).pusi = true ∧
      pes (one s1).params (pkt []) (4 + (fieldTo 188).byteCount) = .error (.truncatedPesPrefix 188) ∧
      (ts 0x0100 false 1 1).pid = (one s1).inst.targetPid ∧ (ts 0x0100 false 1 1).pusi = false :=
  ⟨by decide, by decide +kernel, by decide, by decide, eq_error (by decide +kernel), by decide, by decide⟩

theorem witness_ContinuationInIdle :
    (one ready).inst.pidValid = true ∧ (ts 0x0100 false 1 1).pid = (one ready).inst.targetPid ∧
      (ts 0x0100 false 1 1).pusi = false ∧ (one ready).inst.st = .idle := by decide

theorem witness_Duplicate :
    (one s1).inst.pidValid = true ∧ (ts 0x0100 false 2 5).pid = (one s1).inst.targetPid ∧ (ts 0x0100 false 2 5).pusi = false ∧
      (one s1).inst.st = .assembling ∧ (one s1).inst.lastCc = some (ts 0x0100 false 2 5).cc := by decide

/-- A counter that goes back by one, from 0 to 15, and then a start packet whose header takes the whole packet. -/
theorem witness_ContinuityGap :
    ((one small).inst.pidValid = true ∧ (ts 0x0100 false 1 15).pid = (one small).inst.targetPid ∧
        (ts 0x0100 false 1 15).pusi = false ∧ (one small).inst.st = .assembling ∧ (one small).inst.lastCc = some 0 ∧
        (ts 0x0100 false 1 15).cc.toNat ≠ (0 : BitVec 4).toNat ∧
        (ts 0x0100 false 1 15).cc.toNat ≠ ((0 : BitVec 4).toNat + 1) % 16) ∧
      (ts 0x0100 true 1 0).pid = (one small).inst.targetPid ∧ (ts 0x0100 true 1 0).pusi = true ∧
      pes (one small).params (pesAt 4 0xC0 175) (4 + (bareField false 0).byteCount) =
        .ok (pesExtended (pesAt 4 0xC0 175) 4, 188) ∧
      Room (one small).params (idled (one small).inst) (188 - 188) :=
  ⟨by decide, by decide, by decide, eq_ok (by decide +kernel), by decide⟩

/-- The counter wraps from 15 to 0 and the slice is empty; and a unit that the slice completes within a capacity it fills. -/
theorem witness_InSequenceWithPayload :
    ((one openEnded).inst.pidValid = true ∧ BufInv (one openEnded).inst ∧
        (ts 0x0100 false 3 0).pid = (one openEnded).inst.targetPid ∧ (ts 0x0100 false 3 0).pusi = false ∧
        (one openEnded).inst.st = .assembling ∧ (one openEnded).inst.lastCc = some 15 ∧ InSequence 15 (ts 0x0100 false 3 0).cc ∧
        (fieldTo 188).byteCount ≤ 184 ∧ ¬Complete (appended (pkt []) 0 (4 + (fieldTo 188).byteCount) openEnded)) ∧
      (capped 14 small).inst.lastCc = some 0 ∧ InSequence 0 (ts 0x0100 false 3 1).cc ∧ BufInv small ∧
        Room (capped 14 small).params small (184 - (fieldTo 184).byteCount) ∧
        Complete (appended (pkt []) 1 (4 + (fieldTo 184).byteCount) small) := by decide +kernel

theorem witness_InSequenceWithoutPayload :
    ((one small).inst.pidValid = true ∧ BufInv (one small).inst ∧ (ts 0x0100 false 2 1).pid = (one small).inst.targetPid ∧
        (ts 0x0100 false 2 1).pusi = false ∧ (one small).inst.st = .assembling ∧ (one small).inst.lastCc = some 0 ∧
        InSequence 0 (ts 0x0100 false 2 1).cc ∧ ¬Complete (one small).inst) ∧
      Complete { small with pesTotal := 16 } ∧ BufInv { small with pesTotal := 16 } := by decide

theorem witness_UnboundedNeverCompletes :
    (one openEnded).inst.unbounded = true ∧ (ts 0x0100 false 3 0).pusi = false ∧
      ∃ t, exec (.absorb (pkt []) (ts 0x0100 false 3 0) (fieldTo 184)) (one openEnded) = .next t ∧ (t.inst.wrOff == 5) = true :=
  ⟨by decide, by decide, exists_next _ (by decide +kernel)⟩

theorem witness_Emissions :
    (one small).inst.Inv (one small).params ∧
      (∃ t r, exec (.absorb (pkt []) (ts 0x0100 false 3 1) (fieldTo 184)) (one small) = .next t ∧ t.out = .absorbed r ∧
        (r.emit.isSome && r.status == .assemblingFinished) = true) ∧
      (∃ t r, exec (.absorb (pkt []) (ts 0x0100 true 3 1) (fieldTo 188)) (one small) = .next t ∧ t.out = .absorbed r ∧
        (r.emit.isSome && r.status == .truncatedHeader) = true) ∧
      ∃ t r, exec (.absorb (pesAt 4 0xC0 175) (ts 0x0100 true 1 1) (fieldTo 4)) (one small) = .next t ∧ t.out = .absorbed r ∧
        (r.emit.isSome && r.status == .assemblingStarted) = true :=
  ⟨by decide, exists_absorbed _ (by decide +kernel), exists_absorbed _ (by decide +kernel), exists_absorbed _ (by decide +kernel)⟩

/-- Headers that agree in pid, pusi, cc and the payload bit; packets whose PES headers differ in the stream id and flags. -/
theorem witness_IgnoredFields :
    (hasPayload ⟨0x47, true, false, true, 0x0100, 3, 1, 1⟩ = hasPayload (ts 0x0100 false 3 1) ∧
        (fieldTo 184).byteCount = ({ fieldTo 184 with length := 179 } : AdaptationField).byteCount) ∧
      (pes Params.default (pesAt 4 0xC0 175) 4 = .ok (pesExtended (pesAt 4 0xC0 175) 4, 188) ∧
        pes Params.default (pkt (List.replicate 4 0 ++ pesBytes 0xE0 0 0 [0x8F, 0xFF, 175])) 4 =
          .ok (pesExtended (pkt (List.replicate 4 0 ++ pesBytes 0xE0 0 0 [0x8F, 0xFF, 175])) 4, 188)) ∧
      (∃ t, exec (.absorb (pesAt 4 0xC0 175) (ts 0x0100 true 1 1) (fieldTo 4)) (one small) = .next t ∧ (t.inst.wrOff == 0) = true) ∧
      ∃ t, exec (.absorb (pkt (List.replicate 4 0 ++ pesBytes 0xE0 0 0 [0x8F, 0xFF, 175])) (ts 0x0100 true 1 1) (fieldTo 4))
        (one small) = .next t ∧ (t.inst.wrOff == 0) = true :=
  ⟨by decide, ⟨eq_ok (by decide +kernel), eq_ok (by decide +kernel)⟩, exists_next _ (by decide +kernel),
    exists_next _ (by decide +kernel)⟩

/-- One byte too many for the capacity, on a start packet and on a continuation packet. -/
theorem witness_Overflow :
    (capped 13 small).inst.pidValid = true ∧ BufInv (capped 13 small).inst ∧
      (ts 0x0100 true 3 1).pid = (capped 13 small).inst.targetPid ∧ (capped 13 small).params.bufCap = some 13 ∧
      (pes (capped 13 small).params (pesAt 4 0xC0 161) (4 + (fieldTo 4).byteCount) =
          .ok (pesExtended (pesAt 4 0xC0 161) 4, 174) ∧ 13 < 188 - 174) ∧
      (capped 13 small).inst.st = .assembling ∧ (capped 13 small).inst.lastCc = some 0 ∧ InSequence 0 (ts 0x0100 false 3 1).cc ∧
      (fieldTo 184).byteCount ≤ 184 ∧ 13 < (capped 13 small).inst.wrOff + (184 - (fieldTo 184).byteCount) :=
  ⟨by decide, by decide, by decide, by decide, ⟨eq_ok (by decide +kernel), by decide⟩, by decide, by decide, by decide, by decide,
    by decide⟩

theorem witness_StoredBytes :
    (ts 0x0100 false 3 0).pusi = false ∧
      ∃ t, exec (.absorb (pkt []) (ts 0x0100 false 3 0) (fieldTo 184)) (one openEnded) = .next t ∧
        (t.inst.st == .assembling && t.inst.wrOff == 5) = true :=
  ⟨by decide, exists_next _ (by decide +kernel)⟩

theorem witness_BeforeSetPid :
    State.reset.inst.pidValid = false ∧ State.reset.inst.Inv State.reset.params := by decide

theorem witness_RefusedOperations :
    State.reset.inst.pidValid = false ∧ isPacketClass (.pktBadsync (ts 0 false 1 0) (body [])) = true ∧
      ((one small).inst.pidValid = true ∧ (ts 0x0100 false 3 1).pid = (one small).inst.targetPid ∧
        (ts 0x0100 false 3 1).pusi = false ∧ (one small).inst.st = .assembling ∧ (one small).inst.lastCc = some 0 ∧
        InSequence 0 (ts 0x0100 false 3 1).cc ∧ hasPayload (ts 0x0100 false 3 1) = true ∧ 184 < (fieldTo 189).byteCount) := by decide

theorem witness_Flush :
    ((one s1).inst.st = .assembling ∧ BufInv (one s1).inst) ∧ (one ready).inst.st = .idle := by decide +kernel

/-- Each way through STEP: no sync byte, a field that is too long, a unit that goes on, and an append over the capacity. -/
theorem witness_StepIsThePipeline :
    State.reset.inst.pidValid = false ∧ (one small).inst.pidValid = true ∧
      outputOf (exec (.tshParse (pkt [0x46])) (one small)) = some (.raised (.invalidSyncByte 0x46)) ∧
      outputOf (exec (.tshParse (tsPkt false 3 1 [184])) (one small)) = some (.header (ts 0x0100 false 3 1)) ∧
      outputOf (exec (.afParse (tsPkt false 3 1 [184]) 3) (one small)) = some (.raised (.truncatedAf 184)) ∧
      (∃ t a, exec (.afParse (tsPkt false 3 1 [179]) 3) (one small) = .next t ∧ t.out = .field a ∧ (a.byteCount == 180) = true) ∧
      ∃ t r, exec (.absorb (tsPkt false 3 1 [179]) (ts 0x0100 false 3 1) (fieldTo 184)) (one small) = .next t ∧
        t.out = .absorbed r ∧ (r.status == .assemblingFinished) = true :=
  ⟨by decide, by decide, by decide +kernel, by decide +kernel, by decide +kernel, exists_field _ (by decide +kernel),
    exists_absorbed _ (by decide +kernel)⟩

theorem witness_OutputFields :
    ∃ t, exec (.step (tsPkt false 3 1 [179])) (one small) = .next t ∧ (t.inst.st == .idle) = true :=
  exists_next _ (by decide +kernel)

/-- Each condition: a bad sync byte, a long field, a PES header that does not fit, another PID, a gap and a lost packet in Idle. -/
theorem witness_StateAfterACondition :
    (one small).inst.Inv (one small).params ∧ (one ready).inst.Inv (one ready).params ∧
      statusOf (exec (.step (pkt [0x46])) (one small)) = some (.invalidSyncByte, false) ∧
      statusOf (exec (.step (tsPkt false 3 1 [184])) (one small)) = some (.truncatedHeader, false) ∧
      statusOf (exec (.step (tsPkt true 3 1 [183])) (one small)) = some (.truncatedHeader, false) ∧
      statusOf (exec (.step (pkt [0x47, 0x01, 0x01, 0x10])) (one small)) = some (.unexpectedPid, false) ∧
      statusOf (exec (.step (tsPkt false 1 15 [])) (one small)) = some (.streamPacketLost, false) ∧
      statusOf (exec (.step (tsPkt false 1 15 [])) (one ready)) = some (.streamPacketLost, false) :=
  ⟨by decide, by decide, by decide +kernel, by decide +kernel, by decide +kernel, by decide +kernel, by decide +kernel,
    by decide +kernel⟩

theorem witness_StepFollowsTheTransitionTable :
    (capped 194 small).inst.pidValid = true ∧ (capped 194 small).inst.Inv (capped 194 small).params ∧
      Room (capped 194 small).params (capped 194 small).inst 184 := by decide

/-- For each part of `StartClassRuns`: a field that is too long, another PID, a header that fits and one that does not. -/
theorem witness_StartClasses :
    (one small).inst.pidValid = true ∧ BufInv (one small).inst ∧ field (tsPkt true 3 0 [184]) 3 = none ∧
      field (tsPkt true 2 0 [183]) 2 = some (fieldWithFlags (tsPkt true 2 0 [183])) ∧
      (0x0101 : BitVec 13) ≠ (one small).inst.targetPid ∧ (0x0100 : BitVec 13) = (one small).inst.targetPid ∧
      pes (one small).params (pesAt 4 0xC0 175) 4 = .ok (pesExtended (pesAt 4 0xC0 175) 4, 188) ∧
      Room (one small).params (idled small) (188 - 188) ∧
      pes (one small).params (pesAt 4 0xC0 176) 4 = .error (.truncatedPesData 4 176) :=
  ⟨by decide, by decide, by decide +kernel, by decide +kernel, by decide, by decide, eq_ok (by decide +kernel), by decide,
    eq_error (by decide +kernel)⟩

/-- For each part of `ContinuationClassRuns`: Idle, the duplicate, the gap, and in sequence. -/
theorem witness_ContinuationClasses :
    (one small).inst.pidValid = true ∧ BufInv (one small).inst ∧ field (tsPkt false 3 0 [184]) 3 = none ∧
      (one ready).inst.st = .idle ∧ (one small).inst.st = .assembling ∧ (one small).inst.lastCc = some 0 ∧
      (classHeader false 1 ⟨false, false, 0x0100, 0, 0⟩).cc = 0 ∧ ¬InSequence 0 15 ∧ InSequence 0 1 ∧
      Room (one small).params (one small).inst (184 - (bareField false 0).byteCount) := by decide +kernel

theorem witness_BadSyncClass :
    (one small).inst.pidValid = true ∧ (⟨0x46, false, false, false, 0, 0, 0, 0⟩ : TsHeader).syncByte ≠ 0x47 := by decide

theorem witness_ClassesRunAsStep :
    ∃ i, decode Params.default ⟨0, .packet, (tsPkt false 3 1 [179]).toList⟩ = .ok i ∧ isPacketClass i = true :=
  exists_ok _ (by decide +kernel)

end Sys2Proof.Tests
end

section
/-! PROOFS (spec/10_state.md, the invariants of one core). What the assembler and the forms of the adaptation field do to the
invariant of R20, and to the facts about the parse in progress. -/

namespace Sys2Proof.Machine

open Sys2Proof.Claims

/-! ### The invariant of one core -/

theorem fits_zero (cap : Option Nat) : fits cap 0 = true := by
  cases cap <;> simp [fits]

/-- Leaving a unit meets the invariant, whatever was open before. -/
theorem inv_toIdle {c : Inst} (p : Params) (hw : ParseInv c.parse) : Inst.Inv p (toIdle c) :=
  ⟨fun _ => ⟨rfl, rfl, rfl, rfl, rfl⟩, fun h => (nomatch h), fits_zero _, rfl, hw⟩

theorem parseInv_init : ParseInv ParseCtx.init := by decide

/-- The reset values meet the invariant, with any `target_pid`. -/
theorem inv_reset (p : Params) (pid : BitVec 13) : Inst.Inv p { Inst.reset with targetPid := pid } :=
  inv_toIdle p (c := { Inst.reset with targetPid := pid }) parseInv_init

/-- The size of R104 stays in 17 bits. -/
theorem toNat_pesTotalOf (len : BitVec 16) : (pesTotalOf len).toNat = len.toNat + 6 := by
  have := len.isLt
  simp [pesTotalOf, BitVec.toNat_add]
  omega

/-- I2 of R20 for a unit just opened (R104 to R106): the header took `k` bytes, 6 to 184. -/
theorem assemblingInv_started {c : Inst} {k : Nat} {len : BitVec 16} (hk : 6 ≤ k) (hk' : k ≤ 184)
    (hcc : c.lastCc.isSome = true) (hlen : c.hdrLen = BitVec.ofNat 8 k) (htot : c.pesTotal = pesTotalOf len)
    (hunb : c.unbounded = (len == 0)) (hv : c.pidValid = true) : AssemblingInv c := by
  have hlt := len.isLt
  have hz : len = 0 ↔ len.toNat = 0 := by simp [BitVec.toNat_eq]
  have hk256 : k % 256 = k := Nat.mod_eq_of_lt (by omega)
  intro _
  rw [hlen, htot, toNat_pesTotalOf, hunb, beq_iff_eq, hz, BitVec.toNat_ofNat, hk256]
  exact ⟨hcc, hk, hk', by omega, by omega, by omega, hv⟩

/-- Opening a unit on a start packet with a parsed PES header meets the invariant. -/
theorem inv_started {p : Params} {P : Packet} {cc : BitVec 4} {off n : Nat} {ph : PesHeader} {c : Inst}
    (hw : ParseInv c.parse) (hv : c.pidValid = true) (ho : 4 ≤ off) (hq : parsePesHeader p P off = .ok (ph, n))
    (hf : fits p.bufCap (188 - n) = true) :
    Inst.Inv p { toIdle c with
      st := .assembling
      lastCc := some cc
      pesTotal := pesTotalOf ph.pesPacketLength
      unbounded := ph.pesPacketLength == 0
      hdrLen := BitVec.ofNat 8 (n - off)
      wrOff := 188 - n
      buf := Memory.writeBytes [] 0 (pktFrom P n) } := by
  obtain ⟨_, hlo, hhi, _⟩ := parsePesHeader_eq_ok hq
  have hbuf : Memory.writeBytes [] 0 (pktFrom P n) = cells 0 (pktFrom P n) := by
    simpa using writeBytes_at_end (pktFrom P n) [] 0
  exact ⟨fun h => (nomatch h), assemblingInv_started (by omega) (by omega) rfl rfl rfl rfl hv, hf,
    bufInv_of_cells (pktFrom P n) hbuf (by simp), hw⟩

/-- Step 3b of ABSORB keeps the invariant of an open unit, and leaves the unit open. -/
theorem inv_appendPayload {p : Params} {P : Packet} {cc : BitVec 4} {payload : Option Nat} {c d : Inst} (hi : Inst.Inv p c)
    (hs : c.st = .assembling) (hd : appendPayload p P cc payload c = .next d) : Inst.Inv p d := by
  cases payload with
  | none =>
    simp only [appendPayload, Host.Outcome.next.injEq] at hd
    exact hd ▸ hi
  | some start =>
    obtain ⟨_, hasm, _, hb, hw⟩ := hi
    obtain ⟨c', hc', _⟩ := (andThen_eq_next _).mp hd
    obtain ⟨hstart, hf, _⟩ := bufAppend_eq_next.mp hc'
    rw [appendPayload_eq hb hstart hf, Host.Outcome.next.injEq] at hd
    subst hd
    obtain ⟨_, hopen⟩ := hasm hs
    have hbuf := bufInv_append hb (pktFrom P start) (some cc)
    rw [length_pktFrom] at hbuf
    exact ⟨fun h => absurd (hs.symm.trans h) (nofun), fun _ => ⟨rfl, hopen⟩, hf, hbuf, hw⟩

/-- Every call of ABSORB that answers keeps the invariant of its core. -/
theorem Absorbs.keeps_inv {p : Params} {P : Packet} {h : TsHeader} {a : AdaptationField} {c d : Inst} {r : AbsorbResult}
    (hr : Absorbs p P h a c r d) (hv : c.pidValid = true) (hi : Inst.Inv p c) : Inst.Inv p d := by
  obtain ⟨-, -, -, -, hw⟩ := id hi
  cases hr with
  | foreign | stray | duplicate => exact hi
  | truncated | gap => exact inv_toIdle p hw
  | start emit ph n _ _ _ hq hf => exact inv_started hw hv (Nat.le_add_right 4 _) hq hf
  | goOn last _ _ _ hs _ _ hd => exact inv_appendPayload hi hs hd
  | finish last d' e _ _ hs _ _ hd =>
    obtain ⟨-, -, -, -, hw'⟩ := inv_appendPayload hi hs hd
    exact inv_toIdle p hw'

/-! ### The parse in progress -/

/-- A form that takes `k` bytes where its flag is set and its sub-field is still absent keeps the invariant: a flag that is set,
or an extension already begun, says that the flag byte was read. -/
theorem parseInv_guarded {w : ParseCtx} {b : AdaptationField} {k : Nat} {flag absent : Bool} (hw : ParseInv w)
    (hbc : ByteCountInv b) (hdue : flag = true → w.af.flags ≠ AfFlags.zero ∨ consumed w.af ≠ 0)
    (hk : absent = true → consumed b = consumed w.af + k) :
    ParseInv (if flag && absent then { af := b, cur := w.cur + k } else w) := by
  split
  · rename_i hboth
    obtain ⟨hflag, habsent⟩ := Bool.and_eq_true_iff.mp hboth
    obtain ⟨-, ⟨-, hz, h0⟩ | hcur⟩ := hw
    · exact absurd (hdue hflag) (by simp [hz, h0])
    · exact ⟨hbc, .inr (by simp only [hk habsent, hcur]; omega)⟩
  · exact hw

/-- A record with an extension has consumed its two fixed bytes. -/
theorem consumed_ne_zero_of_ext {a : AdaptationField} {x : AfExtension} (hx : a.ext = some x) : consumed a ≠ 0 := by
  simp [consumed, hx]

theorem parseInv_absentForm : ParseInv absentForm := by decide
theorem parseInv_emptyForm : ParseInv emptyForm := by decide

theorem parseInv_lengthForm {len : Byte} {w : ParseCtx} (h : lengthForm len = .ok w) : ParseInv w := by
  obtain ⟨hlen, rfl⟩ := lengthForm_eq_ok.mp h
  exact ⟨⟨rfl, by simp only; omega⟩, .inl ⟨.inr rfl, rfl, rfl⟩⟩

section Forms
variable {w : ParseCtx} (hw : ParseInv w)
include hw

/-- The flag byte is read at offset 5, where nothing is consumed yet. -/
theorem parseInv_flagsForm (f : AfFlags) : ParseInv (flagsForm f w) := by
  unfold flagsForm
  split
  · rename_i hdue
    have hcur : w.cur = 5 := by simp [flagsDue] at hdue; exact hdue.2
    obtain ⟨hbc, ⟨-, -, h0⟩ | h6⟩ := hw
    · exact ⟨hbc, .inr (congrArg (6 + ·) h0.symm)⟩
    · omega
  · exact hw

theorem parseInv_pcrForm (v : Pcr) : ParseInv (pcrForm v w) :=
  parseInv_guarded hw hw.1 (fun hf => .inl fun hz => by simp [hz, AfFlags.zero] at hf)
    fun hn => by simp [consumed, Option.isNone_iff_eq_none.mp hn]; omega

theorem parseInv_opcrForm (v : Pcr) : ParseInv (opcrForm v w) :=
  parseInv_guarded hw hw.1 (fun hf => .inl fun hz => by simp [hz, AfFlags.zero] at hf)
    fun hn => by simp [consumed, Option.isNone_iff_eq_none.mp hn]; omega

theorem parseInv_spliceForm (b : Byte) : ParseInv (spliceForm b w) :=
  parseInv_guarded hw hw.1 (fun hf => .inl fun hz => by simp [hz, AfFlags.zero] at hf)
    fun hn => by simp [consumed, Option.isNone_iff_eq_none.mp hn]; omega

theorem parseInv_privateForm (b : Byte) : ParseInv (privateForm b w) :=
  parseInv_guarded hw hw.1 (fun hf => .inl fun hz => by simp [hz, AfFlags.zero] at hf)
    fun hn => by simp [consumed, Option.isNone_iff_eq_none.mp hn]; omega

theorem parseInv_extForm (n : Byte) (l q m : Bool) (r : BitVec 5) : ParseInv (extForm n l q m r w) :=
  parseInv_guarded hw hw.1 (fun hf => .inl fun hz => by simp [hz, AfFlags.zero] at hf)
    fun hn => by simp [consumed, Option.isNone_iff_eq_none.mp hn]

theorem parseInv_extLtwForm (v : BitVec 16) : ParseInv (extLtwForm v w) := by
  unfold extLtwForm
  split
  · rename_i x hx
    exact parseInv_guarded hw hw.1 (fun _ => .inr (consumed_ne_zero_of_ext hx))
      fun hn => by simp [consumed, hx, Option.isNone_iff_eq_none.mp hn]; omega
  · exact hw

theorem parseInv_extPiecewiseForm (v : BitVec 24) : ParseInv (extPiecewiseForm v w) := by
  unfold extPiecewiseForm
  split
  · rename_i x hx
    exact parseInv_guarded hw hw.1 (fun _ => .inr (consumed_ne_zero_of_ext hx))
      fun hn => by simp [consumed, hx, Option.isNone_iff_eq_none.mp hn]; omega
  · exact hw

theorem parseInv_extSeamlessForm (v : Byte) : ParseInv (extSeamlessForm v w) := by
  unfold extSeamlessForm
  split
  · rename_i x hx
    exact parseInv_guarded hw hw.1 (fun _ => .inr (consumed_ne_zero_of_ext hx))
      fun hn => by simp [consumed, hx, Option.isNone_iff_eq_none.mp hn]; omega
  · exact hw

/-- The stuffing takes nothing: its two results are no part of the invariant. -/
theorem parseInv_stuffingForm : ParseInv (stuffingForm w) := hw

end Forms

end Sys2Proof.Machine
end

section
/-! PROOFS (spec/10_state.md, the words of a packet). The machine's reading of a packet is the spec's
arithmetic on the numbers of its bytes (R58). -/

namespace Sys2Proof.Claims

open Sys2Proof.Machine

/-- The number of a byte inside the packet. -/
theorem byte_eq (P : Packet) {i : Nat} (hi : i < 188) : byte P i = (pktByte P i).toNat := by
  simp [byte, pktByte, hi]

theorem byte_lt (P : Packet) (i : Nat) : byte P i < 256 := (P.toList.getD i 0).isLt

theorem ofNat_byte (P : Packet) {i : Nat} (hi : i < 188) : BitVec.ofNat 8 (byte P i) = pktByte P i := by
  rw [byte_eq P hi, BitVec.ofNat_toNat, BitVec.setWidth_eq]

/-- A bit of a byte is the bit of its number. -/
theorem getLsbD_pktByte (P : Packet) {i : Nat} (hi : i < 188) (k : Nat) : (pktByte P i).getLsbD k = bit (byte P i) k := by
  rw [byte_eq P hi, bit, BitVec.getLsbD, Nat.testBit_eq_decide_div_mod_eq]

/-- A slice of a byte is the quotient of its number. -/
theorem extractLsb'_pktByte (P : Packet) {i : Nat} (hi : i < 188) (lo len : Nat) :
    (pktByte P i).extractLsb' lo len = BitVec.ofNat len (byte P i / 2 ^ lo) := by
  apply BitVec.eq_of_toNat_eq
  simp [byte_eq P hi, Nat.shiftRight_eq_div_pow]

/-- A remainder by the width changes nothing in a word. -/
theorem ofNat_mod_two_pow (n k : Nat) : BitVec.ofNat n (k % 2 ^ n) = BitVec.ofNat n k :=
  BitVec.eq_of_toNat_eq (by simp)

/-- R70: the header of the first four bytes. -/
theorem headerAt_eq (P : Packet) : headerAt P = header P := by
  have hpid : (headerAt P).pid = (header P).pid := (BitVec.toNat_eq_nat.mp (by
    rw [headerAt, toNat_pid_headerOfBytes, byte_eq P (by omega), byte_eq P (by omega)])).2
  have h1 : 1 < 188 := by omega
  have h3 : 3 < 188 := by omega
  have hafc := ofNat_mod_two_pow 2 (byte P 3 / 16)
  have hcc := ofNat_mod_two_pow 4 (byte P 3)
  rw [headerAt, headerOfBytes, header, TsHeader.mk.injEq]
  exact ⟨(ofNat_byte P (by omega)).symm, getLsbD_pktByte P h1 7, getLsbD_pktByte P h1 6, getLsbD_pktByte P h1 5, hpid,
    extractLsb'_pktByte P h3 6 2, (extractLsb'_pktByte P h3 4 2).trans hafc.symm,
    (extractLsb'_pktByte P h3 0 4).trans (by rw [pow_zero, Nat.div_one]; exact hcc.symm)⟩

theorem syncByte_iff (P : Packet) : pktByte P 0 = Config.syncByte ↔ byte P 0 = 0x47 := by
  rw [byte_eq P (by omega), BitVec.toNat_eq]
  rfl

/-- R76: AF_PARSE gives a record exactly where the length is not over 183. -/
theorem parseField_isOk_iff (P : Packet) (afc : BitVec 2) :
    (∃ a, parseField P afc = .ok a) ↔ (field P afc).isSome = true := by
  have hafc : (afc = 0 ∨ afc = 1) ↔ afc.toNat < 2 := by simp only [BitVec.toNat_eq]; show _ = 0 ∨ _ = 1 ↔ _; omega
  have herr := fun cond => parseField_eq_error (P := P) (afc := afc) (cond := cond)
  simp only [hafc, ← byte_eq P (show 4 < 188 by omega)] at herr
  unfold field
  cases hf : parseField P afc with
  | ok a =>
    have hno := (not_congr (herr (.truncatedAf (pktByte P 4)))).mp (by simp [hf])
    simp only [and_true, not_and, not_lt] at hno
    split_ifs <;> simp_all
  | error cond =>
    obtain ⟨h2, h183, -⟩ := (herr cond).mp hf
    have h0 : byte P 4 ≠ 0 := by omega
    simp [h2, h183, h0]

/-! ### The PES header -/

/-- R56, R97: the basic form of a header whose six bytes stand inside the packet. -/
theorem basicHeader_eq (P : Packet) {off : Nat} (h : off ≤ 182) :
    basicHeader off (prefixAt P off) = (pesBasic P off, off + 6) := by
  have h0 := byte_eq P (show off < 188 by omega)
  have h1 := byte_eq P (show off + 1 < 188 by omega)
  have h2 := byte_eq P (show off + 2 < 188 by omega)
  have h4 := byte_eq P (show off + 4 < 188 by omega)
  have h5 := byte_eq P (show off + 4 + 1 < 188 by omega)
  have hcode : memRead P off 3 = BitVec.ofNat 24 (byte P off * 65536 + byte P (off + 1) * 256 + byte P (off + 2)) :=
    (BitVec.toNat_eq_nat.mp (by rw [toNat_memRead_three, h0, h1, h2])).2
  have hlen : memRead P (off + 4) 2 = BitVec.ofNat 16 (byte P (off + 4) * 256 + byte P (off + 5)) :=
    (BitVec.toNat_eq_nat.mp (by rw [toNat_memRead_two, h4, h5])).2
  have hok : pscOk (prefixAt P off) = decide (byte P off = 0 ∧ byte P (off + 1) = 0 ∧ byte P (off + 2) = 1) := by
    rw [Bool.eq_iff_iff, pscOk, beq_iff_eq, decide_eq_true_iff, prefixAt, BitVec.toNat_eq, toNat_memRead_three, h0, h1, h2]
    show _ = 1 ↔ _
    omega
  simp only [basicHeader, pesBasic, hok]
  simp only [prefixAt, hcode, hlen, ofNat_byte P (show off + 3 < 188 by omega)]
  rfl

/-- R57, R94: the bytes A, B and N of the extended form. -/
theorem extAt_eq (P : Packet) {off : Nat} (h : off + 9 ≤ 188) : extAt P off = (pesExtended P off).fields := by
  have h6 : off + 6 < 188 := by omega
  have h7 : off + 7 < 188 := by omega
  have hsc := ofNat_mod_two_pow 2 (byte P (off + 6) / 16)
  simp only [extAt, extOfBytes, pesExtended, getLsbD_pktByte P h6, getLsbD_pktByte P h7, extractLsb'_pktByte P h6,
    extractLsb'_pktByte P h7, ofNat_byte P (show off + 8 < 188 by omega), PesExt.mk.injEq, and_true]
  exact ⟨hsc.symm, trivial, trivial, trivial, trivial, rfl⟩

/-- R93: the choice of the form. Where no seventh byte stands, the marker read from outside the packet decides nothing. -/
theorem isExtended_iff (p : Params) (P : Packet) (off : Nat) :
    isExtended p P off = true ↔
      markerIs10 (pktByte P (off + 6)) = true ∧ off + 7 ≤ 188 ∧
        p.noExtStreamIds.contains (prefixAt P off).streamId = false := by
  by_cases h : off + 7 ≤ 188
  · have hmark : markerIs10 (pktByte P (off + 6)) = (byte P (off + 6) / 64 == 2) := by
      have hlt := byte_lt P (off + 6)
      rw [Bool.eq_iff_iff, markerIs10, beq_iff_eq, extractLsb'_pktByte P (by omega), BitVec.toNat_eq, beq_iff_eq]
      show byte P (off + 6) / 64 % 4 = 2 ↔ _
      omega
    simp [isExtended, h, hmark, prefixAt, ofNat_byte P (show off + 3 < 188 by omega)]
  · simp [isExtended, h]

/-- R94 to R96: the extended form is raised or read as the spec's arithmetic says. -/
theorem extendedHeader_eq (P : Packet) {off : Nat} (h : off ≤ 182) :
    extendedHeader off (prefixAt P off) (extAt P off) =
      if 188 < off + 9 then .error (.truncatedPesExt off)
      else if 188 < off + 9 + byte P (off + 8) then .error (.truncatedPesData off (byte P (off + 8)))
      else .ok (pesExtended P off, off + 9 + byte P (off + 8)) := by
  unfold extendedHeader Config.pesExtFixedEnd
  by_cases h9 : 188 < off + 9
  · rw [if_pos (by omega), if_pos h9]
  · have hN : (extAt P off).headerDataLength.toNat = byte P (off + 8) := (byte_eq P (by omega)).symm
    have hb := congrArg Prod.fst (basicHeader_eq P h)
    rw [if_neg (by omega), if_neg h9, hN, extAt_eq P (by omega)]
    simp only [basicHeader, pesBasic, PesHeader.mk.injEq] at hb
    obtain ⟨hcode, hok, hsid, hlen, -⟩ := hb
    simp only [hcode, hok, hsid, hlen, pesExtended, pesBasic, gt_iff_lt]

/-- R90 to R96: PESH_PARSE in the spec's arithmetic. -/
theorem parsePesHeader_eq_pes (p : Params) (P : Packet) (off : Nat) : parsePesHeader p P off = pes p P off := by
  by_cases ho : off ≤ 182
  · have hoff : ¬off > 182 := by omega
    have hoff' : ¬188 < off + 6 := by omega
    have hx := isExtended_iff p P off
    simp only [parsePesHeader, pesHeaderAt, pes, hoff, hoff', if_false, basicHeader_eq P ho]
    by_cases hm : markerIs10 (pktByte P (off + 6)) = true
    · by_cases hform : 188 - off ≥ 7 ∧ p.noExtStreamIds.contains (prefixAt P off).streamId = false
      · have hext : isExtended p P off = true := hx.mpr ⟨hm, by omega, hform.2⟩
        simp only [hm, hform, hext, extendedHeader_eq P ho, if_true, and_self, reduceCtorEq, if_false]
      · have hbasic : isExtended p P off = false :=
          Bool.eq_false_iff.mpr fun he => hform ⟨by have := (hx.mp he).2.1; omega, (hx.mp he).2.2⟩
        simp only [hm, hform, hbasic, if_true, if_false]
    · have hbasic : isExtended p P off = false := Bool.eq_false_iff.mpr fun he => hm (hx.mp he).1
      simp only [hm, hbasic, if_false, if_true, Bool.false_eq_true]
  · have hoff : off > 182 := by omega
    have hoff' : 188 < off + 6 := by omega
    simp only [parsePesHeader, pesHeaderAt, pes, hoff, hoff', if_true]

end Sys2Proof.Claims
end

section
/-! PROOFS (spec/10_state.md, the effects). What a STEP and, behind it, any instruction that answers can do to the machine:
`execStep_cases` and `exec_effect`. The invariants, the writers of each register and the shape of the output follow from them. -/

namespace Sys2Proof.Machine

open Sys2Proof.Claims

/-! ### STEP and the packet classes -/

/-- STEP's admission check answers only with a PID set (R126, R172). -/
theorem admission_eq_next {s t : State} {rest : Host.Outcome State Fault Refusal} :
    admission s rest = .next t ↔ s.inst.pidValid = true ∧ rest = .next t := by
  unfold admission
  split <;> simp_all

theorem admission_refused {s : State} (hv : s.inst.pidValid = false) (rest : Host.Outcome State Fault Refusal) :
    admission s rest = .refused .stepBeforeSetPid := by
  simp [admission, hv]

/-- How the steps after TSH_PARSE answer: with the condition of AF_PARSE, or with what the assembler answers. -/
theorem afterHeader_cases {h : TsHeader} {field : Except Condition AdaptationField}
    {assemble : AdaptationField → Inst → AbsorbOutcome} {s t : State} (ht : afterHeader h field assemble s = .next t) :
    (∃ cond, field = .error cond ∧ t = { s with out := .output (earlyOutput cond.status (some h)) }) ∨
      ∃ a r d, field = .ok a ∧ assemble a s.inst = .next (r, d) ∧
        t = { s with inst := d, out := .output (absorbOutput h a r) } := by
  cases field with
  | error cond => exact .inl ⟨cond, rfl, (Host.Outcome.next.inj ht).symm⟩
  | ok a =>
    obtain ⟨⟨r, d⟩, hr, ht⟩ := (andThen_eq_next _).mp ht
    exact .inr ⟨a, r, d, rfl, hr, (Host.Outcome.next.inj ht).symm⟩

/-- ABSORB of a continuation packet, with its payload bit `b`. -/
theorem absorbPacket_continuation {p : Params} {P : Packet} {h : TsHeader} {b : Bool} (hu : h.pusi = false)
    (hb : hasPayload h = b) :
    absorbPacket p P h =
      fun a c => matchPid h.pid c (continueUnit p P h.cc (if b then some (payloadOffset a) else none) c) := by
  funext a c
  simp [absorbPacket, hu, hb]

theorem hasPayload_classHeader (pusi : Bool) (afc : BitVec 2) (f : PktFields) :
    hasPayload (classHeader pusi afc f) = decide (afc.toNat % 2 = 1) := by
  simp [hasPayload, classHeader, BitVec.getLsbD, Nat.testBit_zero]

/-- The steps of a packet class with a valid sync byte, from its header and its adaptation field: those of STEP. -/
def classSteps (h : TsHeader) (field : Packet → Except Condition AdaptationField) (body : Body) (s : State) :
    Host.Outcome State Fault Refusal :=
  admission s (afterHeader h (field (packetOf h body)) (absorbPacket s.params (packetOf h body) h) s)

/-- The field of a packet whose afc announces none (R86). -/
def noField (_ : Packet) : Except Condition AdaptationField := .ok AdaptationField.absent

section Classes
variable (f : PktFields) (body : Body) (s : State)

/-! What a class fixes (where the payload begins, and whether there is one) is what the assembler finds in the class's header
(R131 to R138). -/

theorem exec_pktSRsv : exec (.pktSRsv f body) s = classSteps (classHeader true 0 f) noField body s := rfl
theorem exec_pktSPay : exec (.pktSPay f body) s = classSteps (classHeader true 1 f) noField body s := rfl
theorem exec_pktSAf : exec (.pktSAf f body) s = classSteps (classHeader true 2 f) (parseField · 2) body s := rfl
theorem exec_pktSAfpay : exec (.pktSAfpay f body) s = classSteps (classHeader true 3 f) (parseField · 3) body s := rfl

theorem exec_pktCRsv : exec (.pktCRsv f body) s = classSteps (classHeader false 0 f) noField body s := by
  rw [classSteps, absorbPacket_continuation rfl (hasPayload_classHeader false 0 f)]; rfl

theorem exec_pktCPay : exec (.pktCPay f body) s = classSteps (classHeader false 1 f) noField body s := by
  rw [classSteps, absorbPacket_continuation rfl (hasPayload_classHeader false 1 f)]; rfl

theorem exec_pktCAf : exec (.pktCAf f body) s = classSteps (classHeader false 2 f) (parseField · 2) body s := by
  rw [classSteps, absorbPacket_continuation rfl (hasPayload_classHeader false 2 f)]; rfl

theorem exec_pktCAfpay : exec (.pktCAfpay f body) s = classSteps (classHeader false 3 f) (parseField · 3) body s := by
  rw [classSteps, absorbPacket_continuation rfl (hasPayload_classHeader false 3 f)]; rfl

end Classes

/-- Everything a STEP that answers can do: the sync byte, then the length of the adaptation field, then ABSORB (R126, R157). -/
inductive Steps (P : Packet) (s : State) : State → Prop
  | badSync : byte P 0 ≠ 0x47 → Steps P s { s with out := .output (earlyOutput .invalidSyncByte none) }
  | longField : byte P 0 = 0x47 → (field P (header P).afc).isSome = false →
      Steps P s { s with out := .output (earlyOutput .truncatedHeader (some (header P))) }
  | absorbed (a : AdaptationField) (r : AbsorbResult) (d : Inst) : byte P 0 = 0x47 →
      (field P (header P).afc).isSome = true → Absorbs s.params P (header P) a s.inst r d →
      Steps P s { s with inst := d, out := .output (absorbOutput (header P) a r) }

theorem execStep_cases {P : Packet} {s t : State} (ht : execStep P s = .next t) : s.inst.pidValid = true ∧ Steps P s t := by
  obtain ⟨hv, ht⟩ := admission_eq_next.mp ht
  refine ⟨hv, ?_⟩
  have hfield := parseField_isOk_iff P (header P).afc
  cases hp : parseHeader P with
  | error cond =>
    obtain ⟨hsync, rfl⟩ := parseHeader_eq_error.mp hp
    simp only [hp, finish_eq, Host.Outcome.next.injEq] at ht
    exact ht ▸ .badSync ((syncByte_iff P).not.mp hsync)
  | ok h =>
    obtain ⟨hsync, rfl⟩ := parseHeader_eq_ok.mp hp
    have hsync := (syncByte_iff P).mp hsync
    rw [headerAt_eq] at hp
    simp only [hp] at ht
    obtain ⟨cond, hf, rfl⟩ | ⟨a, r, d, hf, hr, rfl⟩ := afterHeader_cases ht
    · obtain ⟨-, -, rfl⟩ := parseField_eq_error.mp hf
      exact .longField hsync (Bool.eq_false_iff.mpr fun hs => by simp [hf] at hfield; simp [hfield] at hs)
    · exact .absorbed a r d hsync (hfield.mp ⟨a, hf⟩) (absorbPacket_cases hr)

/-! ### The effect of an instruction -/

/-- The instruction calls the assembler: STEP, a packet class or ABSORB. -/
abbrev CallsAssembler (i : Instr) : Prop := isPacketClass i = true ∨ (∃ P, i = .step P) ∨ ∃ P h a, i = .absorb P h a

/-- Everything an instruction that answers can do to the machine (`exec_effect`). -/
inductive Effect (s : State) : Instr → State → Prop
  | value (i : Instr) (r : Result) : Effect s i { s with out := r }
  | form (i : Instr) (k : AfForm) (w : ParseCtx) (r : Result) : (encode 0 i).sel = .af k →
      (ParseInv s.inst.parse → ParseInv w) → Effect s i { s with inst := { s.inst with parse := w }, out := r }
  | assembler (i : Instr) (P : Packet) (h : TsHeader) (a : AdaptationField) (ar : AbsorbResult) (d : Inst) (r : Result) :
      CallsAssembler i → s.inst.pidValid = true → Absorbs s.params P h a s.inst ar d →
      Effect s i { s with inst := d, out := r }
  | setPid (p : BitVec 13) :
      Effect s (.setPid p) { s with inst := { toIdle s.inst with targetPid := p, pidValid := true }, out := .noValue }
  | flush (e : Emission) : Effect s .flush { s with inst := toIdle s.inst, out := .flushed (some e) }
  | reset (pid : BitVec 13) (n : Nat) :
      Effect s .reset { s with inst := { Inst.reset with targetPid := pid }, out := .noValue, free := n }

section Arms
variable {s t : State} {i : Instr}

theorem effect_finish {r : Result} (ht : finish r s = .next t) : Effect s i t :=
  Host.Outcome.next.inj ht ▸ .value i r

theorem effect_goOnParse {w : ParseCtx} {k : AfForm} (ht : goOnParse w s = .next t) (hk : (encode 0 i).sel = .af k)
    (hw : ParseInv s.inst.parse → ParseInv w) : Effect s i t :=
  Host.Outcome.next.inj ht ▸ .form i k w _ hk hw

theorem effect_endParse {w : ParseCtx} {k : AfForm} (ht : endParse w s = .next t) (hk : (encode 0 i).sel = .af k)
    (hw : ParseInv s.inst.parse → ParseInv w) : Effect s i t :=
  Host.Outcome.next.inj ht ▸ .form i k w _ hk hw

/-- The eight packet classes of a valid sync byte. -/
theorem effect_class {h : TsHeader} {field : Packet → Except Condition AdaptationField} {body : Body}
    (hi : isPacketClass i = true) (ht : classSteps h field body s = .next t) : Effect s i t := by
  obtain ⟨hv, ht⟩ := admission_eq_next.mp ht
  obtain ⟨cond, -, rfl⟩ | ⟨a, r, d, -, hr, rfl⟩ := afterHeader_cases ht
  · exact .value i _
  · exact .assembler i _ h a r d _ (.inl hi) hv (absorbPacket_cases hr)

theorem effect_step {P : Packet} (ht : execStep P s = .next t) : Effect s (.step P) t := by
  obtain ⟨hv, hr⟩ := execStep_cases ht
  cases hr with
  | badSync | longField => exact .value _ _
  | absorbed a r d _ _ hr => exact .assembler _ P _ a r d _ (.inr (.inl ⟨P, rfl⟩)) hv hr

theorem effect_absorb {P : Packet} {h : TsHeader} {a : AdaptationField} (ht : execAbsorb P h a s = .next t) :
    Effect s (.absorb P h a) t := by
  unfold execAbsorb at ht
  split at ht
  · rename_i hv
    obtain ⟨⟨r, d⟩, hr, ht⟩ := (andThen_eq_next _).mp ht
    exact Host.Outcome.next.inj ht ▸ .assembler _ P h a r d _ (.inr (.inr ⟨P, h, a, rfl⟩)) hv (absorbPacket_cases hr)
  · exact nomatch ht

theorem effect_afLength {len : Byte} (ht : execAfLength len s = .next t) : Effect s (.afLength len) t := by
  cases hl : lengthForm len with
  | ok w => exact effect_goOnParse (by simpa [execAfLength, hl] using ht) rfl fun _ => parseInv_lengthForm hl
  | error cond =>
    simp only [execAfLength, hl, raiseCondition_eq, Host.Outcome.next.injEq] at ht
    exact ht ▸ .form _ .length _ _ rfl fun _ => parseInv_init

theorem effect_afStuffing (ht : execAfStuffing s = .next t) : Effect s .afStuffing t := by
  unfold execAfStuffing at ht
  split at ht
  · exact effect_endParse ht rfl parseInv_stuffingForm
  · exact effect_goOnParse ht rfl id

theorem effect_afParse {P : Packet} {afc : BitVec 2} (ht : execAfParse P afc s = .next t) : Effect s i t := by
  unfold execAfParse at ht
  split at ht <;> exact effect_finish ht

theorem effect_tshParse {P : Packet} (ht : execTshParse P s = .next t) : Effect s i t := by
  unfold execTshParse at ht
  split at ht <;> exact effect_finish ht

theorem effect_endPesParse {v : Except Condition (PesHeader × Nat)} (ht : endPesParse v s = .next t) : Effect s i t := by
  unfold endPesParse at ht
  split at ht <;> exact effect_finish ht

theorem effect_flush (ht : execFlush s = .next t) : Effect s .flush t := by
  unfold execFlush at ht
  split at ht
  · obtain ⟨e, -, ht⟩ := (andThen_eq_next _).mp ht
    exact Host.Outcome.next.inj ht ▸ .flush e
  · exact effect_finish ht

theorem effect_reset (ht : execReset s = .next t) : Effect s .reset t := by
  unfold execReset at ht
  split at ht
  · exact Host.Outcome.next.inj ht ▸ .reset _ _
  · exact Host.Outcome.next.inj ht ▸ .reset _ s.free

end Arms

/-- What an instruction that answers did. -/
theorem exec_effect {i : Instr} {s t : State} (ht : exec i s = .next t) : Effect s i t := by
  cases i with
  | pktSRsv f body => exact effect_class rfl ((exec_pktSRsv f body s).symm.trans ht)
  | pktSPay f body => exact effect_class rfl ((exec_pktSPay f body s).symm.trans ht)
  | pktSAf f body => exact effect_class rfl ((exec_pktSAf f body s).symm.trans ht)
  | pktSAfpay f body => exact effect_class rfl ((exec_pktSAfpay f body s).symm.trans ht)
  | pktCRsv f body => exact effect_class rfl ((exec_pktCRsv f body s).symm.trans ht)
  | pktCPay f body => exact effect_class rfl ((exec_pktCPay f body s).symm.trans ht)
  | pktCAf f body => exact effect_class rfl ((exec_pktCAf f body s).symm.trans ht)
  | pktCAfpay f body => exact effect_class rfl ((exec_pktCAfpay f body s).symm.trans ht)
  | pktBadsync h body => exact effect_finish (admission_eq_next.mp ht).2
  | afAbsent => exact effect_endParse ht rfl fun _ => parseInv_absentForm
  | afLength len => exact effect_afLength ht
  | afEmpty => exact effect_endParse ht rfl fun _ => parseInv_emptyForm
  | afFlags f => exact effect_goOnParse ht rfl fun hw => parseInv_flagsForm hw f
  | afPcr v => exact effect_goOnParse ht rfl fun hw => parseInv_pcrForm hw v
  | afOpcr v => exact effect_goOnParse ht rfl fun hw => parseInv_opcrForm hw v
  | afSplice b => exact effect_goOnParse ht rfl fun hw => parseInv_spliceForm hw b
  | afPrivate b => exact effect_goOnParse ht rfl fun hw => parseInv_privateForm hw b
  | afExt n l p q r => exact effect_goOnParse ht rfl fun hw => parseInv_extForm hw n l p q r
  | afExtLtw v => exact effect_goOnParse ht rfl fun hw => parseInv_extLtwForm hw v
  | afExtPiecewise v => exact effect_goOnParse ht rfl fun hw => parseInv_extPiecewiseForm hw v
  | afExtSeamless v => exact effect_goOnParse ht rfl fun hw => parseInv_extSeamlessForm hw v
  | afStuffing => exact effect_afStuffing ht
  | peshBasic pre | peshExt pre x | peshParse P off => exact effect_endPesParse ht
  | tshParse P => exact effect_tshParse ht
  | afParse P afc => exact effect_afParse ht
  | absorb P h a => exact effect_absorb ht
  | step P => exact effect_step ht
  | setPid p => exact Host.Outcome.next.inj ht ▸ .setPid p
  | flush => exact effect_flush ht
  | reset => exact effect_reset ht

end Sys2Proof.Machine
end

section
/-! PROOFS (spec/10_state.md, the statements): O11, O12, O16, O54, O9, O10 and O49. -/

namespace Sys2Proof.Proofs

open Sys2Proof.Machine Sys2Proof.Claims

/-! ### The invariant of the machine -/

theorem reset_inv : State.reset.Inv := by
  intro c hc
  obtain rfl : c = Inst.reset := by simpa [State.insts, State.reset] using hc
  exact inv_reset _ 0

/-- What is left to show of a state that differs in the current core and in what no invariant reads. -/
theorem inv_of_inst {s t : State} (hs : s.Inv) (hp : t.params = s.params) (hb : t.below = s.below) (ha : t.above = s.above)
    (hi : Inst.Inv s.params s.inst → Inst.Inv s.params t.inst) : t.Inv := by
  intro c hc
  simp only [insts_eq, hb, ha, List.mem_append, List.mem_cons] at hc
  rw [hp]
  obtain hc | rfl | hc := hc
  · exact hs c (by simp [insts_eq, hc])
  · exact hi (hs _ (inst_mem_insts s))
  · exact hs c (by simp [insts_eq, hc])

/-- Whatever an instruction did, the invariant is kept. -/
theorem effect_keeps_inv {i : Instr} {s t : State} (hs : s.Inv) (he : Effect s i t) : t.Inv := by
  cases he with
  | value => exact inv_of_inst hs rfl rfl rfl id
  | form i k w r hk hw =>
    exact inv_of_inst hs rfl rfl rfl fun ⟨hidle, hasm, hcap, hbuf, hparse⟩ => ⟨hidle, hasm, hcap, hbuf, hw hparse⟩
  | assembler i P h a ar d r _ hv hr => exact inv_of_inst hs rfl rfl rfl (hr.keeps_inv hv)
  | setPid p =>
    exact inv_of_inst hs rfl rfl rfl fun ⟨_, _, _, _, hparse⟩ =>
      inv_toIdle _ (c := { s.inst with targetPid := p, pidValid := true }) hparse
  | flush e => exact inv_of_inst hs rfl rfl rfl fun ⟨_, _, _, _, hparse⟩ => inv_toIdle _ hparse
  | reset pid n => exact inv_of_inst hs rfl rfl rfl fun _ => inv_reset _ pid

/-- I4 of R20: the first copy of a unit leaves out the header and at least ten bytes before its end. -/
theorem step_started {P : Packet} {s t : State} {o : Output} (ht : exec (.step P) s = .next t) (ho : t.out = .output o)
    (hst : o.status = .assemblingStarted) :
    ∃ a ph newOffset, o.af = some a ∧ o.pesh = some ph ∧ pes s.params P (4 + a.byteCount) = .ok (ph, newOffset) ∧
      t.inst.wrOff = 188 - newOffset ∧ t.inst.wrOff ≤ 178 := by
  obtain ⟨-, hr⟩ := execStep_cases ht
  cases hr with
  | badSync | longField => cases ho; exact nomatch hst
  | absorbed a r d _ _ hr =>
    cases ho
    cases hr with
    | start emit ph n _ _ _ hq =>
      obtain ⟨-, hn, -, -⟩ := parsePesHeader_eq_ok hq
      rw [parsePesHeader_eq_pes] at hq
      refine ⟨a, ph, n, rfl, rfl, hq, rfl, ?_⟩
      show 188 - n ≤ 178
      unfold payloadOffset at hn
      omega
    | _ => exact nomatch hst

/-- Settles O11, from what each instruction can do (`exec_effect`) and, for I4, what a STEP can do (`execStep_cases`). -/
theorem invariantsAfterEveryOperation : Obligations.InvariantsAfterEveryOperation :=
  ⟨reset_inv, fun _ _ _ hs ht => effect_keeps_inv hs (exec_effect ht), fun _ _ _ _ ht ho hst => step_started ht ho hst⟩

/-- Choosing a core and taking a request keep the invariant. -/
theorem inv_of_fetch {s s' : State} {i : Instr} (hs : s.Inv) (hf : fetchRequest s = .run i s') : s'.Inv := by
  unfold fetchRequest at hf
  split at hf
  · exact nomatch hf
  · split at hf
    · exact nomatch hf
    · rename_i t hsel
      split at hf
      · exact nomatch hf
      · obtain ⟨-, rfl⟩ := Fetched.run.inj hf
        obtain ⟨hinsts, -, -⟩ := insts_of_select s hsel
        obtain ⟨_, -, rfl⟩ := (select_eq_some s).mp hsel
        intro c hc
        exact hs c (hinsts ▸ hc)

/-- Settles O12: a step holds the state, or runs one instruction from a state with the same cores. -/
theorem stepKeepsInvariant : Obligations.StepKeepsInvariant := by
  intro s t hs ht
  unfold Machine.step at ht
  split at ht
  · exact Host.Outcome.next.inj ht ▸ hs
  · exact nomatch ht
  · rename_i i s' hf
    exact effect_keeps_inv (inv_of_fetch hs hf) (exec_effect ht)

/-! ### Who writes which register -/

/-- Settles O16, one case for each thing an instruction can do. -/
theorem writersOfEachRegister : Obligations.WritersOfEachRegister := by
  intro i s t ht
  cases exec_effect ht with
  | value => exact ⟨rfl, rfl, rfl, rfl, .inl ⟨rfl, rfl, rfl⟩, by simp, .inl rfl⟩
  | form i k w r hk => exact ⟨rfl, rfl, rfl, rfl, .inl ⟨rfl, rfl, rfl⟩, by simp [registers], .inr (.inr ⟨k, hk⟩)⟩
  | assembler i P h a ar d r hi _ hr =>
    obtain ⟨hpid, hvalid, hparse⟩ := hr.keeps
    refine ⟨rfl, rfl, rfl, rfl, .inl ⟨hpid, hvalid, rfl⟩, ?_, .inl hparse⟩
    obtain hi | hi | hi := hi
    · exact .inl hi
    · exact .inr (.inl hi)
    · exact .inr (.inr (.inl hi))
  | setPid p => exact ⟨rfl, rfl, rfl, rfl, .inr (.inr ⟨p, rfl⟩), by simp, .inl rfl⟩
  | flush e => exact ⟨rfl, rfl, rfl, rfl, .inl ⟨rfl, rfl, rfl⟩, by simp, .inl rfl⟩
  | reset pid n => exact ⟨rfl, rfl, rfl, rfl, .inr (.inl rfl), by simp, .inr (.inl rfl)⟩

/-! ### The output of a STEP -/

theorem implicitFinish_isSome {c : Inst} {e : Option Emission} (h : implicitFinish c = .next e) :
    e.isSome = true ↔ c.st = .assembling := by
  unfold implicitFinish at h
  split at h
  · rename_i hs
    obtain rfl := Host.Outcome.next.inj h
    simp [hs]
  · rename_i hs
    obtain ⟨e', -, h⟩ := (andThen_eq_next _).mp h
    obtain rfl := Host.Outcome.next.inj h
    simp [hs]

/-- Which optional parts of ABSORB's result are present, and when it reports a duplicate. -/
theorem absorbs_result {p : Params} {P : Packet} {h : TsHeader} {a : AdaptationField} {c d : Inst} {r : AbsorbResult}
    (hr : Absorbs p P h a c r d) :
    (r.pesh.isSome = true ↔ r.status = .assemblingStarted) ∧
      (r.emit.isSome = true ↔ r.status = .assemblingFinished ∨
        c.st = .assembling ∧ (r.status = .assemblingStarted ∨ r.status = .truncatedHeader)) ∧
      (r.dup = true → r.status = .assemblingContinue ∧ d = c) := by
  cases hr with
  | truncated emit cond _ _ he | start emit ph n _ _ he => simp [implicitFinish_isSome he]
  | _ => simp [plainResult]

/-- Settles O54, from what a STEP can do. -/
theorem outputFields : Obligations.OutputFields := by
  intro P s t ht
  obtain ⟨-, hr⟩ := execStep_cases ht
  cases hr with
  | badSync hsync => exact ⟨_, rfl, by simp [earlyOutput, hsync]⟩
  | longField hsync hfield => exact ⟨_, rfl, by simp [earlyOutput, hsync, hfield]⟩
  | absorbed a r d hsync hfield hr =>
    obtain ⟨hpesh, hemit, hdup⟩ := absorbs_result hr
    refine ⟨_, rfl, by simp [absorbOutput, hsync], by simp [absorbOutput, hfield], hpesh,
      by simpa [absorbOutput] using hemit, fun hd => ?_⟩
    obtain ⟨hst, rfl⟩ := hdup hd
    exact ⟨hst, rfl⟩

/-! ### Reset and refusals -/

/-- Settles O9: the one core at power-on holds the reset values. -/
theorem resetMeetsInvariant : Obligations.ResetMeetsInvariant := reset_inv

/-- Settles O10: the three places where R33's values are taken, RESET with and without a PID set. -/
theorem resetValues : Obligations.ResetValues := by
  refine ⟨⟨rfl, rfl, rfl, rfl, rfl, rfl, rfl, fun _ => rfl⟩, fun s => ?_,
    fun p s => ⟨_, rfl, rfl, rfl, rfl, rfl, rfl, rfl, rfl, rfl, fun _ => rfl⟩⟩
  cases hv : s.inst.pidValid with
  | true =>
    exact ⟨_, (if_pos hv : execReset s = _), rfl, rfl, rfl, rfl, rfl, rfl, rfl, fun _ => rfl⟩
  | false =>
    exact ⟨_, (if_neg (by simp [hv]) : execReset s = _), rfl, rfl, rfl, rfl, rfl, rfl, rfl, fun _ => rfl⟩

/-- The packet classes are admitted as STEP is (R126, R172). -/
theorem packetClass_refused {i : Instr} {s : State} (hv : s.inst.pidValid = false) (hi : isPacketClass i = true) :
    exec i s = .refused .stepBeforeSetPid := by
  cases i with
  | pktSRsv | pktSPay | pktSAf | pktSAfpay | pktCRsv | pktCPay | pktCAf | pktCAfpay | pktBadsync =>
    exact admission_refused hv _
  | _ => exact nomatch hi

theorem inSequence_iff {last cc : BitVec 4} : InSequence last cc ↔ cc = nextCc last := by
  simp [InSequence, nextCc, BitVec.toNat_eq, BitVec.toNat_add]

/-- R38: the append of a payload that would begin beyond the packet is refused. -/
theorem appendPayload_refused {p : Params} {P : Packet} {cc : BitVec 4} {start : Nat} {c : Inst} (h : 188 < start) :
    appendPayload p P cc (some start) c = .refused .appendPastPacket := by
  simp [appendPayload, bufAppend, h]

/-- Settles O49: the admission check, ABSORB's own, and the append of a payload that begins beyond the packet. -/
theorem refusedOperations : Obligations.RefusedOperations := by
  refine ⟨fun i s hv hi => packetClass_refused hv hi, fun P h a s hv => ?_, ?_⟩
  · show execAbsorb P h a s = _
    simp [execAbsorb, hv]
  · intro P h a s last hv hpid hpusi hst hlast hseq hpay hbc
    have hcall : absorbPacket s.params P h a s.inst = .refused .appendPastPacket := by
      rw [absorbPacket_continuation hpusi hpay, inSequence_iff.mp hseq]
      simp only [matchPid, hpid, ne_eq, not_true_eq_false, if_false, if_true, continueUnit_inSequence hst hlast]
      rw [appendPayload_refused (by unfold payloadOffset; omega), andThen_refused]
    show execAbsorb P h a s = _
    simp [execAbsorb, hv, hcall]

end Sys2Proof.Proofs
end

section
/-! PROOFS (spec/20_memory.md): O7, O13 and O47. What a step takes from the queue, and what the assembler does to the bytes of
the buffer. -/

namespace Sys2Proof.Machine

/-! ### Taking a request -/

/-- A fetch runs `i` exactly when the oldest request names an instance of the machine and decodes to `i`. -/
theorem fetchRequest_eq_run {s s' : State} {i : Instr} :
    fetchRequest s = .run i s' ↔
      ∃ r rest c, s.queue = r :: rest ∧ s.insts[r.core]? = some c ∧ decode s.params r = .ok i ∧
        s' = { s with below := s.insts.take r.core, inst := c, above := s.insts.drop (r.core + 1), queue := rest } := by
  unfold fetchRequest
  cases hq : s.queue with
  | nil => simp
  | cons r rest =>
    cases hsel : s.select r.core with
    | none =>
      have hno : ∀ c, s.insts[r.core]? ≠ some c := fun c hc => by
        simpa [hsel] using (select_eq_some s).mpr ⟨c, hc, rfl⟩
      simp [hsel, hno]
    | some s1 =>
      obtain ⟨c, hc, rfl⟩ := (select_eq_some s).mp hsel
      cases hd : decode s.params r with
      | error e => simp [hsel, hd]
      | ok j => simp [hsel, hc, hd, eq_comm]

/-- A fetch keeps the instances and their order. -/
theorem insts_of_fetch {s s' : State} {i : Instr} (hf : fetchRequest s = .run i s') : s'.insts = s.insts := by
  obtain ⟨r, rest, c, -, hc, -, rfl⟩ := fetchRequest_eq_run.mp hf
  exact (insts_of_select s ((select_eq_some s).mpr ⟨c, hc, rfl⟩)).1

/-- A step that answers held the state, or ran the fetched instruction. -/
theorem step_eq_next {s t : State} (ht : step s = .next t) :
    t = s ∨ ∃ i s', fetchRequest s = .run i s' ∧ exec i s' = .next t := by
  unfold step at ht
  split at ht
  · exact .inl (Host.Outcome.next.inj ht).symm
  · exact nomatch ht
  · exact .inr ⟨_, _, ‹_›, ht⟩

/-! ### The bytes of the buffer -/

/-- Everything step 3b of ABSORB can do: nothing, or one copy to `wr_off` upward. -/
theorem appendPayload_cases {p : Params} {P : Packet} {cc : BitVec 4} {payload : Option Nat} {c d : Inst}
    (hd : appendPayload p P cc payload c = .next d) :
    d = c ∨ ∃ start, payload = some start ∧ start ≤ 188 ∧
      d = { c with
        lastCc := some cc
        wrOff := c.wrOff + (188 - start)
        buf := c.buf.writeBytes c.wrOff (pktFrom P start) } := by
  cases payload with
  | none => exact .inl (Host.Outcome.next.inj hd).symm
  | some start =>
    obtain ⟨c', hc', hd⟩ := (andThen_eq_next _).mp hd
    obtain ⟨hstart, -, rfl⟩ := bufAppend_eq_next.mp hc'
    exact .inr ⟨start, rfl, hstart, (Host.Outcome.next.inj hd).symm⟩

/-- A continuation packet after which a unit is open left the core alone, or appended its payload. -/
theorem Absorbs.still_open {p : Params} {P : Packet} {h : TsHeader} {a : AdaptationField} {c d : Inst} {r : AbsorbResult}
    (hr : Absorbs p P h a c r d) (hu : h.pusi = false) (hs : d.st = .assembling) :
    d = c ∨ hasPayload h = true ∧ payloadOffset a ≤ 188 ∧
      d = { c with
        lastCc := some h.cc
        wrOff := c.wrOff + (188 - payloadOffset a)
        buf := c.buf.writeBytes c.wrOff (pktFrom P (payloadOffset a)) } := by
  cases hr with
  | foreign | stray | duplicate => exact .inl rfl
  | truncated | gap | finish => exact nomatch hs
  | start _ _ _ _ hstart => exact nomatch hu.symm.trans hstart
  | goOn _ _ _ _ _ _ _ hd =>
    obtain rfl | ⟨start, hsome, hle, rfl⟩ := appendPayload_cases hd
    · exact .inl rfl
    · obtain ⟨hpay, rfl⟩ : hasPayload h = true ∧ payloadOffset a = start := by simpa using hsome
      exact .inr ⟨hpay, hle, rfl⟩

/-- Everything ABSORB as an operation of its own can do. -/
theorem execAbsorb_cases {P : Packet} {h : TsHeader} {a : AdaptationField} {s t : State}
    (ht : execAbsorb P h a s = .next t) :
    s.inst.pidValid = true ∧ ∃ r d, Absorbs s.params P h a s.inst r d ∧ t = { s with inst := d, out := .absorbed r } := by
  unfold execAbsorb at ht
  split at ht
  · rename_i hv
    obtain ⟨⟨r, d⟩, hr, ht⟩ := (andThen_eq_next _).mp ht
    exact ⟨hv, r, d, absorbPacket_cases hr, (Host.Outcome.next.inj ht).symm⟩
  · exact nomatch ht

/-- Every call of ABSORB that answers keeps the canonical form of the buffer. -/
theorem Absorbs.keeps_wf {p : Params} {P : Packet} {h : TsHeader} {a : AdaptationField} {c d : Inst} {r : AbsorbResult}
    (hr : Absorbs p P h a c r d) (hc : c.buf.wf = true) : d.buf.wf = true := by
  cases hr with
  | foreign | stray | duplicate => exact hc
  | truncated | gap | finish => rfl
  | start => exact wf_writeBytes _ [] 0 rfl
  | goOn _ _ _ _ _ _ _ hd =>
    obtain rfl | ⟨start, -, -, rfl⟩ := appendPayload_cases hd
    · exact hc
    · exact wf_writeBytes _ _ _ hc

/-- Whatever an instruction did, the other instances are as they were (R163). -/
theorem Effect.keeps_others {i : Instr} {s t : State} (he : Effect s i t) : t.below = s.below ∧ t.above = s.above := by
  cases he <;> exact ⟨rfl, rfl⟩

/-- Whatever an instruction did, the buffer of its own instance keeps the canonical form. -/
theorem Effect.keeps_wf {i : Instr} {s t : State} (he : Effect s i t) (hs : s.inst.buf.wf = true) :
    t.inst.buf.wf = true := by
  cases he with
  | value | form => exact hs
  | assembler _ _ _ _ _ _ _ _ _ hr => exact hr.keeps_wf hs
  | setPid | flush | reset => rfl

end Sys2Proof.Machine

namespace Sys2Proof.Proofs

open Sys2Proof.Machine Sys2Proof.Claims

/-- Settles O7, by the fetch of the oldest request. -/
theorem stepRunsTheDecodedInstruction : Obligations.StepRunsTheDecodedInstruction := by
  intro s r rest c i hq hc hd
  rw [Machine.step, fetchRequest_eq_run.mpr ⟨r, rest, c, hq, hc, hd, rfl⟩]

/-- Settles O13: a fetch keeps the instances, and no effect of an instruction takes a buffer out of its form. -/
theorem stepKeepsBuffersCanonical : Obligations.StepKeepsBuffersCanonical := by
  intro s t hs ht
  obtain rfl | ⟨i, s', hf, ht⟩ := step_eq_next ht
  · exact hs
  · rw [← insts_of_fetch hf] at hs
    have he := exec_effect ht
    obtain ⟨hbelow, habove⟩ := he.keeps_others
    simp only [insts_eq, List.forall_mem_append, List.forall_mem_cons, hbelow, habove] at hs ⊢
    obtain ⟨hb, hi, ha⟩ := hs
    exact ⟨hb, he.keeps_wf hi, ha⟩

/-- The bytes of the buffer after one copy of the payload, read one by one (R38). -/
theorem read_append (P : Packet) (m : Memory) (w start : Nat) :
    (∀ addr, addr < w ∨ w + (188 - start) ≤ addr → (m.writeBytes w (pktFrom P start)).read addr = m.read addr) ∧
      ∀ k, w + k < w + (188 - start) →
        ((m.writeBytes w (pktFrom P start)).read (w + k)).map BitVec.toNat = some (byte P (start + k)) := by
  constructor
  · intro addr haddr
    exact read_writeBytes_outside _ m w addr (by simpa using haddr)
  · intro k hk
    have hin : start + k < 188 := by omega
    rw [read_writeBytes_inside _ m w k (by simp; omega), getElem?_pktFrom P start k hin, byte_eq P hin]
    rfl

/-- Settles O47: a unit that is still open after a continuation packet was left alone, or got one copy of the payload. -/
theorem storedBytes : Obligations.StoredBytes := by
  intro P h a s t ht hpusi hopen
  obtain ⟨-, r, d, hr, rfl⟩ := execAbsorb_cases ht
  obtain rfl | ⟨hpay, -, rfl⟩ := hr.still_open hpusi hopen
  · exact ⟨fun _ _ => rfl, fun k hk => absurd hk (by simp), .inl rfl⟩
  · obtain ⟨houtside, hinside⟩ := read_append P s.inst.buf s.inst.wrOff (payloadOffset a)
    have hlen : 188 - payloadOffset a = 184 - a.byteCount := Nat.add_sub_add_left 4 184 a.byteCount
    exact ⟨houtside, hinside, .inr ⟨congrArg (s.inst.wrOff + ·) hlen, hpay, rfl⟩⟩

end Sys2Proof.Proofs
end

section
/-! PROOFS (spec/30_encoding.md, the round trips of the fields). Each record of the encodings is read back from the bytes that
carry it, and the bytes from the record (R36, R51 to R57). -/

namespace Sys2Proof

open Sys2Proof.Machine

/-! ### Numbers cut into bytes (R36) -/

theorem bytes_of_pid (v : BitVec 13) : v.extractLsb' 8 5 ++ v.extractLsb' 0 8 = v := BitVec.extractLsb'_append_extractLsb'

theorem bytes_of_word16 (v : BitVec 16) : v.extractLsb' 8 8 ++ v.extractLsb' 0 8 = v := BitVec.extractLsb'_append_extractLsb'

theorem bytes_of_word24 (v : BitVec 24) : v.extractLsb' 16 8 ++ v.extractLsb' 8 8 ++ v.extractLsb' 0 8 = v := by
  have hv := v.isLt
  apply BitVec.eq_of_toNat_eq
  rw [toNat_three]
  simp only [BitVec.extractLsb'_toNat, Nat.shiftRight_eq_div_pow]
  omega

theorem bytes_of_word48 (v : BitVec 48) :
    bits48 (v.extractLsb' 40 8) (v.extractLsb' 32 8) (v.extractLsb' 24 8) (v.extractLsb' 16 8) (v.extractLsb' 8 8)
      (v.extractLsb' 0 8) = v := by
  have hv := v.isLt
  apply BitVec.eq_of_toNat_eq
  rw [toNat_bits48]
  simp only [BitVec.extractLsb'_toNat, Nat.shiftRight_eq_div_pow]
  omega

/-! ### Bytes cut into fields -/

/-- Three flags and five bits: the second header byte (R51) and the extension's flag byte (R55). -/
theorem byteOfExtFlags_fields (a b c : Bool) (r : BitVec 5) :
    (byteOfExtFlags a b c r).getLsbD 7 = a ∧ (byteOfExtFlags a b c r).getLsbD 6 = b ∧
      (byteOfExtFlags a b c r).getLsbD 5 = c ∧ (byteOfExtFlags a b c r).extractLsb' 0 5 = r := by
  revert a b c r
  decide

theorem byteOfExtFlags_of_fields (e : Byte) :
    byteOfExtFlags (e.getLsbD 7) (e.getLsbD 6) (e.getLsbD 5) (e.extractLsb' 0 5) = e := by
  revert e
  decide

/-- R51: the fields of a header are read back from its four bytes. -/
theorem headerOfBytes_bytesOfHeader (h : TsHeader) :
    ∃ b0 b1 b2 b3, bytesOfHeader h = [b0, b1, b2, b3] ∧ headerOfBytes b0 b1 b2 b3 = h := by
  obtain ⟨sync, tei, pusi, prio, pid, tsc, afc, cc⟩ := h
  obtain ⟨htei, hpusi, hprio, hpid⟩ := byteOfExtFlags_fields tei pusi prio (pid.extractLsb' 8 5)
  have htsc : (tsc ++ afc ++ cc : Byte).extractLsb' 6 2 = tsc :=
    (BitVec.extractLsb'_append_eq_of_le (by omega)).trans BitVec.extractLsb'_append_eq_left
  have hafc : (tsc ++ afc ++ cc : Byte).extractLsb' 4 2 = afc :=
    (BitVec.extractLsb'_append_eq_of_le (by omega)).trans BitVec.extractLsb'_append_eq_right
  have hcc : (tsc ++ afc ++ cc : Byte).extractLsb' 0 4 = cc := BitVec.extractLsb'_append_eq_right
  refine ⟨_, _, _, _, rfl, ?_⟩
  rw [headerOfBytes, TsHeader.mk.injEq]
  exact ⟨rfl, htei, hpusi, hprio, (congrArg (· ++ pid.extractLsb' 0 8) hpid).trans (bytes_of_pid pid), htsc, hafc, hcc⟩

/-- R72: the four bytes of a packet's header are those of its fields. -/
theorem bytesOfHeader_headerOfBytes (b0 b1 b2 b3 : Byte) : bytesOfHeader (headerOfBytes b0 b1 b2 b3) = [b0, b1, b2, b3] := by
  have hpid : (b1.extractLsb' 0 5 ++ b2 : BitVec 13).extractLsb' 8 5 = b1.extractLsb' 0 5 := BitVec.extractLsb'_append_eq_left
  have h1 := byteOfExtFlags_of_fields b1
  rw [← hpid] at h1
  have h2 : (b1.extractLsb' 0 5 ++ b2 : BitVec 13).extractLsb' 0 8 = b2 := BitVec.extractLsb'_append_eq_right
  have h3 : b3.extractLsb' 6 2 ++ b3.extractLsb' 4 2 ++ b3.extractLsb' 0 4 = b3 :=
    (congrArg (· ++ b3.extractLsb' 0 4) (BitVec.extractLsb'_append_extractLsb'_eq_extractLsb' rfl)).trans
      BitVec.extractLsb'_append_extractLsb'
  rw [bytesOfHeader, List.cons.injEq, List.cons.injEq, List.cons.injEq, List.cons.injEq]
  exact ⟨rfl, h1, h2, h3, rfl⟩

theorem flagsOfByte_byteOfFlags (f : AfFlags) : flagsOfByte (byteOfFlags f) = f := by
  obtain ⟨a, b, c, d, e, f, g, h⟩ := f
  revert a b c d e f g h
  decide

/-- R54: the three parts of a PCR are read back from its 48 bits. -/
theorem pcrOfBits_bitsOfPcr (v : Pcr) : pcrOfBits (bitsOfPcr v) = v := by
  rw [pcrOfBits, bitsOfPcr]
  exact Pcr.mk.injEq _ _ _ _ _ _ ▸
    ⟨(BitVec.extractLsb'_append_eq_of_le (by omega)).trans BitVec.extractLsb'_append_eq_left,
      (BitVec.extractLsb'_append_eq_of_le (by omega)).trans BitVec.extractLsb'_append_eq_right,
      BitVec.extractLsb'_append_eq_right⟩

/-- R54: a PCR is read back from its six bytes. -/
theorem pcrOfBits_bytesOfBits48 (v : Pcr) :
    ∃ b0 b1 b2 b3 b4 b5, bytesOfBits48 (bitsOfPcr v) = [b0, b1, b2, b3, b4, b5] ∧
      pcrOfBits (bits48 b0 b1 b2 b3 b4 b5) = v :=
  ⟨_, _, _, _, _, _, rfl, (congrArg pcrOfBits (bytes_of_word48 _)).trans (pcrOfBits_bitsOfPcr v)⟩

/-- R56: the six fixed bytes of a PES header. -/
theorem prefixOfBytes_bytesOfPrefix (pre : PesPrefix) :
    ∃ c0 c1 c2 l0 l1, bytesOfPrefix pre = [c0, c1, c2, pre.streamId, l0, l1] ∧
      prefixOfBytes c0 c1 c2 pre.streamId l0 l1 = pre := by
  refine ⟨_, _, _, _, _, rfl, ?_⟩
  rw [prefixOfBytes, bytes_of_word24, bytes_of_word16]

/-- Byte A of an extended header: the marker 10, two bits and four flags (R57). -/
theorem byteA_fields (sc : BitVec 2) (f3 f2 f1 f0 : Bool) :
    let a : Byte := 0b10#2 ++ sc ++ BitVec.ofBool f3 ++ BitVec.ofBool f2 ++ BitVec.ofBool f1 ++ BitVec.ofBool f0
    markerIs10 a = true ∧ a.extractLsb' 4 2 = sc ∧ a.getLsbD 3 = f3 ∧ a.getLsbD 2 = f2 ∧ a.getLsbD 1 = f1 ∧
      a.getLsbD 0 = f0 := by
  revert sc f3 f2 f1 f0
  decide

/-- Byte B of an extended header: two bits and six flags (R57). -/
theorem byteB_fields (pd : BitVec 2) (f5 f4 f3 f2 f1 f0 : Bool) :
    let b : Byte := pd ++ BitVec.ofBool f5 ++ BitVec.ofBool f4 ++ BitVec.ofBool f3 ++ BitVec.ofBool f2 ++ BitVec.ofBool f1 ++
      BitVec.ofBool f0
    b.extractLsb' 6 2 = pd ∧ b.getLsbD 5 = f5 ∧ b.getLsbD 4 = f4 ∧ b.getLsbD 3 = f3 ∧ b.getLsbD 2 = f2 ∧
      b.getLsbD 1 = f1 ∧ b.getLsbD 0 = f0 := by
  revert pd f5 f4 f3 f2 f1 f0
  decide

/-- R57: the bytes A, B and N of an extended header, A with the marker 10. -/
theorem extOfBytes_bytesOfExt (x : PesExt) :
    ∃ a b n, bytesOfExt x = [a, b, n] ∧ markerIs10 a = true ∧ extOfBytes a b n = x := by
  obtain ⟨sc, a3, a2, a1, a0, pd, b5, b4, b3, b2, b1, b0, n⟩ := x
  obtain ⟨hmark, hsc, ha3, ha2, ha1, ha0⟩ := byteA_fields sc a3 a2 a1 a0
  obtain ⟨hpd, hb5, hb4, hb3, hb2, hb1, hb0⟩ := byteB_fields pd b5 b4 b3 b2 b1 b0
  refine ⟨_, _, _, rfl, hmark, ?_⟩
  rw [extOfBytes, PesExt.mk.injEq]
  exact ⟨hsc, ha3, ha2, ha1, ha0, hpd, hb5, hb4, hb3, hb2, hb1, hb0, rfl⟩

end Sys2Proof
end

section
/-! PROOFS (spec/30_encoding.md, the round trips of the instructions): O1 and O2. -/

namespace Sys2Proof

/-! ### Packets of 188 bytes -/

@[simp] theorem packetOfList_toList (pkt : Packet) : packetOfList pkt.toList = some pkt := by
  rw [packetOfList, dif_pos pkt.length_toList]
  rfl

@[simp] theorem bodyOfList_toList (body : Body) : bodyOfList body.toList = some body := by
  rw [bodyOfList, dif_pos body.length_toList]
  rfl

theorem exists_body {l : List Byte} (h : l.length = 184) : ∃ body : Body, body.toList = l :=
  ⟨⟨l.toArray, by simpa using h⟩, rfl⟩

theorem exists_header_body {l : List Byte} (h : l.length = 188) :
    ∃ (b0 b1 b2 b3 : Byte) (body : Body), l = b0 :: b1 :: b2 :: b3 :: body.toList := by
  match l, h with
  | b0 :: b1 :: b2 :: b3 :: rest, h =>
    obtain ⟨body, rfl⟩ := exists_body (show rest.length = 184 by simpa using h)
    exact ⟨b0, b1, b2, b3, body, rfl⟩

@[simp] theorem decodeOnPacket_toList (pkt : Packet) (mk : Packet → Instr) : decodeOnPacket pkt.toList mk = .ok (mk pkt) := by
  simp [decodeOnPacket]

/-- A packet decodes to the class of its header (R59). -/
theorem decodePacket_header_body (b0 b1 b2 b3 : Byte) (body : Body) :
    decodePacket (b0 :: b1 :: b2 :: b3 :: body.toList) = .ok (classify (headerOfBytes b0 b1 b2 b3) body) := by
  simp [decodePacket]

/-- Whatever decodes as a packet is the class of its header. -/
theorem decodePacket_eq_ok {b0 b1 b2 b3 : Byte} {rest : List Byte} {i : Instr}
    (h : decodePacket (b0 :: b1 :: b2 :: b3 :: rest) = .ok i) :
    ∃ body : Body, body.toList = rest ∧ i = classify (headerOfBytes b0 b1 b2 b3) body := by
  by_cases hlen : rest.length = 184
  · obtain ⟨body, rfl⟩ := exists_body hlen
    rw [decodePacket_header_body, Except.ok.injEq] at h
    exact ⟨body, rfl, h.symm⟩
  · simp [decodePacket, bodyOfList, hlen] at h

theorem decode_encodePacket (p : Params) (core : Nat) (h : TsHeader) (body : Body) :
    decode p (encodePacket core h body) = .ok (classify h body) := by
  obtain ⟨b0, b1, b2, b3, hbytes, hheader⟩ := headerOfBytes_bytesOfHeader h
  show decodePacket (bytesOfHeader h ++ body.toList) = _
  rw [hbytes, ← hheader]
  exact decodePacket_header_body b0 b1 b2 b3 body

/-- The rows of R59: which class stands for a header, with the header's other fields as its operands. -/
inductive RowOf (body : Body) : TsHeader → Instr → Prop
  | sRsv (f : PktFields) : RowOf body (classHeader true 0 f) (.pktSRsv f body)
  | sPay (f : PktFields) : RowOf body (classHeader true 1 f) (.pktSPay f body)
  | sAf (f : PktFields) : RowOf body (classHeader true 2 f) (.pktSAf f body)
  | sAfpay (f : PktFields) : RowOf body (classHeader true 3 f) (.pktSAfpay f body)
  | cRsv (f : PktFields) : RowOf body (classHeader false 0 f) (.pktCRsv f body)
  | cPay (f : PktFields) : RowOf body (classHeader false 1 f) (.pktCPay f body)
  | cAf (f : PktFields) : RowOf body (classHeader false 2 f) (.pktCAf f body)
  | cAfpay (f : PktFields) : RowOf body (classHeader false 3 f) (.pktCAfpay f body)
  | badsync (h : TsHeader) : h.syncByte ≠ Config.syncByte → RowOf body h (.pktBadsync h body)

theorem afc_cases (afc : BitVec 2) : afc = 0 ∨ afc = 1 ∨ afc = 2 ∨ afc = 3 := by
  revert afc
  decide

theorem classify_row (h : TsHeader) (body : Body) : RowOf body h (classify h body) := by
  obtain ⟨sync, tei, pusi, prio, pid, tsc, afc, cc⟩ := h
  by_cases hs : sync = Config.syncByte
  · subst hs
    cases pusi with
    | true =>
      obtain rfl | rfl | rfl | rfl := afc_cases afc
      · exact .sRsv ⟨tei, prio, pid, tsc, cc⟩
      · exact .sPay ⟨tei, prio, pid, tsc, cc⟩
      · exact .sAf ⟨tei, prio, pid, tsc, cc⟩
      · exact .sAfpay ⟨tei, prio, pid, tsc, cc⟩
    | false =>
      obtain rfl | rfl | rfl | rfl := afc_cases afc
      · exact .cRsv ⟨tei, prio, pid, tsc, cc⟩
      · exact .cPay ⟨tei, prio, pid, tsc, cc⟩
      · exact .cAf ⟨tei, prio, pid, tsc, cc⟩
      · exact .cAfpay ⟨tei, prio, pid, tsc, cc⟩
  · rw [classify, if_pos hs]
    exact .badsync _ hs

theorem RowOf.eq_classify {h : TsHeader} {body : Body} {i : Instr} (hi : RowOf body h i) : i = classify h body := by
  cases hi with
  | badsync _ hs => exact (if_pos hs).symm
  | _ => rfl

theorem RowOf.isPacketClass {h : TsHeader} {body : Body} {i : Instr} (hi : RowOf body h i) :
    Claims.isPacketClass i = true := by
  cases hi <;> rfl

theorem RowOf.wellFormed {h : TsHeader} {body : Body} {i : Instr} (hi : RowOf body h i) (p : Params) : WellFormed p i := by
  cases hi with
  | badsync _ hs => exact bne_iff_ne.mpr hs
  | _ => rfl

/-- A class encodes to its header's packet. -/
theorem RowOf.encode_eq {h : TsHeader} {body : Body} {i : Instr} (hi : RowOf body h i) (core : Nat) :
    encode core i = encodePacket core h body := by
  cases hi <;> rfl

theorem RowOf.decode_encode {h : TsHeader} {body : Body} {i : Instr} (hi : RowOf body h i) (p : Params) (core : Nat) :
    decode p (encode core i) = .ok i := by
  rw [hi.encode_eq, decode_encodePacket, ← hi.eq_classify]

/-! ### The other formats -/

section Formats
variable (p : Params) (core : Nat)

theorem decode_encode_afLength {len : Byte} (hl : len ≠ 0) : decode p (encode core (.afLength len)) = .ok (.afLength len) :=
  congrArg Except.ok (if_neg hl)

theorem decode_encode_afFlags (f : AfFlags) : decode p (encode core (.afFlags f)) = .ok (.afFlags f) :=
  congrArg (Except.ok ∘ Instr.afFlags) (flagsOfByte_byteOfFlags f)

theorem decode_encode_afPcr (v : Pcr) : decode p (encode core (.afPcr v)) = .ok (.afPcr v) := by
  obtain ⟨b0, b1, b2, b3, b4, b5, hbytes, hv⟩ := pcrOfBits_bytesOfBits48 v
  rw [encode, hbytes]
  exact congrArg (Except.ok ∘ Instr.afPcr) hv

theorem decode_encode_afOpcr (v : Pcr) : decode p (encode core (.afOpcr v)) = .ok (.afOpcr v) := by
  obtain ⟨b0, b1, b2, b3, b4, b5, hbytes, hv⟩ := pcrOfBits_bytesOfBits48 v
  rw [encode, hbytes]
  exact congrArg (Except.ok ∘ Instr.afOpcr) hv

theorem decode_encode_afExt (n : Byte) (l q m : Bool) (r : BitVec 5) :
    decode p (encode core (.afExt n l q m r)) = .ok (.afExt n l q m r) := by
  obtain ⟨hl, hq, hm, hr⟩ := byteOfExtFlags_fields l q m r
  show Except.ok (Instr.afExt n _ _ _ _) = _
  rw [hl, hq, hm, hr]

/-- R92: six bytes alone are the basic form. -/
theorem decode_encode_peshBasic (pre : PesPrefix) : decode p (encode core (.peshBasic pre)) = .ok (.peshBasic pre) := by
  obtain ⟨c0, c1, c2, l0, l1, hbytes, hpre⟩ := prefixOfBytes_bytesOfPrefix pre
  simp only [encode, decode, decodePes, hbytes, hpre]

/-- R93, R94: nine bytes with the marker and a stream id outside the set are the extended form. -/
theorem decode_encode_peshExt {pre : PesPrefix} {x : PesExt} (hid : pre.streamId ∉ p.noExtStreamIds) :
    decode p (encode core (.peshExt pre x)) = .ok (.peshExt pre x) := by
  obtain ⟨c0, c1, c2, l0, l1, hbytes, hpre⟩ := prefixOfBytes_bytesOfPrefix pre
  obtain ⟨a, b, n, hext, hmark, hx⟩ := extOfBytes_bytesOfExt x
  simp [encode, decode, decodePes, hbytes, hext, hpre, hmark, hid, hx]

/-- R60: the operand of SET_PID stands in two bytes, the upper five bits first. -/
theorem decode_encode_setPid (pid : BitVec 13) : decode p (encode core (.setPid pid)) = .ok (.setPid pid) := by
  have hzero : (0#3 ++ pid.extractLsb' 8 5 : Byte).extractLsb' 5 3 = 0#3 := BitVec.extractLsb'_append_eq_left
  have hhigh : (0#3 ++ pid.extractLsb' 8 5 : Byte).extractLsb' 0 5 = pid.extractLsb' 8 5 := BitVec.extractLsb'_append_eq_right
  show (if _ = _ then Except.ok _ else _) = _
  rw [if_pos hzero, hhigh, bytes_of_pid]

end Formats

end Sys2Proof

namespace Sys2Proof.Proofs

/-- Settles O1, one case for each constructor. -/
theorem decodeOfEncode : Obligations.DecodeOfEncode := by
  intro p core i hi
  cases i with
  | pktSRsv f body => exact ⟨(RowOf.sRsv f).decode_encode p core, rfl⟩
  | pktSPay f body => exact ⟨(RowOf.sPay f).decode_encode p core, rfl⟩
  | pktSAf f body => exact ⟨(RowOf.sAf f).decode_encode p core, rfl⟩
  | pktSAfpay f body => exact ⟨(RowOf.sAfpay f).decode_encode p core, rfl⟩
  | pktCRsv f body => exact ⟨(RowOf.cRsv f).decode_encode p core, rfl⟩
  | pktCPay f body => exact ⟨(RowOf.cPay f).decode_encode p core, rfl⟩
  | pktCAf f body => exact ⟨(RowOf.cAf f).decode_encode p core, rfl⟩
  | pktCAfpay f body => exact ⟨(RowOf.cAfpay f).decode_encode p core, rfl⟩
  | pktBadsync h body => exact ⟨(RowOf.badsync h (bne_iff_ne.mp hi)).decode_encode p core, rfl⟩
  | afLength len => exact ⟨decode_encode_afLength p core (bne_iff_ne.mp hi), rfl⟩
  | afFlags f => exact ⟨decode_encode_afFlags p core f, rfl⟩
  | afPcr v => exact ⟨decode_encode_afPcr p core v, rfl⟩
  | afOpcr v => exact ⟨decode_encode_afOpcr p core v, rfl⟩
  | afExt n l q m r => exact ⟨decode_encode_afExt p core n l q m r, rfl⟩
  | afExtLtw w => exact ⟨congrArg (Except.ok ∘ Instr.afExtLtw) (bytes_of_word16 w), rfl⟩
  | afExtPiecewise q => exact ⟨congrArg (Except.ok ∘ Instr.afExtPiecewise) (bytes_of_word24 q), rfl⟩
  | peshBasic pre => exact ⟨decode_encode_peshBasic p core pre, rfl⟩
  | peshExt pre x => exact ⟨decode_encode_peshExt p core (by simpa [WellFormed, wellFormed] using hi), rfl⟩
  | absorb pkt h a => exact ⟨by simp [decode, encode, of_decide_eq_true hi], rfl⟩
  | setPid pid => exact ⟨decode_encode_setPid p core pid, rfl⟩
  | tshParse pkt | afParse pkt afc | peshParse pkt off | step pkt => exact ⟨decodeOnPacket_toList pkt _, rfl⟩
  | afAbsent | afEmpty | afSplice | afPrivate | afExtSeamless | afStuffing | flush | reset => exact ⟨rfl, rfl⟩

/-- Settles O2: the bytes are a header and a body, and its class encodes to them. -/
theorem everyPacketHasOneClass : Obligations.EveryPacketHasOneClass := by
  intro p core bytes hlen
  obtain ⟨b0, b1, b2, b3, body, rfl⟩ := exists_header_body hlen
  have hrow := classify_row (headerOfBytes b0 b1 b2 b3) body
  refine ⟨_, decodePacket_header_body b0 b1 b2 b3 body, hrow.isPacketClass, hrow.wellFormed p, ?_⟩
  rw [hrow.encode_eq, encodePacket, bytesOfHeader_headerOfBytes]
  rfl

end Sys2Proof.Proofs
end

section
/-! PROOFS (spec/30_encoding.md, the layouts): O3, O4 and O5. The mask of R59 on the header word, and the parts of a PCR. -/

namespace Sys2Proof

open Sys2Proof.Machine

/-! ### The rows of R59 -/

/-- What the mask 0xFF400030 leaves of a header word: the sync byte, pusi and afc, each at its place (R51, R59). -/
def matchWord (sync : Byte) (pusi : Bool) (afc : BitVec 2) : BitVec 32 :=
  sync ++ (if pusi then 0x40#8 else 0#8) ++ 0#8 ++ (0#2 ++ afc ++ 0#4)

/-- The eight match values of R59. -/
def matchValues : List (BitVec 32) :=
  [0x47400000, 0x47400010, 0x47400020, 0x47400030, 0x47000000, 0x47000010, 0x47000020, 0x47000030]

theorem mask_secondByte (b : Byte) : b &&& 0x40#8 = if b.getLsbD 6 then 0x40#8 else 0#8 := by
  revert b
  decide

theorem mask_fourthByte (b : Byte) : b &&& 0x30#8 = 0#2 ++ b.extractLsb' 4 2 ++ 0#4 := by
  revert b
  decide

theorem maskedWord_eq (b0 b1 b2 b3 : Byte) :
    (b0 ++ b1 ++ b2 ++ b3 : BitVec 32) &&& 0xFF400030 = matchWord b0 (b1.getLsbD 6) (b3.extractLsb' 4 2) := by
  have h0 : b0 &&& 0xFF#8 = b0 := BitVec.and_allOnes
  have h2 : b2 &&& 0x00#8 = 0#8 := BitVec.and_zero
  calc (b0 ++ b1 ++ b2 ++ b3 : BitVec 32) &&& (0xFF#8 ++ 0x40#8 ++ 0x00#8 ++ 0x30#8)
      = (b0 &&& 0xFF#8) ++ (b1 &&& 0x40#8) ++ (b2 &&& 0x00#8) ++ (b3 &&& 0x30#8) := by
        refine BitVec.and_append.trans ?_
        rw [BitVec.and_append, BitVec.and_append]
    _ = matchWord b0 (b1.getLsbD 6) (b3.extractLsb' 4 2) := by rw [h0, mask_secondByte, h2, mask_fourthByte, matchWord]

theorem toNat_matchWord_div (sync : Byte) (pusi : Bool) (afc : BitVec 2) :
    (matchWord sync pusi afc).toNat / 2 ^ 24 = sync.toNat := by
  rw [matchWord, toNat_word]
  omega

/-- The match values of R59 are the masked words of the headers with a valid sync byte. -/
theorem matchWord_mem_matchValues {sync : Byte} {pusi : Bool} {afc : BitVec 2} :
    matchWord sync pusi afc ∈ matchValues ↔ sync = Config.syncByte := by
  constructor
  · intro hmem
    have hsync : ∀ m ∈ matchValues, m.toNat / 2 ^ 24 = Config.syncByte.toNat := by simp [matchValues, Config.syncByte]
    exact BitVec.eq_of_toNat_eq ((toNat_matchWord_div sync pusi afc).symm.trans (hsync _ hmem))
  · rintro rfl
    revert pusi afc
    decide

/-- The row of a class has the match value of its header. -/
theorem RowOf.rowMatch {h : TsHeader} {body : Body} {i : Instr} (hi : RowOf body h i) :
    Claims.rowMatch i = if h.syncByte = Config.syncByte then some (matchWord h.syncByte h.pusi h.afc) else none := by
  cases hi with
  | badsync _ hs => exact (if_neg hs).symm
  | _ => simp [Claims.rowMatch, matchWord, classHeader, Config.syncByte]

/-! ### The parts of a PCR -/

/-- R54: the slices of the six bytes. -/
theorem pcrOfBits_slices (b0 b1 b2 b3 b4 b5 : Byte) :
    pcrOfBits (bits48 b0 b1 b2 b3 b4 b5) =
      ⟨b0 ++ b1 ++ b2 ++ b3 ++ b4.extractLsb' 7 1, b4.extractLsb' 1 6, b4.extractLsb' 0 1 ++ b5⟩ := by
  obtain ⟨hbase, hres, hext⟩ := pcrOfBits_bits48 b0 b1 b2 b3 b4 b5
  have h4 := b4.isLt
  have hbit7 : (b4.extractLsb' 7 1).toNat = b4.toNat / 128 := by
    rw [BitVec.extractLsb'_toNat, Nat.shiftRight_eq_div_pow]; omega
  rw [Pcr.mk.injEq]
  refine ⟨BitVec.eq_of_toNat_eq ?_, BitVec.eq_of_toNat_eq ?_, BitVec.eq_of_toNat_eq ?_⟩
  · rw [toNat_pcrBase, hbit7]; exact hbase
  · rw [BitVec.extractLsb'_toNat, Nat.shiftRight_eq_div_pow]; exact hres
  · rw [toNat_pcrExt, BitVec.extractLsb'_toNat, Nat.shiftRight_eq_div_pow, pow_zero, Nat.div_one]; exact hext

/-! ### The table's words -/

/-- A word of 32 bits is the packet of its four bytes and 184 bytes 0 (log entry 9). -/
theorem decodeTableWord_packet (w : Nat) :
    decodeTableWord 32 w =
      some (classify (headerOfBytes (BitVec.ofNat 8 (w / 256 ^ 3)) (BitVec.ofNat 8 (w / 256 ^ 2)) (BitVec.ofNat 8 (w / 256 ^ 1))
        (BitVec.ofNat 8 (w / 256 ^ 0))) (Vector.replicate 184 0)) := by
  have hzeros : (Vector.replicate 184 0 : Body).toList = List.replicate 184 0 := Vector.toList_replicate
  have hbytes : (tableRequest 0 32 w).bytes = bytesOfNat 4 w ++ List.replicate 184 0 := rfl
  have hdecode : decode Params.default (tableRequest 0 32 w) = decodePacket (tableRequest 0 32 w).bytes := rfl
  rw [decodeTableWord, hdecode, hbytes, ← hzeros]
  simp only [bytesOfNat, List.cons_append, List.nil_append, decodePacket_header_body]

end Sys2Proof

namespace Sys2Proof.Claims

open Sys2Proof.Machine

/-- R54, R58: the six bytes at an offset inside the packet as the spec's sums. -/
theorem pcrAt_eq (P : Packet) {c : Nat} (h : c + 6 ≤ 188) : pcrAt P c = pcr P c := by
  obtain ⟨hbase, hres, hext⟩ := pcrOfBits_bits48 (pktByte P c) (pktByte P (c + 1)) (pktByte P (c + 2)) (pktByte P (c + 3))
    (pktByte P (c + 4)) (pktByte P (c + 5))
  simp only [← memRead_six, ← byte_eq P (show c < 188 by omega), ← byte_eq P (show c + 1 < 188 by omega),
    ← byte_eq P (show c + 2 < 188 by omega), ← byte_eq P (show c + 3 < 188 by omega),
    ← byte_eq P (show c + 4 < 188 by omega), ← byte_eq P (show c + 5 < 188 by omega)] at hbase hres hext
  rw [pcrAt, pcr, Pcr.mk.injEq]
  exact ⟨(BitVec.toNat_eq_nat.mp hbase).2, (BitVec.toNat_eq_nat.mp hres).2, (BitVec.toNat_eq_nat.mp hext).2⟩

end Sys2Proof.Claims

namespace Sys2Proof.Proofs

open Sys2Proof.Machine Sys2Proof.Claims

/-- Settles O3, by the row of the packet's class. -/
theorem classesFollowTheTable : Obligations.ClassesFollowTheTable := by
  intro p core b0 b1 b2 b3 rest i hi W
  obtain ⟨body, rfl, rfl⟩ := decodePacket_eq_ok hi
  have hrow := classify_row (headerOfBytes b0 b1 b2 b3) body
  have hmatch : Claims.rowMatch _ = if b0 = Config.syncByte then some (W &&& 0xFF400030) else none :=
    hrow.rowMatch.trans (by rw [maskedWord_eq]; rfl)
  have hmem : W &&& 0xFF400030 ∈ matchValues ↔ b0 = Config.syncByte := by rw [maskedWord_eq, matchWord_mem_matchValues]
  refine ⟨hrow.isPacketClass, fun m => ?_, ?_⟩
  · rw [hmatch]
    show _ ↔ W &&& 0xFF400030 = m ∧ m ∈ matchValues
    by_cases hs : b0 = Config.syncByte
    · rw [if_pos hs, Option.some.injEq]
      exact ⟨fun h => ⟨h, h ▸ hmem.mpr hs⟩, And.left⟩
    · rw [if_neg hs]
      exact ⟨nofun, fun ⟨h, hm⟩ => absurd (hmem.mp (h ▸ hm)) hs⟩
  · rw [hmatch]
    show _ ↔ b0 ≠ Config.syncByte
    by_cases hs : b0 = Config.syncByte <;> simp [hs]

/-- Settles O4: the decoder's slices of the six bytes, and the reader's sums (R58). -/
theorem pcrLayout : Obligations.PcrLayout := by
  refine ⟨fun p core b0 b1 b2 b3 b4 b5 => ?_, fun P c hc => ⟨rfl, pcrAt_eq P hc⟩⟩
  have hv := pcrOfBits_slices b0 b1 b2 b3 b4 b5
  exact ⟨congrArg (Except.ok ∘ Instr.afPcr) hv, congrArg (Except.ok ∘ Instr.afOpcr) hv⟩

/-- Settles O5, word by word; a packet's word is its class with a body of zeros. -/
theorem specWordsDecode : Obligations.SpecWordsDecode := by
  simp only [Obligations.SpecWordsDecode, decodeTableWord_packet]
  exact ⟨rfl, rfl, rfl, rfl, by decide, by decide, by decide, by decide, by decide, by decide⟩

end Sys2Proof.Proofs
end

section
/-! PROOFS (spec/30_encoding.md R52, spec/41_adaptation_field.md R75): O30. AF_PARSE and the walk of its forms find the same
sub-fields, each at the offset the ones before it leave. -/

namespace Sys2Proof.Claims

open Sys2Proof.Machine

/-! ### The operands at the cursor -/

theorem flagsOfByte_pktByte (P : Packet) {i : Nat} (hi : i < 188) : flagsOfByte (pktByte P i) = flags (byte P i) := by
  simp only [flagsOfByte, flags, getLsbD_pktByte P hi]

theorem memRead_two_eq (P : Packet) {c : Nat} (h : c + 2 ≤ 188) :
    memRead P c 2 = BitVec.ofNat 16 (byte P c * 256 + byte P (c + 1)) :=
  (BitVec.toNat_eq_nat.mp (by
    rw [toNat_memRead_two, byte_eq P (show c < 188 by omega), byte_eq P (show c + 1 < 188 by omega)])).2

theorem memRead_three_eq (P : Packet) {c : Nat} (h : c + 3 ≤ 188) :
    memRead P c 3 = BitVec.ofNat 24 (byte P c * 65536 + byte P (c + 1) * 256 + byte P (c + 2)) :=
  (BitVec.toNat_eq_nat.mp (by
    rw [toNat_memRead_three, byte_eq P (show c < 188 by omega), byte_eq P (show c + 1 < 188 by omega),
      byte_eq P (show c + 2 < 188 by omega)])).2

theorem lowFive_pktByte (P : Packet) {i : Nat} (hi : i < 188) :
    (pktByte P i).extractLsb' 0 5 = BitVec.ofNat 5 (byte P i % 32) := by
  rw [extractLsb'_pktByte P hi, pow_zero, Nat.div_one]
  exact (ofNat_mod_two_pow 5 _).symm

theorem ofNat_byte_bne_zero {P : Packet} {i : Nat} (h0 : 0 < byte P i) : (BitVec.ofNat 8 (byte P i) != 0) = true := by
  have hlt := byte_lt P i
  rw [bne_iff_ne, ne_eq, BitVec.toNat_eq, BitVec.toNat_ofNat, Nat.mod_eq_of_lt hlt]
  exact Nat.ne_of_gt h0

/-! ### One form on a sub-field that was not consumed yet (R78 to R83) -/

section Forms
variable {w : ParseCtx} {a : AdaptationField} {x : AfExtension} {c : Nat}

theorem flagsForm_at_five (hp : a.present = true) (hl : (a.length != 0) = true) (f : AfFlags) :
    flagsForm f ⟨a, 5⟩ = ⟨{ a with flags := f }, 6⟩ := by
  simp only [flagsForm, flagsDue, hp, hl, BEq.rfl, Bool.and_self, if_true]

theorem pcrForm_of_isNone (h : w.af.pcr.isNone = true) (v : Pcr) :
    pcrForm v w =
      ⟨{ w.af with pcr := if w.af.flags.pcrFlag then some v else w.af.pcr }, w.cur + 6 * num w.af.flags.pcrFlag⟩ := by
  rw [pcrForm, h]
  cases w.af.flags.pcrFlag <;> rfl

theorem opcrForm_of_isNone (h : w.af.opcr.isNone = true) (v : Pcr) :
    opcrForm v w =
      ⟨{ w.af with opcr := if w.af.flags.opcrFlag then some v else w.af.opcr }, w.cur + 6 * num w.af.flags.opcrFlag⟩ := by
  rw [opcrForm, h]
  cases w.af.flags.opcrFlag <;> rfl

theorem spliceForm_of_isNone (h : w.af.spliceByte.isNone = true) (b : Byte) :
    spliceForm b w =
      ⟨{ w.af with spliceByte := if w.af.flags.splicingPointFlag then some b else w.af.spliceByte },
        w.cur + num w.af.flags.splicingPointFlag⟩ := by
  rw [spliceForm, h]
  cases w.af.flags.splicingPointFlag <;> rfl

theorem privateForm_of_isNone (h : w.af.privateByte.isNone = true) (b : Byte) :
    privateForm b w =
      ⟨{ w.af with privateByte := if w.af.flags.privateDataFlag then some b else w.af.privateByte },
        w.cur + num w.af.flags.privateDataFlag⟩ := by
  rw [privateForm, h]
  cases w.af.flags.privateDataFlag <;> rfl

theorem extForm_of_flag (hf : w.af.flags.extensionFlag = true) (h : w.af.ext = none) (n : Byte) (l q m : Bool) (r : BitVec 5) :
    extForm n l q m r w = ⟨{ w.af with ext := some ⟨n, l, q, m, r, none, none, none⟩ }, w.cur + 2⟩ := by
  simp [extForm, hf, h]

theorem extForm_of_not_flag (hf : w.af.flags.extensionFlag = false) (n : Byte) (l q m : Bool) (r : BitVec 5) :
    extForm n l q m r w = w := by
  simp [extForm, hf]

theorem extLtwForm_of_none (h : x.ltw = none) (v : BitVec 16) :
    extLtwForm v ⟨{ a with ext := some x }, c⟩ =
      ⟨{ a with ext := some { x with ltw := if x.ltwFlag then some v else none } }, c + 2 * num x.ltwFlag⟩ := by
  obtain ⟨n, flag, q, m, r, y, pw, ss⟩ := x
  obtain rfl : y = none := h
  cases flag <;> rfl

theorem extPiecewiseForm_of_none (h : x.piecewiseRate = none) (v : BitVec 24) :
    extPiecewiseForm v ⟨{ a with ext := some x }, c⟩ =
      ⟨{ a with ext := some { x with piecewiseRate := if x.piecewiseRateFlag then some v else none } },
        c + 3 * num x.piecewiseRateFlag⟩ := by
  obtain ⟨n, l, flag, m, r, ltw, y, ss⟩ := x
  obtain rfl : y = none := h
  cases flag <;> rfl

theorem extSeamlessForm_of_none (h : x.seamlessSplice = none) (v : Byte) :
    extSeamlessForm v ⟨{ a with ext := some x }, c⟩ =
      ⟨{ a with ext := some { x with seamlessSplice := if x.seamlessSpliceFlag then some v else none } },
        c + num x.seamlessSpliceFlag⟩ := by
  obtain ⟨n, l, q, flag, r, ltw, pw, y⟩ := x
  obtain rfl : y = none := h
  cases flag <;> rfl

theorem extValueForms_of_none (h : w.af.ext = none) :
    (∀ v, extLtwForm v w = w) ∧ (∀ v, extPiecewiseForm v w = w) ∧ ∀ v, extSeamlessForm v w = w := by
  simp [extLtwForm, extPiecewiseForm, extSeamlessForm, h]

end Forms

/-- The extension's forms of R83, each with the bytes at the cursor it finds. -/
def walkExtension (P : Packet) (w : ParseCtx) : ParseCtx :=
  let E := byte P (w.cur + 1)
  let w := extForm (BitVec.ofNat 8 (byte P w.cur)) (bit E 7) (bit E 6) (bit E 5) (BitVec.ofNat 5 (E % 32)) w
  let w := extLtwForm (BitVec.ofNat 16 (byte P w.cur * 256 + byte P (w.cur + 1))) w
  let w := extPiecewiseForm
    (BitVec.ofNat 24 (byte P w.cur * 65536 + byte P (w.cur + 1) * 256 + byte P (w.cur + 2))) w
  extSeamlessForm (BitVec.ofNat 8 (byte P w.cur)) w

/-- The forms of R78 to R83, each with the bytes at the cursor it finds. -/
def walkSubfields (P : Packet) (w : ParseCtx) : ParseCtx :=
  let w := flagsForm (flags (byte P 5)) w
  let w := pcrForm (pcr P w.cur) w
  let w := opcrForm (pcr P w.cur) w
  let w := spliceForm (BitVec.ofNat 8 (byte P w.cur)) w
  let w := privateForm (BitVec.ofNat 8 (byte P w.cur)) w
  walkExtension P w

/-- Bytes of the extension block at `x` (R55). -/
def extBytes (P : Packet) (x : Nat) : Nat :=
  2 + 2 * num (bit (byte P (x + 1)) 7) + 3 * num (bit (byte P (x + 1)) 6) + num (bit (byte P (x + 1)) 5)

theorem walkExtension_eq (P : Packet) {w : ParseCtx} (h : w.af.ext = none) :
    walkExtension P w =
      ⟨{ w.af with ext := if w.af.flags.extensionFlag then some (extension P w.cur) else none },
        w.cur + num w.af.flags.extensionFlag * extBytes P w.cur⟩ := by
  cases hf : w.af.flags.extensionFlag with
  | false =>
    obtain ⟨hltw, hpw, hss⟩ := extValueForms_of_none h
    simp [walkExtension, extForm_of_not_flag hf, hltw, hpw, hss, num, ← h]
  | true =>
    rw [walkExtension, extForm_of_flag hf h, extLtwForm_of_none rfl, extPiecewiseForm_of_none rfl,
      extSeamlessForm_of_none rfl]
    simp [extension, extBytes, num]
    omega

/-- The bytes that the flag byte and the sub-fields take end where the extension block does (R84). -/
theorem extOff_add_extBytes (P : Packet) :
    extOff (byte P 5) + num (bit (byte P 5) 0) * extBytes P (extOff (byte P 5)) = 6 + opt P := by
  simp only [opt, optBytes, extBytes, extOff, privateOff, spliceOff, opcrOff]
  omega

/-- The record after the length byte, before any other form (R76). -/
def begun (P : Packet) : AdaptationField :=
  { bareField true (1 + byte P 4) with length := BitVec.ofNat 8 (byte P 4) }

/-- The walk over the flag byte and the sub-fields: the whole record but for the stuffing, and the bytes taken. -/
theorem walkSubfields_begun {P : Packet} (h0 : 0 < byte P 4) :
    walkSubfields P ⟨begun P, 5⟩ = ⟨{ fieldWithFlags P with stuffingCount := 0, overrun := false }, 6 + opt P⟩ := by
  rw [walkSubfields, flagsForm_at_five rfl (ofNat_byte_bne_zero h0), pcrForm_of_isNone rfl, opcrForm_of_isNone rfl,
    spliceForm_of_isNone rfl, privateForm_of_isNone rfl]
  simp only
  rw [walkExtension_eq P rfl, ← extOff_add_extBytes]
  rfl

/-! ### AF_PARSE reads at the same cursors, and inside the packet -/

/-! How far each form can move the cursor. -/

section Cursor
variable (w : ParseCtx)

theorem cur_flagsForm_le (f : AfFlags) : (flagsForm f w).cur ≤ w.cur + 1 := by
  unfold flagsForm flagsDue
  split
  · rename_i h
    simp only [Bool.and_eq_true, beq_iff_eq] at h
    obtain ⟨-, hcur⟩ := h
    simp only; omega
  · omega

theorem cur_pcrForm_le (v : Pcr) : (pcrForm v w).cur ≤ w.cur + 6 := by
  unfold pcrForm; split <;> simp

theorem cur_opcrForm_le (v : Pcr) : (opcrForm v w).cur ≤ w.cur + 6 := by
  unfold opcrForm; split <;> simp

theorem cur_spliceForm_le (b : Byte) : (spliceForm b w).cur ≤ w.cur + 1 := by
  unfold spliceForm; split <;> simp

theorem cur_privateForm_le (b : Byte) : (privateForm b w).cur ≤ w.cur + 1 := by
  unfold privateForm; split <;> simp

theorem cur_extForm_le (n : Byte) (l q m : Bool) (r : BitVec 5) : (extForm n l q m r w).cur ≤ w.cur + 2 := by
  unfold extForm; split <;> simp

theorem cur_extLtwForm_le (v : BitVec 16) : (extLtwForm v w).cur ≤ w.cur + 2 := by
  unfold extLtwForm; split
  · split <;> simp
  · simp

theorem cur_extPiecewiseForm_le (v : BitVec 24) : (extPiecewiseForm v w).cur ≤ w.cur + 3 := by
  unfold extPiecewiseForm; split
  · split <;> simp
  · simp

end Cursor

/-- The extension block begins where its three values still end inside the packet, so each is read there. -/
theorem parseExtension_eq (P : Packet) {w : ParseCtx} (hw : w.cur ≤ 180) : parseExtension P w = walkExtension P w := by
  have h0 : w.cur < 188 := by omega
  have h1 : w.cur + 1 < 188 := by omega
  simp only [parseExtension, walkExtension, ofNat_byte P h0, getLsbD_pktByte P h1, lowFive_pktByte P h1]
  have hext := cur_extForm_le w (pktByte P w.cur) (bit (byte P (w.cur + 1)) 7) (bit (byte P (w.cur + 1)) 6)
    (bit (byte P (w.cur + 1)) 5) (BitVec.ofNat 5 (byte P (w.cur + 1) % 32))
  generalize extForm _ _ _ _ _ w = w1 at hext ⊢
  rw [memRead_two_eq P (show w1.cur + 2 ≤ 188 by omega)]
  have hltw := cur_extLtwForm_le w1 (BitVec.ofNat 16 (byte P w1.cur * 256 + byte P (w1.cur + 1)))
  generalize extLtwForm _ w1 = w2 at hltw ⊢
  rw [memRead_three_eq P (show w2.cur + 3 ≤ 188 by omega)]
  have hpw := cur_extPiecewiseForm_le w2
    (BitVec.ofNat 24 (byte P w2.cur * 65536 + byte P (w2.cur + 1) * 256 + byte P (w2.cur + 2)))
  generalize extPiecewiseForm _ w2 = w3 at hpw ⊢
  rw [ofNat_byte P (show w3.cur < 188 by omega)]

/-- From the length byte on no cursor gets past offset 28, so every sub-field is read inside the packet. -/
theorem parseSubfields_eq (P : Packet) {w : ParseCtx} (hw : w.cur ≤ 5) : parseSubfields P w = walkSubfields P w := by
  simp only [parseSubfields, walkSubfields, flagsOfByte_pktByte P (show 5 < 188 by omega)]
  have hflags := cur_flagsForm_le w (flags (byte P 5))
  generalize flagsForm _ w = w1 at hflags ⊢
  rw [pcrAt_eq P (show w1.cur + 6 ≤ 188 by omega)]
  have hpcr := cur_pcrForm_le w1 (pcr P w1.cur)
  generalize pcrForm _ w1 = w2 at hpcr ⊢
  rw [pcrAt_eq P (show w2.cur + 6 ≤ 188 by omega)]
  have hopcr := cur_opcrForm_le w2 (pcr P w2.cur)
  generalize opcrForm _ w2 = w3 at hopcr ⊢
  rw [ofNat_byte P (show w3.cur < 188 by omega)]
  have hsplice := cur_spliceForm_le w3 (pktByte P w3.cur)
  generalize spliceForm _ w3 = w4 at hsplice ⊢
  rw [ofNat_byte P (show w4.cur < 188 by omega)]
  have hpriv := cur_privateForm_le w4 (pktByte P w4.cur)
  generalize privateForm _ w4 = w5 at hpriv ⊢
  exact parseExtension_eq P (by omega)

/-! ### The record with its stuffing, found both ways -/

theorem lengthForm_eq_begun {P : Packet} (h183 : byte P 4 ≤ 183) :
    lengthForm (BitVec.ofNat 8 (byte P 4)) = .ok ⟨begun P, 5⟩ := by
  have hlen : (BitVec.ofNat 8 (byte P 4)).toNat = byte P 4 := Nat.mod_eq_of_lt (byte_lt P 4)
  refine lengthForm_eq_ok.mpr ⟨by omega, ?_⟩
  rw [hlen]
  rfl

/-- R84, R85: the stuffing and the overrun complete the record. -/
theorem stuffingForm_fieldWithFlags (P : Packet) :
    stuffingForm ⟨{ fieldWithFlags P with stuffingCount := 0, overrun := false }, 6 + opt P⟩ =
      ⟨fieldWithFlags P, 6 + opt P⟩ := by
  have hlen : (BitVec.ofNat 8 (byte P 4)).toNat = byte P 4 := Nat.mod_eq_of_lt (byte_lt P 4)
  have hcount : stuffingCount (byte P 4) (opt P) = byte P 4 - opt P := by
    unfold stuffingCount; split <;> omega
  simp only [stuffingForm, fieldWithFlags, hlen, Nat.add_sub_cancel_left, hcount]
  rfl

/-- R75: AF_PARSE returns the record of a field with a flag byte. -/
theorem parseField_eq_fieldWithFlags {P : Packet} {afc : BitVec 2} (hafc : afc = 2 ∨ afc = 3) (h0 : 0 < byte P 4)
    (h183 : byte P 4 ≤ 183) : parseField P afc = .ok (fieldWithFlags P) := by
  have hne := bne_iff_ne.mp (ofNat_byte_bne_zero h0)
  have hlen := lengthForm_eq_begun h183
  rw [ofNat_byte P (show 4 < 188 by omega)] at hne hlen
  have hfield : ¬(afc = 0 ∨ afc = 1) := by obtain rfl | rfl := hafc <;> decide
  rw [parseField, if_neg hfield, if_neg hne, hlen]
  simp only
  rw [parseSubfields_eq P (Nat.le_refl 5), walkSubfields_begun h0, stuffingForm_fieldWithFlags]

/-- The state with the parse in progress `w`, nothing returned. -/
def parsing (s : State) (w : ParseCtx) : State := { s with inst := { s.inst with parse := w }, out := .noValue }

/-- A form that goes on with the parse is one step of a walk. -/
theorem walk_cons {form : Nat → Instr} (g : Nat → ParseCtx → ParseCtx)
    (h : ∀ c t, exec (form c) t = goOnParse (g c t.inst.parse) t) (rest : List (Nat → Instr)) (s : State) (w : ParseCtx) :
    walk (form :: rest) (parsing s w) = walk rest (parsing s (g w.cur w)) := by
  rw [walk, atCursor, h]
  rfl

/-- The walk of the eleven forms ends with the stuffing of what the nine in the middle found. -/
theorem walk_fieldForms {P : Packet} (h0 : 0 < byte P 4) (h183 : byte P 4 ≤ 183) (s : State) :
    walk (fieldForms P) s =
      .next { s with inst := { s.inst with parse := ⟨fieldWithFlags P, 6 + opt P⟩ }, out := .field (fieldWithFlags P) } := by
  have hlen : exec (.afLength (BitVec.ofNat 8 (byte P 4))) s = .next (parsing s ⟨begun P, 5⟩) := by
    show execAfLength _ s = _
    rw [execAfLength, lengthForm_eq_begun h183]
    rfl
  have hdue : stuffingDue ⟨{ fieldWithFlags P with stuffingCount := 0, overrun := false }, 6 + opt P⟩ = true := by
    show (true && (BitVec.ofNat 8 (byte P 4) != 0) && decide (6 ≤ 6 + opt P)) = true
    rw [ofNat_byte_bne_zero h0, decide_eq_true (Nat.le_add_right 6 _)]
    rfl
  rw [fieldForms, walk, atCursor, hlen, andThen_next,
    walk_cons (fun _ w => flagsForm (flags (byte P 5)) w) (fun _ _ => rfl),
    walk_cons (fun c w => pcrForm (pcr P c) w) (fun _ _ => rfl),
    walk_cons (fun c w => opcrForm (pcr P c) w) (fun _ _ => rfl),
    walk_cons (fun c w => spliceForm (BitVec.ofNat 8 (byte P c)) w) (fun _ _ => rfl),
    walk_cons (fun c w => privateForm (BitVec.ofNat 8 (byte P c)) w) (fun _ _ => rfl),
    walk_cons (fun c w => extForm (BitVec.ofNat 8 (byte P c)) (bit (byte P (c + 1)) 7) (bit (byte P (c + 1)) 6)
      (bit (byte P (c + 1)) 5) (BitVec.ofNat 5 (byte P (c + 1) % 32)) w) (fun _ _ => rfl),
    walk_cons (fun c w => extLtwForm (BitVec.ofNat 16 (byte P c * 256 + byte P (c + 1))) w) (fun _ _ => rfl),
    walk_cons (fun c w => extPiecewiseForm
      (BitVec.ofNat 24 (byte P c * 65536 + byte P (c + 1) * 256 + byte P (c + 2))) w) (fun _ _ => rfl),
    walk_cons (fun c w => extSeamlessForm (BitVec.ofNat 8 (byte P c)) w) (fun _ _ => rfl)]
  show walk _ (parsing s (walkSubfields P ⟨begun P, 5⟩)) = _
  rw [walkSubfields_begun h0, walk, atCursor]
  show andThen (execAfStuffing (parsing s _)) _ = _
  rw [execAfStuffing, parsing, if_pos hdue, stuffingForm_fieldWithFlags]
  rfl

end Sys2Proof.Claims

namespace Sys2Proof.Proofs

open Sys2Proof.Machine Sys2Proof.Claims

/-- Settles O30: the walk and AF_PARSE both find the record of the spec's arithmetic, `fieldWithFlags`. -/
theorem afParseIsTheWalkOfItsForms : Obligations.AfParseIsTheWalkOfItsForms := by
  intro P afc s hafc h0 h183
  refine ⟨_, _, walk_fieldForms h0 h183 s, rfl, rfl, rfl, ?_⟩
  show execAfParse P afc s = _
  rw [execAfParse, parseField_eq_fieldWithFlags hafc h0 h183]
  rfl

end Sys2Proof.Proofs
end

section
/-! PROOFS (spec/40_ts_header.md): O17, O6 and O18. TSH_PARSE in the numbers of bytes 0 to 3, and the fields read back from the
formulas of R72. -/

namespace Sys2Proof.Claims

open Sys2Proof.Machine

/-! ### TSH_PARSE in numbers (R70) -/

theorem execTshParse_eq (P : Packet) (s : State) :
    execTshParse P s =
      .next { s with out := if byte P 0 = 0x47 then .header (header P) else .raised (.invalidSyncByte (BitVec.ofNat 8 (byte P 0))) } := by
  by_cases h0 : byte P 0 = 0x47
  · have hok : parseHeader P = .ok (header P) :=
      parseHeader_eq_ok.mpr ⟨(syncByte_iff P).mpr h0, (headerAt_eq P).symm⟩
    rw [execTshParse, hok, if_pos h0]; rfl
  · have herr : parseHeader P = .error (.invalidSyncByte (pktByte P 0)) :=
      parseHeader_eq_error.mpr ⟨mt (syncByte_iff P).mp h0, rfl⟩
    rw [execTshParse, herr, if_neg h0, ofNat_byte P (by omega)]; rfl

theorem header_congr {P Q : Packet} (h : AgreeOn P Q 0 4) : header P = header Q := by
  simp only [header, h 0 (by omega) (by omega), h 1 (by omega) (by omega), h 2 (by omega) (by omega),
    h 3 (by omega) (by omega)]

/-! ### The fields made into bytes and read back (R72) -/

theorem num_le_one (b : Bool) : num b ≤ 1 := by cases b <;> decide

theorem bit_eq_of_num {n i : Nat} {b : Bool} (h : n / 2 ^ i % 2 = num b) : bit n i = b := by
  rw [bit, h]; cases b <;> rfl

section Fields
variable {P : Packet} {tei pusi prio : Bool} {pid : BitVec 13} {tsc afc : BitVec 2} {cc : BitVec 4}

/-- The three flags stand above the five high bits of the pid. -/
theorem flags_of_secondByte (h1 : byte P 1 = num tei * 128 + num pusi * 64 + num prio * 32 + pid.toNat / 256) :
    bit (byte P 1) 7 = tei ∧ bit (byte P 1) 6 = pusi ∧ bit (byte P 1) 5 = prio := by
  have htei := num_le_one tei
  have hpusi := num_le_one pusi
  have hprio := num_le_one prio
  have hpid := pid.isLt
  exact ⟨bit_eq_of_num (by omega), bit_eq_of_num (by omega), bit_eq_of_num (by omega)⟩

theorem pid_of_bytes (h1 : byte P 1 = num tei * 128 + num pusi * 64 + num prio * 32 + pid.toNat / 256)
    (h2 : byte P 2 = pid.toNat % 256) : (header P).pid = pid := by
  have hpid := pid.isLt
  have hnum : pid.toNat = byte P 1 % 32 * 256 + byte P 2 := by omega
  exact (BitVec.toNat_eq_nat.mp hnum).2.symm

theorem codes_of_fourthByte (h3 : byte P 3 = tsc.toNat * 64 + afc.toNat * 16 + cc.toNat) :
    (header P).tsc = tsc ∧ (header P).afc = afc ∧ (header P).cc = cc := by
  have hafc := afc.isLt
  have hcc := cc.isLt
  have htscNum : tsc.toNat = byte P 3 / 64 := by omega
  have hafcNum : afc.toNat = byte P 3 / 16 % 4 := by omega
  have hccNum : cc.toNat = byte P 3 % 16 := by omega
  exact ⟨(BitVec.toNat_eq_nat.mp htscNum).2.symm, (BitVec.toNat_eq_nat.mp hafcNum).2.symm,
    (BitVec.toNat_eq_nat.mp hccNum).2.symm⟩

theorem header_of_fields (h0 : byte P 0 = 0x47)
    (h1 : byte P 1 = num tei * 128 + num pusi * 64 + num prio * 32 + pid.toNat / 256)
    (h2 : byte P 2 = pid.toNat % 256) (h3 : byte P 3 = tsc.toNat * 64 + afc.toNat * 16 + cc.toNat) :
    header P = ⟨0x47, tei, pusi, prio, pid, tsc, afc, cc⟩ := by
  have hsync : (header P).syncByte = 0x47 := congrArg (BitVec.ofNat 8) h0
  obtain ⟨htei, hpusi, hprio⟩ := flags_of_secondByte h1
  obtain ⟨htsc, hafc, hcc⟩ := codes_of_fourthByte h3
  rw [header, TsHeader.mk.injEq]
  exact ⟨hsync, htei, hpusi, hprio, pid_of_bytes h1 h2, htsc, hafc, hcc⟩

end Fields

/-! ### The accessors (R71) -/

/-- The truth table of R71, over the four values of afc. -/
theorem afc_bits : ∀ afc : BitVec 2,
    (afc.getLsbD 1 = true ↔ afc = 2 ∨ afc = 3) ∧ (afc.getLsbD 0 = true ↔ afc = 1 ∨ afc = 3) := by decide

end Sys2Proof.Claims

namespace Sys2Proof.Proofs

open Sys2Proof.Machine Sys2Proof.Claims

/-- Settles O17: the sync byte decides between the header of bytes 0 to 3 and the condition. -/
theorem tshParseResult : Obligations.TshParseResult := execTshParse_eq

/-- Settles O6: the result is a formula of bytes 0 to 3, and that formula inverts R72's. -/
theorem headerRoundTrip : Obligations.HeaderRoundTrip := by
  constructor
  · intro P Q s hagree
    show execTshParse P s = execTshParse Q s
    rw [execTshParse_eq, execTshParse_eq, header_congr hagree, hagree 0 (by omega) (by omega)]
  · intro P s tei pusi prio pid tsc afc cc h0 h1 h2 h3
    show execTshParse P s = _
    rw [execTshParse_eq, if_pos h0, header_of_fields h0 h1 h2 h3]

/-- Settles O18: the accessors are the two bits of afc, read in their truth table. -/
theorem headerAccessors : Obligations.HeaderAccessors := by
  intro h
  obtain ⟨hfield, hpayload⟩ := afc_bits h.afc
  exact ⟨hfield, hpayload, rfl, rfl⟩

end Sys2Proof.Proofs
end

section
/-! PROOFS (spec/41_adaptation_field.md): O19 to O25. AF_PARSE answers what `field` finds, so every statement about it is read
from `field`. -/

namespace Sys2Proof.Claims

open Sys2Proof.Machine

/-! ### What AF_PARSE finds, by afc and the length byte (R75) -/

section Find
variable {P : Packet} {afc : BitVec 2}

theorem toNat_afc_lt_two_iff : ∀ afc : BitVec 2, afc.toNat < 2 ↔ afc = 0 ∨ afc = 1 := by decide

theorem not_toNat_afc_lt_two (hafc : afc = 2 ∨ afc = 3) : ¬afc.toNat < 2 := by
  obtain rfl | rfl := hafc <;> decide

theorem field_of_noField (hafc : afc = 0 ∨ afc = 1) : field P afc = some (bareField false 0) :=
  if_pos ((toNat_afc_lt_two_iff afc).mpr hafc)

theorem field_of_zero (hafc : afc = 2 ∨ afc = 3) (h0 : byte P 4 = 0) : field P afc = some (bareField true 1) := by
  rw [field, if_neg (not_toNat_afc_lt_two hafc), if_pos h0]

theorem field_of_long (hafc : afc = 2 ∨ afc = 3) (h183 : 183 < byte P 4) : field P afc = none := by
  rw [field, if_neg (not_toNat_afc_lt_two hafc), if_neg (by omega), if_pos h183]

theorem field_of_flagByte (hafc : afc = 2 ∨ afc = 3) (h0 : 0 < byte P 4) (h183 : byte P 4 ≤ 183) :
    field P afc = some (fieldWithFlags P) := by
  rw [field, if_neg (not_toNat_afc_lt_two hafc), if_neg (by omega), if_neg (by omega)]

/-- Every record is a bare one, or the one of a field with a flag byte. -/
theorem field_eq_some {a : AdaptationField} (h : field P afc = some a) :
    a = bareField false 0 ∨ a = bareField true 1 ∨ byte P 4 ≤ 183 ∧ a = fieldWithFlags P := by
  unfold field at h
  split at h
  · exact .inl (Option.some.inj h).symm
  · split at h
    · exact .inr (.inl (Option.some.inj h).symm)
    · split at h
      · cases h
      · exact .inr (.inr ⟨by omega, (Option.some.inj h).symm⟩)

end Find

/-- What AF_PARSE returns: the record, or the condition of R76. -/
def fieldResult (P : Packet) (afc : BitVec 2) : Result :=
  ((field P afc).map Result.field).getD (.raised (.truncatedAf (BitVec.ofNat 8 (byte P 4))))

theorem fieldResult_of_some {P : Packet} {afc : BitVec 2} {a : AdaptationField} (h : field P afc = some a) :
    fieldResult P afc = .field a := by
  rw [fieldResult, h]; rfl

theorem fieldResult_of_none {P : Packet} {afc : BitVec 2} (h : field P afc = none) :
    fieldResult P afc = .raised (.truncatedAf (BitVec.ofNat 8 (byte P 4))) := by
  rw [fieldResult, h]; rfl

theorem fieldResult_eq_field {P : Packet} {afc : BitVec 2} {a : AdaptationField} (h : fieldResult P afc = .field a) :
    field P afc = some a := by
  cases hf : field P afc with
  | none => rw [fieldResult_of_none hf] at h; cases h
  | some b => rw [fieldResult_of_some hf] at h; rw [Result.field.inj h]

/-- The parse takes the same four ways as `field`. -/
theorem execAfParse_eq (P : Packet) (afc : BitVec 2) (s : State) :
    execAfParse P afc s = .next { s with out := fieldResult P afc } := by
  have h4 := ofNat_byte P (show 4 < 188 by omega)
  have hbyte := byte_eq P (show 4 < 188 by omega)
  obtain hno | hafc := or_assoc.mpr (afc_cases afc)
  · rw [execAfParse, parseField, if_pos hno, fieldResult_of_some (field_of_noField hno)]; rfl
  · have hno := mt (toNat_afc_lt_two_iff afc).mpr (not_toNat_afc_lt_two hafc)
    by_cases h0 : byte P 4 = 0
    · have hz : pktByte P 4 = 0 := by rw [← h4, h0]; rfl
      rw [execAfParse, parseField, if_neg hno, if_pos hz, fieldResult_of_some (field_of_zero hafc h0)]; rfl
    · by_cases h183 : byte P 4 ≤ 183
      · rw [execAfParse, parseField_eq_fieldWithFlags hafc (by omega) h183,
          fieldResult_of_some (field_of_flagByte hafc (by omega) h183)]
        rfl
      · have herr := parseField_eq_error.mpr ⟨hno, show 183 < (pktByte P 4).toNat by omega, rfl⟩
        rw [execAfParse, herr, fieldResult_of_none (field_of_long hafc (by omega)), h4]
        rfl

/-- A record that AF_PARSE returned is the one `field` finds. -/
theorem field_of_execAfParse {P : Packet} {afc : BitVec 2} {s t : State} {a : AdaptationField}
    (ht : execAfParse P afc s = .next t) (ho : t.out = .field a) : field P afc = some a := by
  rw [execAfParse_eq] at ht
  cases ht
  exact fieldResult_eq_field ho

/-! ### The record of a field with a flag byte (R84, R85, R87) -/

/-- Every optional of a record, the extension's included, is present exactly when its flag is set (R87). -/
def OptionalsFollowFlags (a : AdaptationField) : Prop :=
  (a.pcr.isSome = a.flags.pcrFlag ∧ a.opcr.isSome = a.flags.opcrFlag ∧ a.spliceByte.isSome = a.flags.splicingPointFlag ∧
    a.privateByte.isSome = a.flags.privateDataFlag ∧ a.ext.isSome = a.flags.extensionFlag) ∧
  (∀ x, a.ext = some x → x.ltw.isSome = x.ltwFlag ∧ x.piecewiseRate.isSome = x.piecewiseRateFlag ∧
    x.seamlessSplice.isSome = x.seamlessSpliceFlag)

/-- `opt` of R84, counted from the flags of a record. -/
def flaggedBytes (a : AdaptationField) : Nat :=
  6 * num a.flags.pcrFlag + 6 * num a.flags.opcrFlag + num a.flags.splicingPointFlag + num a.flags.privateDataFlag +
    match a.ext with
    | none => 0
    | some e => 2 + 2 * num e.ltwFlag + 3 * num e.piecewiseRateFlag + num e.seamlessSpliceFlag

theorem ite_eq_mul_num (b : Bool) (k : Nat) : (if b = true then k else 0) = k * num b := by
  cases b <;> simp [num]

theorem isSome_ite_some {α : Type} (b : Bool) (v : α) : (if b = true then some v else none).isSome = b := by
  cases b <;> rfl

/-- What was consumed is what was flagged. -/
theorem consumed_eq_flaggedBytes {a : AdaptationField} (h : OptionalsFollowFlags a) : consumed a = flaggedBytes a := by
  obtain ⟨⟨hpcr, hopcr, hsplice, hpriv, -⟩, hext⟩ := h
  simp only [consumed, flaggedBytes, hpcr, hopcr, hsplice, hpriv, ite_eq_mul_num, Nat.one_mul]
  cases hx : a.ext with
  | none => rfl
  | some x =>
    obtain ⟨hltw, hpw, hss⟩ := hext x hx
    simp only [hltw, hpw, hss]

theorem optionalsFollowFlags_bareField (present : Bool) (n : Nat) : OptionalsFollowFlags (bareField present n) :=
  ⟨⟨rfl, rfl, rfl, rfl, rfl⟩, nofun⟩

theorem optionalsFollowFlags_fieldWithFlags (P : Packet) : OptionalsFollowFlags (fieldWithFlags P) := by
  refine ⟨⟨isSome_ite_some _ _, isSome_ite_some _ _, isSome_ite_some _ _, isSome_ite_some _ _, isSome_ite_some _ _⟩, ?_⟩
  intro x hx
  obtain ⟨-, hx⟩ := Option.ite_none_right_eq_some.mp hx
  obtain rfl := Option.some.inj hx
  exact ⟨isSome_ite_some _ _, isSome_ite_some _ _, isSome_ite_some _ _⟩

theorem flaggedBytes_fieldWithFlags (P : Packet) : flaggedBytes (fieldWithFlags P) = opt P := by
  cases hext : bit (byte P 5) 0 <;> simp [flaggedBytes, fieldWithFlags, flags, opt, optBytes, extension, hext, num]

theorem opt_le (P : Packet) : opt P ≤ 22 := by
  have h4 := num_le_one (bit (byte P 5) 4)
  have h3 := num_le_one (bit (byte P 5) 3)
  have h2 := num_le_one (bit (byte P 5) 2)
  have h1 := num_le_one (bit (byte P 5) 1)
  have hext : num (bit (byte P 5) 0) * extBytes P (extOff (byte P 5)) ≤ 1 * 8 := by
    refine Nat.mul_le_mul (num_le_one _) ?_
    have h7 := num_le_one (bit (byte P (extOff (byte P 5) + 1)) 7)
    have h6 := num_le_one (bit (byte P (extOff (byte P 5) + 1)) 6)
    have h5 := num_le_one (bit (byte P (extOff (byte P 5) + 1)) 5)
    unfold extBytes; omega
  have hsum := extOff_add_extBytes P
  simp only [extOff, privateOff, spliceOff, opcrOff] at hsum hext
  omega

@[simp] theorem toNat_length_fieldWithFlags (P : Packet) : (fieldWithFlags P).length.toNat = byte P 4 :=
  Nat.mod_eq_of_lt (byte_lt P 4)

/-! ### What AF_PARSE reads (R89) -/

section Congr
variable {P Q : Packet}

theorem AgreeOn.mono {lo hi lo' hi' : Nat} (h : AgreeOn P Q lo hi) (hlo : lo ≤ lo') (hhi : hi' ≤ hi) : AgreeOn P Q lo' hi' :=
  fun i hi1 hi2 => h i (by omega) (by omega)

theorem pcr_congr {c : Nat} (h : AgreeOn P Q c (c + 6)) : pcr P c = pcr Q c := by
  simp only [pcr, h c (by omega) (by omega), h (c + 1) (by omega) (by omega), h (c + 2) (by omega) (by omega),
    h (c + 3) (by omega) (by omega), h (c + 4) (by omega) (by omega), h (c + 5) (by omega) (by omega)]

/-- The extension block is at most eight bytes: two, a ltw of two, a piecewise rate of three, a seamless splice of one. -/
theorem extension_congr {x : Nat} (h : AgreeOn P Q x (x + 8)) : extension P x = extension Q x := by
  have hpw := num_le_one (bit (byte Q (x + 1)) 7)
  have hss := num_le_one (bit (byte Q (x + 1)) 6)
  have hbyte : ∀ k, k < 8 → byte P (x + k) = byte Q (x + k) := fun k hk => h _ (by omega) (by omega)
  simp only [extension, h x (by omega) (by omega), hbyte 1 (by omega), hbyte 2 (by omega), hbyte 3 (by omega)]
  generalize num (bit (byte Q (x + 1)) 7) = l at hpw ⊢
  generalize num (bit (byte Q (x + 1)) 6) = q at hss ⊢
  simp only [h (x + 2 + 2 * l) (by omega) (by omega), h (x + 2 + 2 * l + 1) (by omega) (by omega),
    h (x + 2 + 2 * l + 2) (by omega) (by omega), h (x + 2 + 2 * l + 3 * q) (by omega) (by omega)]

/-- The four sub-fields before the extension block stand at 6 to 19, one after another. -/
theorem offsets_le (F : Nat) :
    6 ≤ opcrOff F ∧ opcrOff F ≤ 12 ∧ opcrOff F ≤ spliceOff F ∧ spliceOff F ≤ 18 ∧ spliceOff F ≤ privateOff F ∧
      privateOff F ≤ 19 ∧ privateOff F ≤ extOff F ∧ extOff F ≤ 20 := by
  have h4 := num_le_one (bit F 4)
  have h3 := num_le_one (bit F 3)
  have h2 := num_le_one (bit F 2)
  have h1 := num_le_one (bit F 1)
  simp only [extOff, privateOff, spliceOff, opcrOff]
  omega

theorem fieldWithFlags_congr (h : AgreeOn P Q 4 28) : fieldWithFlags P = fieldWithFlags Q := by
  obtain ⟨ho, ho', hs, hs', hp, hp', hx, hx'⟩ := offsets_le (byte Q 5)
  have h4 : byte P 4 = byte Q 4 := h 4 (by omega) (by omega)
  have h5 : byte P 5 = byte Q 5 := h 5 (by omega) (by omega)
  have hopt : opt P = opt Q := by rw [opt, opt, h5, h (extOff (byte Q 5) + 1) (by omega) (by omega)]
  rw [fieldWithFlags, h4, hopt]
  simp only [fieldWithFlags, h5, pcr_congr (h.mono (show 4 ≤ 6 by omega) (by omega)),
    pcr_congr (h.mono (show 4 ≤ opcrOff (byte Q 5) by omega) (by omega)),
    h (spliceOff (byte Q 5)) (by omega) (by omega), h (privateOff (byte Q 5)) (by omega) (by omega),
    extension_congr (h.mono (show 4 ≤ extOff (byte Q 5) by omega) (by omega))]

theorem fieldResult_congr (h : AgreeOn P Q 4 28) (afc : BitVec 2) : fieldResult P afc = fieldResult Q afc := by
  simp only [fieldResult, field, fieldWithFlags_congr h, h 4 (by omega) (by omega)]

end Congr

end Sys2Proof.Claims

namespace Sys2Proof.Proofs

open Sys2Proof.Machine Sys2Proof.Claims

/-- Settles O20: over 183 `field` finds nothing; up to 183 both records carry the length. -/
theorem lengthBound : Obligations.LengthBound := by
  intro P afc s hafc
  show (_ → execAfParse P afc s = _) ∧ (_ → ∃ a, execAfParse P afc s = _ ∧ _)
  constructor
  · intro hlong
    rw [execAfParse_eq, fieldResult_of_none (field_of_long hafc hlong)]
  · intro h183
    by_cases h0 : byte P 4 = 0
    · refine ⟨bareField true 1, ?_, rfl, h0.symm, by rw [h0]; rfl, Nat.le_refl 1, show 1 ≤ 184 by omega⟩
      rw [execAfParse_eq, fieldResult_of_some (field_of_zero hafc h0)]
    · refine ⟨fieldWithFlags P, ?_, rfl, toNat_length_fieldWithFlags P, rfl, Nat.le_add_right 1 _,
        show 1 + byte P 4 ≤ 184 by omega⟩
      rw [execAfParse_eq, fieldResult_of_some (field_of_flagByte hafc (by omega) h183)]

/-- Settles O22: AF_PARSE answers what `field` finds. -/
theorem fieldWithFlagByte : Obligations.FieldWithFlagByte := by
  intro P afc s hafc h0 h183
  show execAfParse P afc s = _
  rw [execAfParse_eq, fieldResult_of_some (field_of_flagByte hafc h0 h183)]

/-- Settles O23: the only records with a length are those with a flag byte, and `opt` is what their flags count. -/
theorem stuffingAndOverrun : Obligations.StuffingAndOverrun := by
  intro P afc s t a ht ho hlen
  show flaggedBytes a ≤ 22 ∧ a.stuffingCount = (if flaggedBytes a ≤ a.length.toNat then a.length.toNat - flaggedBytes a else 0) ∧
    (a.overrun = true ↔ a.length.toNat < 1 + flaggedBytes a) ∧ (a.ext.isSome = true ↔ a.flags.extensionFlag = true)
  obtain rfl | rfl | ⟨-, rfl⟩ := field_eq_some (field_of_execAfParse ht ho)
  · exact absurd rfl hlen
  · exact absurd rfl hlen
  · obtain ⟨⟨-, -, -, -, hext⟩, -⟩ := optionalsFollowFlags_fieldWithFlags P
    have hcount : byte P 4 - opt P = if opt P ≤ byte P 4 then byte P 4 - opt P else 0 := by split <;> omega
    rw [flaggedBytes_fieldWithFlags, toNat_length_fieldWithFlags, hext]
    exact ⟨opt_le P, hcount, decide_eq_true_iff, Iff.rfl⟩

/-- Settles O24: for a bare record by its fields, and with a flag byte since what was consumed is `opt`. -/
theorem fieldInvariants : Obligations.FieldInvariants := by
  intro P afc s t a ht ho
  obtain rfl | rfl | ⟨h183, rfl⟩ := field_eq_some (field_of_execAfParse ht ho)
  · exact ⟨rfl, Nat.zero_le _, fun _ hlen => absurd rfl hlen, optionalsFollowFlags_bareField false 0⟩
  · exact ⟨rfl, show 1 ≤ 184 by omega, fun _ hlen => absurd rfl hlen, optionalsFollowFlags_bareField true 1⟩
  · have hoptionals := optionalsFollowFlags_fieldWithFlags P
    rw [consumed_eq_flaggedBytes hoptionals, flaggedBytes_fieldWithFlags, toNat_length_fieldWithFlags]
    refine ⟨rfl, show 1 + byte P 4 ≤ 184 by omega, fun hover _ => ?_, hoptionals⟩
    have hroom : ¬byte P 4 < 1 + opt P := of_decide_eq_false hover
    show opt P + (byte P 4 - opt P) = byte P 4 ∧ 1 ≤ byte P 4 - opt P ∧ 1 + opt P + (byte P 4 - opt P - 1) = byte P 4
    omega

/-- Settles O25: the result is a formula of bytes that all stand at offsets 4 to 27. -/
theorem afParseReads : Obligations.AfParseReads := by
  intro P Q afc s hagree
  refine ⟨fieldResult P afc, execAfParse_eq P afc s, ?_, fun s' => execAfParse_eq P afc s'⟩
  rw [fieldResult_congr hagree]
  exact execAfParse_eq Q afc s

/-- Settles O19: AF_PARSE answers what `field` finds, and AF.ABSENT's record is that one. -/
theorem absentField : Obligations.AbsentField := by
  refine ⟨fun P afc s hafc => ?_, fun s => endParse_eq s absentForm⟩
  show execAfParse P afc s = _
  rw [execAfParse_eq, fieldResult_of_some (field_of_noField hafc)]

/-- Settles O21: AF_PARSE answers what `field` finds, and AF.EMPTY's record is that one. -/
theorem emptyField : Obligations.EmptyField := by
  refine ⟨fun P afc s hafc h0 => ?_, fun s => endParse_eq s emptyForm⟩
  show execAfParse P afc s = _
  rw [execAfParse_eq, fieldResult_of_some (field_of_zero hafc h0)]

end Sys2Proof.Proofs
end

section
/-! PROOFS (spec/41_adaptation_field.md): O26 to O29. The forms of the adaptation field one by one, each by when it is due. -/

namespace Sys2Proof.Claims

open Sys2Proof.Machine

/-! ### When a form is due (log entry 7) -/

section Due
variable {w : ParseCtx}

theorem flagsDue_iff : flagsDue w = true ↔ w.af.present = true ∧ w.af.length ≠ 0 ∧ w.cur = 5 := by
  simp only [flagsDue, Bool.and_eq_true, bne_iff_ne, beq_iff_eq, and_assoc, ne_eq]

theorem stuffingDue_iff : stuffingDue w = true ↔ w.af.present = true ∧ w.af.length ≠ 0 ∧ 6 ≤ w.cur := by
  simp only [stuffingDue, Bool.and_eq_true, bne_iff_ne, decide_eq_true_eq, and_assoc, ne_eq]

/-- A form that stores an optional where its flag is set and it was not consumed yet, and otherwise leaves the parse. -/
theorem goOnParse_guarded {α : Type} (s : State) (w : ParseCtx) (flag : Bool) (v : Option α)
    [Decidable (flag = true ∧ v = none)] :
    goOnParse (if flag && v.isNone then w else s.inst.parse) s =
      .next { s with
        inst := { s.inst with parse := if flag = true ∧ v = none then w else s.inst.parse }
        out := .noValue } := by
  have hdue : (flag && v.isNone) = true ↔ flag = true ∧ v = none := by
    rw [Bool.and_eq_true, Option.isNone_iff_eq_none]
  rw [goOnParse_eq, if_congr hdue rfl rfl]

theorem extLtwForm_of_some {x : AfExtension} (hx : w.af.ext = some x) (v : BitVec 16) :
    extLtwForm v w =
      if x.ltwFlag && x.ltw.isNone then ⟨{ w.af with ext := some { x with ltw := some v } }, w.cur + 2⟩ else w := by
  simp only [extLtwForm, hx]

theorem extPiecewiseForm_of_some {x : AfExtension} (hx : w.af.ext = some x) (v : BitVec 24) :
    extPiecewiseForm v w =
      if x.piecewiseRateFlag && x.piecewiseRate.isNone then
        ⟨{ w.af with ext := some { x with piecewiseRate := some v } }, w.cur + 3⟩
      else w := by
  simp only [extPiecewiseForm, hx]

theorem extSeamlessForm_of_some {x : AfExtension} (hx : w.af.ext = some x) (v : Byte) :
    extSeamlessForm v w =
      if x.seamlessSpliceFlag && x.seamlessSplice.isNone then
        ⟨{ w.af with ext := some { x with seamlessSplice := some v } }, w.cur + 1⟩
      else w := by
  simp only [extSeamlessForm, hx]

end Due

/-- The saturation of R84 is the natural subtraction. -/
theorem stuffingCount_eq (len opt : Nat) : stuffingCount len opt = len - opt := by
  unfold stuffingCount; split <;> omega

end Sys2Proof.Claims

namespace Sys2Proof.Proofs

open Sys2Proof.Machine Sys2Proof.Claims

/-- Settles O26: the bound decides AF.LENGTH, and AF.FLAGS is due in one state of the parse only. -/
theorem lengthAndFlagForms : Obligations.LengthAndFlagForms := by
  refine ⟨fun len s hlen => ?_, fun len s hlen => ?_, fun f s hp hl hc => ?_, fun f s hnot => ?_⟩
  · show execAfLength len s = _
    rw [execAfLength, lengthForm_eq_ok.mpr ⟨hlen, rfl⟩]
    rfl
  · show execAfLength len s = _
    rw [execAfLength, lengthForm_eq_error.mpr ⟨hlen, rfl⟩]
    rfl
  · show goOnParse (flagsForm f s.inst.parse) s = _
    rw [flagsForm, if_pos (flagsDue_iff.mpr ⟨hp, hl, hc⟩), goOnParse_eq]
  · have hdue : ¬flagsDue s.inst.parse = true := by
      rwa [flagsDue_iff, not_and_or, not_and_or, Bool.not_eq_true, not_ne_iff]
    show goOnParse (flagsForm f s.inst.parse) s = _
    rw [flagsForm, if_neg hdue, goOnParse_eq]

/-- Settles O27: each of the four is guarded by its flag and its optional. -/
theorem subfieldForms : Obligations.SubfieldForms :=
  ⟨fun _ s => goOnParse_guarded s _ s.inst.parse.af.flags.pcrFlag s.inst.parse.af.pcr,
    fun _ s => goOnParse_guarded s _ s.inst.parse.af.flags.opcrFlag s.inst.parse.af.opcr,
    fun _ s => goOnParse_guarded s _ s.inst.parse.af.flags.splicingPointFlag s.inst.parse.af.spliceByte,
    fun _ s => goOnParse_guarded s _ s.inst.parse.af.flags.privateDataFlag s.inst.parse.af.privateByte⟩

/-- Settles O28: AF.EXT is guarded as a sub-field is, its values by the extension's own flags, where there is an extension. -/
theorem extensionForms : Obligations.ExtensionForms := by
  refine ⟨fun _ _ _ _ _ s => goOnParse_guarded s _ s.inst.parse.af.flags.extensionFlag s.inst.parse.af.ext,
    fun s x hx => ⟨fun v => ?_, fun v => ?_, fun v => ?_⟩, fun s hx => ?_⟩
  · show goOnParse (extLtwForm v s.inst.parse) s = _
    rw [extLtwForm_of_some hx, goOnParse_guarded]
  · show goOnParse (extPiecewiseForm v s.inst.parse) s = _
    rw [extPiecewiseForm_of_some hx, goOnParse_guarded]
  · show goOnParse (extSeamlessForm v s.inst.parse) s = _
    rw [extSeamlessForm_of_some hx, goOnParse_guarded]
  · obtain ⟨hltw, hpw, hss⟩ := extValueForms_of_none hx
    exact ⟨fun v => congrArg (goOnParse · s) (hltw v), fun v => congrArg (goOnParse · s) (hpw v),
      fun v => congrArg (goOnParse · s) (hss v)⟩

/-- Settles O29: past the flag byte the invariant says that the cursor is 6 + the bytes consumed. -/
theorem stuffingForm : Obligations.StuffingForm := by
  rintro s ⟨-, hcur⟩
  refine ⟨fun hp hl h6 => ?_, fun hnot => ?_⟩
  · have hopt : s.inst.parse.cur - 6 = consumed s.inst.parse.af := by
      obtain ⟨hbefore, -⟩ | hafter := hcur <;> omega
    show execAfStuffing s = _
    rw [execAfStuffing, if_pos (stuffingDue_iff.mpr ⟨hp, hl, h6⟩), endParse_eq, Machine.stuffingForm, hopt, stuffingCount_eq]
    rfl
  · have hdue : ¬stuffingDue s.inst.parse = true := by
      rwa [stuffingDue_iff, not_and_or, not_and_or, Bool.not_eq_true, not_ne_iff, Nat.not_le]
    show execAfStuffing s = _
    rw [execAfStuffing, if_neg hdue, goOnParse_eq]

end Sys2Proof.Proofs
end

section
/-! PROOFS (spec/42_pes_header.md): O31 to O34. PESH_PARSE by the spec's arithmetic `pes`, and the two forms at the payload offset,
each by the branch that `pesHeaderAt` takes. -/

namespace Sys2Proof.Claims

open Sys2Proof.Machine

/-! ### What PESH_PARSE and its forms return (R90, R92, R94) -/

/-- R99, R130: the end of a PES header parse writes the returned value alone. -/
@[simp] theorem endPesParse_eq (v : Except Condition (PesHeader × Nat)) (s : State) :
    endPesParse v s = .next { s with out := pesResult v } := by
  cases v with
  | ok r => rfl
  | error cond => rfl

theorem exec_peshParse (P : Packet) (off : Nat) (s : State) :
    exec (.peshParse P off) s = .next { s with out := pesResult (pes s.params P off) } := by
  show endPesParse (parsePesHeader s.params P off) s = _
  rw [parsePesHeader_eq_pes, endPesParse_eq]

theorem exec_peshBasic (pre : PesPrefix) (s : State) :
    exec (.peshBasic pre) s =
      .next { s with out := pesResult (pesHeaderAt s.params (4 + s.inst.parse.af.byteCount) pre none) } :=
  endPesParse_eq _ s

theorem exec_peshExt (pre : PesPrefix) (x : PesExt) (s : State) :
    exec (.peshExt pre x) s =
      .next { s with out := pesResult (pesHeaderAt s.params (4 + s.inst.parse.af.byteCount) pre (some x)) } :=
  endPesParse_eq _ s

theorem pesResult_eq_pesHeader {v : Except Condition (PesHeader × Nat)} {ph : PesHeader} {n : Nat}
    (h : pesResult v = .pesHeader ph n) : v = .ok (ph, n) := by
  cases v with
  | ok r => cases h; rfl
  | error cond => cases h

/-! ### The choice of the form (R93) -/

section Choice
variable {p : Params} {P : Packet} {off : Nat}

theorem isExtended_iff_bytes :
    isExtended p P off = true ↔
      188 - off ≥ 7 ∧ byte P (off + 6) / 64 = 2 ∧ BitVec.ofNat 8 (byte P (off + 3)) ∉ p.noExtStreamIds := by
  have hseventh : off + 7 ≤ 188 ↔ 188 - off ≥ 7 := by omega
  simp only [isExtended, Bool.and_eq_true, decide_eq_true_eq, beq_iff_eq, Bool.not_eq_true', List.contains_eq_mem,
    decide_eq_false_iff_not, hseventh, and_assoc]

theorem pes_of_short (h : 182 < off) : pes p P off = .error (.truncatedPesPrefix off) := by
  rw [pes, if_pos (by omega)]

theorem pes_of_basic (h : off + 6 ≤ 188) (hx : isExtended p P off = false) : pes p P off = .ok (pesBasic P off, off + 6) := by
  rw [pes, if_neg (by omega), if_pos hx]

/-- The two ways in which PESH_PARSE returns a header. -/
theorem pes_eq_ok {ph : PesHeader} {n : Nat} (h : pes p P off = .ok (ph, n)) :
    (isExtended p P off = false ∧ ph = pesBasic P off ∧ n = off + 6) ∨
      (isExtended p P off = true ∧ ph = pesExtended P off ∧ n = off + 9 + byte P (off + 8)) := by
  by_cases h6 : 188 < off + 6
  · rw [pes_of_short (by omega)] at h; cases h
  · cases hx : isExtended p P off with
    | false => rw [pes_of_basic (by omega) hx] at h; cases h; exact .inl ⟨rfl, rfl, rfl⟩
    | true =>
      rw [pes, if_neg h6, if_neg (by simp [hx])] at h
      split_ifs at h
      cases h; exact .inr ⟨rfl, rfl, rfl⟩

end Choice

/-! ### The bytes PESH_PARSE reads (R99) -/

section Congr
variable {P Q : Packet} {off : Nat}

theorem pesBasic_congr (h : AgreeOn P Q off (off + 9)) : pesBasic P off = pesBasic Q off := by
  simp only [pesBasic, h off (by omega) (by omega), h (off + 1) (by omega) (by omega), h (off + 2) (by omega) (by omega),
    h (off + 3) (by omega) (by omega), h (off + 4) (by omega) (by omega), h (off + 5) (by omega) (by omega)]

theorem pesExtended_congr (h : AgreeOn P Q off (off + 9)) : pesExtended P off = pesExtended Q off := by
  simp only [pesExtended, pesBasic_congr h, h (off + 6) (by omega) (by omega), h (off + 7) (by omega) (by omega),
    h (off + 8) (by omega) (by omega)]

/-- Of the parameters only the set of stream ids without an extension is read. -/
theorem isExtended_congr {p q : Params} (h : AgreeOn P Q off (off + 9)) (hids : p.noExtStreamIds = q.noExtStreamIds) :
    isExtended p P off = isExtended q Q off := by
  simp only [isExtended, hids, h (off + 3) (by omega) (by omega), h (off + 6) (by omega) (by omega)]

theorem pes_congr {p q : Params} (h : AgreeOn P Q off (off + 9)) (hids : p.noExtStreamIds = q.noExtStreamIds) :
    pes p P off = pes q Q off := by
  simp only [pes, isExtended_congr h hids, pesBasic_congr h, pesExtended_congr h, h (off + 8) (by omega) (by omega)]

end Congr

/-! ### The branches of the header's bounds and forms (R91, R93, R94 to R96) -/

section Branches
variable {p : Params} {off : Nat} {pre : PesPrefix} {x : PesExt}

theorem pesHeaderAt_of_short (h : 182 < off) (ext : Option PesExt) :
    pesHeaderAt p off pre ext = .error (.truncatedPesPrefix off) :=
  if_pos h

theorem pesHeaderAt_none (h : off ≤ 182) : pesHeaderAt p off pre none = .ok (basicHeader off pre) :=
  if_neg (Nat.not_lt.mpr h)

/-- R93: with a seventh byte and a stream id outside the set the form is the extended one. -/
theorem pesHeaderAt_some (hoff : off < 182) (hid : pre.streamId ∉ p.noExtStreamIds) :
    pesHeaderAt p off pre (some x) = extendedHeader off pre x := by
  have hchosen : 188 - off ≥ 7 ∧ p.noExtStreamIds.contains pre.streamId = false := ⟨by omega, by simpa using hid⟩
  rw [pesHeaderAt, if_neg (by omega)]
  exact if_pos hchosen

/-- R93: a stream id of the set, or no seventh byte, makes the header basic (log entry 16). -/
theorem pesHeaderAt_some_of_basic (h : pre.streamId ∈ p.noExtStreamIds ∧ off ≤ 182 ∨ off = 182) :
    pesHeaderAt p off pre (some x) = .ok (basicHeader off pre) := by
  have hnot : ¬(188 - off ≥ 7 ∧ p.noExtStreamIds.contains pre.streamId = false) := by
    rintro ⟨h7, hid⟩
    obtain ⟨hmem, -⟩ | h182 := h
    · simp [hmem] at hid
    · omega
  rw [pesHeaderAt, if_neg (by omega)]
  exact if_neg hnot

theorem extendedHeader_of_short (h : 179 < off) : extendedHeader off pre x = .error (.truncatedPesExt off) :=
  if_pos (show 188 - off < 9 by omega)

theorem extendedHeader_of_long (hoff : off ≤ 179) (h : 188 < off + 9 + x.headerDataLength.toNat) :
    extendedHeader off pre x = .error (.truncatedPesData off x.headerDataLength.toNat) :=
  (if_neg (show ¬188 - off < 9 by omega)).trans (if_pos h)

theorem extendedHeader_of_fits (h : off + 9 + x.headerDataLength.toNat ≤ 188) :
    extendedHeader off pre x =
      .ok ({ (basicHeader off pre).1 with extended := true, fields := x }, off + 9 + x.headerDataLength.toNat) :=
  (if_neg (show ¬188 - off < 9 by omega)).trans (if_neg (Nat.not_lt.mpr h))

end Branches

/-- R97 on the number of the start code. -/
theorem pscOk_eq (pre : PesPrefix) : pscOk pre = decide (pre.startCode.toNat = 1) := by
  rw [Bool.eq_iff_iff, pscOk, beq_iff_eq, decide_eq_true_iff, BitVec.toNat_eq]
  rfl

end Sys2Proof.Claims

namespace Sys2Proof.Proofs

open Sys2Proof.Machine Sys2Proof.Claims

/-- Settles O31: the parse is the spec's arithmetic, and its end writes the result alone. -/
theorem peshParseResult : Obligations.PeshParseResult := exec_peshParse

/-- Settles O32: a returned header has one of two forms, and the bytes choose it. -/
theorem choiceOfPesForm : Obligations.ChoiceOfPesForm := by
  constructor
  · intro P off s t ph n ht ho
    obtain rfl := Host.Outcome.next.inj ((exec_peshParse P off s).symm.trans ht)
    obtain ⟨hx, rfl, rfl⟩ | ⟨hx, rfl, rfl⟩ := pes_eq_ok (pesResult_eq_pesHeader ho)
    · exact ⟨(Bool.eq_iff_iff.mp hx.symm).trans isExtended_iff_bytes, fun _ => rfl⟩
    · exact ⟨(Bool.eq_iff_iff.mp hx.symm).trans isExtended_iff_bytes, fun hbasic => nomatch hbasic⟩
  · intro P off s h6 hform
    have hx : isExtended s.params P off = false := by
      rw [Bool.eq_false_iff, ne_eq, isExtended_iff_bytes]
      rintro ⟨h7, hmark, hid⟩
      obtain hmem | hother | hend := hform
      · exact hid hmem
      · exact hother hmark
      · omega
    rw [exec_peshParse, pes_of_basic h6 hx]
    rfl

/-- Settles O33: the result is a formula of the bytes at off to off + 8 and of the set of stream ids. -/
theorem peshParseReads : Obligations.PeshParseReads := by
  constructor
  · intro P Q off s s' hagree hids
    refine ⟨pesResult (pes s.params P off), exec_peshParse P off s, ?_⟩
    rw [pes_congr hagree hids]
    exact exec_peshParse Q off s'
  · intro P off s hshort
    rw [exec_peshParse, pes_of_short hshort]
    rfl

/-- Settles O34: each clause is one branch of the bounds and the choice of the form. -/
theorem pesForms : Obligations.PesForms := by
  intro pre x s off
  rw [← pscOk_eq]
  refine ⟨fun hoff => ?_, fun hoff => ⟨?_, ?_⟩, fun hid hfits => ?_, fun hid hlo hhi => ?_, fun hid hoff hlong => ?_,
    fun hform => ?_⟩
  · rw [exec_peshBasic, pesHeaderAt_none hoff]; rfl
  · rw [exec_peshBasic, pesHeaderAt_of_short hoff]; rfl
  · rw [exec_peshExt, pesHeaderAt_of_short hoff]; rfl
  · rw [exec_peshExt, pesHeaderAt_some (by omega) hid, extendedHeader_of_fits hfits]; rfl
  · rw [exec_peshExt, pesHeaderAt_some hhi hid, extendedHeader_of_short hlo]; rfl
  · rw [exec_peshExt, pesHeaderAt_some (by omega) hid, extendedHeader_of_long hoff hlong]; rfl
  · rw [exec_peshExt, pesHeaderAt_some_of_basic hform]; rfl

end Sys2Proof.Proofs
end

section
/-! PROOFS (spec/43_pes_assembler.md, the assembler in the spec's terms). One equation for each arm of ABSORB, with the registers
and the result written as the statements write them; what step 3b keeps; and what ABSORB reads. -/

namespace Sys2Proof.Claims

open Sys2Proof.Machine

/-! ### The machine's tests and the spec's -/

theorem fits_of_room {p : Params} {c : Inst} {n : Nat} (h : Room p c n) : fits p.bufCap (c.wrOff + n) = true := by
  cases hc : p.bufCap with
  | none => rfl
  | some cap => exact decide_eq_true (h cap hc)

theorem not_fits_of_lt {p : Params} {cap n : Nat} (hcap : p.bufCap = some cap) (h : cap < n) : fits p.bufCap n = false := by
  rw [hcap]; exact decide_eq_false (Nat.not_le.mpr h)

theorem unitComplete_iff (c : Inst) : unitComplete c = true ↔ Complete c := by
  simp [unitComplete, Complete]

theorem hasPayload_eq (h : TsHeader) : hasPayload h = decide (h.afc.toNat % 2 = 1) := by
  simp [hasPayload, BitVec.getLsbD, Nat.testBit_zero]

/-- A payload that begins at `payloadOffset` has 184 − byte_count bytes (R111). -/
theorem payload_length (a : AdaptationField) : 188 - payloadOffset a = 184 - a.byteCount :=
  Nat.add_sub_add_left 4 184 a.byteCount

/-- R102: what step 2a emits is the open unit as it stands. -/
theorem emission_of_implicitFinish {c : Inst} {e : Emission} (hb : BufInv c) (h : implicitFinish c = .next (some e)) :
    e.data.length = e.len ∧ c.st = .assembling ∧ e = whole c := by
  rw [implicitFinish_eq hb, Host.Outcome.next.injEq] at h
  split at h
  · rename_i hst
    obtain rfl := Option.some.inj h
    exact ⟨(buf_eq_cells hb).2, hst, rfl⟩
  · exact nomatch h

/-- The PES header of a start packet stands at the payload offset (R103). -/
theorem parse_of_pes {p : Params} {P : Packet} {a : AdaptationField} {v : Except Condition (PesHeader × Nat)}
    (h : pes p P (4 + a.byteCount) = v) : parsePesHeader p P (payloadOffset a) = v :=
  (parsePesHeader_eq_pes p P _).trans h

/-- R104 to R106: the machine's sizes on 17 bits are the spec's sum. -/
theorem started_eq (P : Packet) (cc : BitVec 4) (off n : Nat) (ph : PesHeader) (c : Inst) :
    { toIdle c with
      st := .assembling
      lastCc := some cc
      pesTotal := pesTotalOf ph.pesPacketLength
      unbounded := ph.pesPacketLength == 0
      hdrLen := BitVec.ofNat 8 (n - off)
      wrOff := 188 - n
      buf := cells 0 (pktFrom P n) } = started P cc off ph n c := by
  have htotal : pesTotalOf ph.pesPacketLength = BitVec.ofNat 17 (ph.pesPacketLength.toNat + 6) :=
    (BitVec.toNat_eq_nat.mp (toNat_pesTotalOf _)).2
  have hzero : (ph.pesPacketLength == 0) = decide (ph.pesPacketLength.toNat = 0) := by
    rw [Bool.eq_iff_iff, beq_iff_eq, decide_eq_true_iff, BitVec.toNat_eq]; rfl
  rw [htotal, hzero]
  rfl

theorem slice_congr {P Q : Packet} {n : Nat} (h : AgreeOn P Q n 188) : slice P n = slice Q n := by
  refine List.ext_getElem (by simp [slice]) fun k hk _ => ?_
  have hk : n + k < 188 := by rw [slice, List.length_drop, Vector.length_toList] at hk; omega
  have hbyte := h (n + k) (Nat.le_add_right n k) hk
  simpa [slice, byte, hk, BitVec.toNat_inj] using hbyte

/-! ### The arms of ABSORB -/

section Arms
variable {p : Params} {P : Packet} {h : TsHeader} {a : AdaptationField} {c : Inst}

/-- R101. -/
theorem absorbPacket_foreign (hpid : h.pid ≠ c.targetPid) :
    absorbPacket p P h a c = .next (plainResult .unexpectedPid, c) :=
  if_pos hpid

section Target
variable (hpid : h.pid = c.targetPid)
include hpid

/-- Step 2 of R100: a start packet of the target PID. -/
theorem absorbPacket_start (hpusi : h.pusi = true) :
    absorbPacket p P h a c = startUnit p P h.cc (payloadOffset a) c := by
  rw [absorbPacket, matchPid, if_neg (not_not_intro hpid), if_pos hpusi]

/-- Step 3 of R100: a continuation packet of the target PID. -/
theorem absorbPacket_continue (hpusi : h.pusi = false) :
    absorbPacket p P h a c = continueUnit p P h.cc (if hasPayload h then some (payloadOffset a) else none) c := by
  rw [absorbPacket, matchPid, if_neg (not_not_intro hpid), if_neg (by simp [hpusi])]

/-- R102 to R106. -/
theorem absorbPacket_started {ph : PesHeader} {n : Nat} (hpusi : h.pusi = true) (hb : BufInv c)
    (hq : pes p P (4 + a.byteCount) = .ok (ph, n)) (hroom : Room p (idled c) (188 - n)) :
    absorbPacket p P h a c =
      .next (⟨.assemblingStarted, false, some ph, prior c⟩, started P h.cc (4 + a.byteCount) ph n c) := by
  have hfits : fits p.bufCap (188 - n) = true := by simpa [idled] using fits_of_room hroom
  rw [absorbPacket_start hpid hpusi, startUnit_ok hb (parse_of_pes hq) hfits, started_eq]
  rfl

/-- R118. -/
theorem absorbPacket_truncated {cond : Condition} (hpusi : h.pusi = true) (hb : BufInv c)
    (hq : pes p P (4 + a.byteCount) = .error cond) :
    absorbPacket p P h a c = .next (⟨.truncatedHeader, false, none, prior c⟩, idled c) := by
  rw [absorbPacket_start hpid hpusi, startUnit_error hb (parse_of_pes hq)]
  rfl

/-- R108. -/
theorem absorbPacket_stray (hpusi : h.pusi = false) (hclosed : c.st = .idle ∨ c.lastCc = none) :
    absorbPacket p P h a c = .next (plainResult .streamPacketLost, c) := by
  rw [absorbPacket_continue hpid hpusi]
  obtain hidle | hnone := hclosed
  · exact continueUnit_idle hidle
  · exact continueUnit_noBaseline hnone

section OpenUnit
variable {last : BitVec 4} (hpusi : h.pusi = false) (hst : c.st = .assembling) (hlast : c.lastCc = some last)
include hpusi hst hlast

/-- R109. -/
theorem absorbPacket_duplicate (hcc : h.cc = last) :
    absorbPacket p P h a c = .next (⟨.assemblingContinue, true, none, none⟩, c) := by
  rw [absorbPacket_continue hpid hpusi]
  exact continueUnit_duplicate hst (hcc ▸ hlast)

/-- R110. -/
theorem absorbPacket_gap (hdup : h.cc ≠ last) (hseq : ¬InSequence last h.cc) :
    absorbPacket p P h a c = .next (plainResult .streamPacketLost, idled c) := by
  rw [absorbPacket_continue hpid hpusi]
  exact continueUnit_gap hst hlast hdup (mt Proofs.inSequence_iff.mpr hseq)

/-- R107: a packet in sequence runs steps 3b and 3c. -/
theorem absorbPacket_inSequence (hseq : InSequence last h.cc) :
    absorbPacket p P h a c =
      andThen (appendPayload p P h.cc (if hasPayload h then some (payloadOffset a) else none) c) completionTest := by
  rw [absorbPacket_continue hpid hpusi, Proofs.inSequence_iff.mp hseq, continueUnit_inSequence hst hlast]

end OpenUnit
end Target

/-! ### Steps 3b and 3c (R111 to R113) -/

theorem bufInv_appended (hb : BufInv c) (cc : BitVec 4) (start : Nat) : BufInv (appended P cc start c) := by
  have := bufInv_append hb (pktFrom P start) (some cc)
  rwa [length_pktFrom] at this

theorem content_appended (cc : BitVec 4) (start : Nat) : content (appended P cc start c) = content c ++ slice P start :=
  map_snd_cells _ 0

/-- Step 3b appends the payload where there is one. -/
theorem appendPayload_eq_afterPayload (hb : BufInv c)
    (hroom : h.afc.toNat % 2 = 1 → a.byteCount ≤ 184 ∧ Room p c (184 - a.byteCount)) :
    appendPayload p P h.cc (if hasPayload h then some (payloadOffset a) else none) c = .next (afterPayload P h a c) := by
  rw [afterPayload, hasPayload_eq]
  by_cases hpay : h.afc.toNat % 2 = 1
  · obtain ⟨hbc, hroom⟩ := hroom hpay
    have hfits := fits_of_room hroom
    rw [← payload_length] at hfits
    rw [if_pos (decide_eq_true hpay), if_pos hpay]
    exact appendPayload_eq hb (Nat.add_le_add_left hbc 4) hfits
  · rw [if_neg (by simp [hpay]), if_neg hpay]
    rfl

theorem bufInv_afterPayload (hb : BufInv c) : BufInv (afterPayload P h a c) := by
  unfold afterPayload
  split
  · exact bufInv_appended hb _ _
  · exact hb

/-- Step 3c is the spec's conclusion. -/
theorem completionTest_eq_conclusion (hb : BufInv c) : completionTest c = .next (conclusion c, concluded c) := by
  rw [completionTest_eq hb, conclusion, concluded]
  by_cases hc : Complete c
  · rw [if_pos ((unitComplete_iff c).mpr hc), if_pos hc, if_pos hc]; rfl
  · rw [if_neg (mt (unitComplete_iff c).mp hc), if_neg hc, if_neg hc]; rfl

/-- R111 to R113, with payload and without. -/
theorem absorbPacket_concluded {last : BitVec 4} (hpid : h.pid = c.targetPid) (hpusi : h.pusi = false)
    (hst : c.st = .assembling) (hlast : c.lastCc = some last) (hseq : InSequence last h.cc) (hb : BufInv c)
    (hroom : h.afc.toNat % 2 = 1 → a.byteCount ≤ 184 ∧ Room p c (184 - a.byteCount)) :
    absorbPacket p P h a c = .next (conclusion (afterPayload P h a c), concluded (afterPayload P h a c)) := by
  rw [absorbPacket_inSequence hpid hpusi hst hlast hseq, appendPayload_eq_afterPayload hb hroom, andThen_next,
    completionTest_eq_conclusion (bufInv_afterPayload hb)]

/-- R122 on a continuation packet. -/
theorem appendPayload_overflow {cc : BitVec 4} {start : Nat} (hstart : start ≤ 188)
    (hfits : fits p.bufCap (c.wrOff + (188 - start)) = false) :
    appendPayload p P cc (some start) c = .fault .bufferOverflow := by
  rw [appendPayload, bufAppend_overflow hstart hfits, andThen_fault]

/-- Step 3b writes the counter and the buffer alone. -/
theorem appendPayload_keeps {cc : BitVec 4} {payload : Option Nat} {d : Inst} (hd : appendPayload p P cc payload c = .next d) :
    idled d = idled c ∧ d.unbounded = c.unbounded ∧ d.hdrLen = c.hdrLen ∧ d.pesTotal = c.pesTotal := by
  obtain rfl | ⟨start, -, -, rfl⟩ := appendPayload_cases hd <;> exact ⟨rfl, rfl, rfl, rfl⟩

/-- Step 3b keeps the bytes that stand in the buffer, and its form. -/
theorem appendPayload_content {cc : BitVec 4} {payload : Option Nat} {d : Inst} (hb : BufInv c)
    (hd : appendPayload p P cc payload c = .next d) : BufInv d ∧ content c <+: content d := by
  cases payload with
  | none =>
    obtain rfl := Host.Outcome.next.inj hd
    exact ⟨hb, [], List.append_nil _⟩
  | some start =>
    obtain ⟨c', hc', -⟩ := (andThen_eq_next _).mp hd
    obtain ⟨hstart, hfits, -⟩ := bufAppend_eq_next.mp hc'
    obtain rfl : appended P cc start c = d := Host.Outcome.next.inj ((appendPayload_eq hb hstart hfits).symm.trans hd)
    exact ⟨bufInv_appended hb cc start, slice P start, (content_appended cc start).symm⟩

end Arms

/-! ### ABSORB as an operation of its own -/

section Operation
variable {P : Packet} {h : TsHeader} {a : AdaptationField} {s : State}

theorem exec_absorb_of_next {r : AbsorbResult} {d : Inst} (hv : s.inst.pidValid = true)
    (hr : absorbPacket s.params P h a s.inst = .next (r, d)) :
    exec (.absorb P h a) s = .next { s with inst := d, out := .absorbed r } := by
  show execAbsorb P h a s = _
  rw [execAbsorb, if_pos hv, hr]
  rfl

theorem exec_absorb_of_fault {e : Fault} (hv : s.inst.pidValid = true)
    (hr : absorbPacket s.params P h a s.inst = .fault e) : exec (.absorb P h a) s = .fault e := by
  show execAbsorb P h a s = _
  rw [execAbsorb, if_pos hv, hr]
  rfl

/-- R113: the completion test decides between the two ends of a packet in sequence. -/
theorem exec_absorb_of_concluded {d : Inst} (hv : s.inst.pidValid = true)
    (hr : absorbPacket s.params P h a s.inst = .next (conclusion d, concluded d)) :
    (Complete d → exec (.absorb P h a) s =
      .next { s with inst := idled d, out := .absorbed ⟨.assemblingFinished, false, none, some (whole d)⟩ }) ∧
    (¬Complete d → exec (.absorb P h a) s =
      .next { s with inst := d, out := .absorbed ⟨.assemblingContinue, false, none, none⟩ }) := by
  rw [exec_absorb_of_next hv hr, concluded, conclusion]
  exact ⟨fun hc => by rw [if_pos hc, if_pos hc], fun hc => by rw [if_neg hc, if_neg hc]⟩

end Operation

/-! ### What ABSORB reads (R121) -/

theorem absorbPacket_congr {h h' : TsHeader} {a a' : AdaptationField} (hpid : h.pid = h'.pid) (hpusi : h.pusi = h'.pusi)
    (hcc : h.cc = h'.cc) (hpay : hasPayload h = hasPayload h') (hbc : a.byteCount = a'.byteCount) (p : Params) (P : Packet) :
    absorbPacket p P h a = absorbPacket p P h' a' := by
  funext c
  simp only [absorbPacket, payloadOffset, hpid, hpusi, hcc, hpay, hbc]

theorem started_congr {P Q : Packet} {cc : BitVec 4} {off n : Nat} {ph ph' : PesHeader} {c : Inst}
    (hlen : ph.pesPacketLength = ph'.pesPacketLength) (hagree : AgreeOn P Q n 188) :
    started P cc off ph n c = started Q cc off ph' n c := by
  rw [started, started, hlen, slice_congr hagree]

/-- The registers after a start packet with a parsed PES header, in any state. -/
theorem absorbs_start_registers {p : Params} {P : Packet} {h : TsHeader} {a : AdaptationField} {c d : Inst} {r : AbsorbResult}
    {ph : PesHeader} {n : Nat} (hr : Absorbs p P h a c r d) (hpusi : h.pusi = true)
    (hq : pes p P (4 + a.byteCount) = .ok (ph, n)) :
    d = if h.pid = c.targetPid then started P h.cc (4 + a.byteCount) ph n c else c := by
  have hparse := parse_of_pes hq
  cases hr with
  | foreign hpid => rw [if_neg hpid]
  | truncated _ _ _ _ _ herr => exact nomatch hparse.symm.trans herr
  | start emit ph' n' hpid _ _ hq' _ =>
    obtain ⟨rfl, rfl⟩ := Prod.mk.inj (Except.ok.inj (hparse.symm.trans hq'))
    have hbuf : Memory.writeBytes [] 0 (pktFrom P n) = cells 0 (pktFrom P n) := by
      simpa using writeBytes_at_end (pktFrom P n) [] 0
    rw [if_pos hpid, hbuf, started_eq]
    rfl
  | stray _ hcont | duplicate _ hcont | gap _ _ hcont | goOn _ _ _ hcont | finish _ _ _ _ hcont =>
    exact nomatch hpusi.symm.trans hcont

end Sys2Proof.Claims
end

section
/-! PROOFS (spec/43_pes_assembler.md, the statements): O35 to O46. -/

namespace Sys2Proof.Proofs

open Sys2Proof.Machine Sys2Proof.Claims

/-! ### The arms -/

/-- Settles O36, the arm of a unit start. -/
theorem startPacket : Obligations.StartPacket := by
  intro P h a s ph newOffset hv hb hpid hpusi hq hroom
  exact exec_absorb_of_next hv (absorbPacket_started hpid hpusi hb hq hroom)

/-- Settles O35. -/
theorem foreignPid : Obligations.ForeignPid := by
  intro P h a s hv hpid
  exact exec_absorb_of_next hv (absorbPacket_foreign hpid)

/-- Settles O38. -/
theorem continuationInIdle : Obligations.ContinuationInIdle := by
  intro P h a s hv hpid hpusi hidle
  exact exec_absorb_of_next hv (absorbPacket_stray hpid hpusi (.inl hidle))

/-- Settles O39. -/
theorem duplicate : Obligations.Duplicate := by
  intro P h a s hv hpid hpusi hst hlast
  exact exec_absorb_of_next hv (absorbPacket_duplicate hpid hpusi hst hlast rfl)

/-- Settles O37: the state after a truncated start is Idle, where continuation packets are lost (O38). -/
theorem truncatedStartPacket : Obligations.TruncatedStartPacket := by
  intro P h a s cond hv hb hpid hpusi hq
  refine ⟨exec_absorb_of_next hv (absorbPacket_truncated hpid hpusi hb hq), fun P' h' a' hpid' hpusi' => ?_⟩
  exact continuationInIdle P' h' a' _ hv hpid' hpusi' rfl

/-- Settles O40: the state after a gap is Idle with an empty buffer, from which a start packet opens a unit (O36). -/
theorem continuityGap : Obligations.ContinuityGap := by
  intro P h a s last hv hpid hpusi hst hlast hdup hseq
  refine ⟨exec_absorb_of_next hv (absorbPacket_gap hpid hpusi hst hlast (mt (congrArg BitVec.toNat) hdup) hseq),
    fun P' h' a' ph newOffset hpid' hpusi' hq hroom => ?_⟩
  exact startPacket P' h' a' _ ph newOffset hv rfl hpid' hpusi' hq hroom

/-- Settles O41: step 3b appends the payload and step 3c concludes on what it left. -/
theorem inSequenceWithPayload : Obligations.InSequenceWithPayload := by
  intro P h a s last hv hb hpid hpusi hst hlast hseq hafc hbc hroom
  have hpay : h.afc.toNat % 2 = 1 := by obtain hafc | hafc := hafc <;> rw [hafc] <;> rfl
  have hr := absorbPacket_concluded (P := P) hpid hpusi hst hlast hseq hb fun _ => ⟨hbc, hroom⟩
  rw [afterPayload, if_pos hpay] at hr
  exact exec_absorb_of_concluded hv hr

/-- Settles O42: step 3b leaves the unit as it is, and step 3c concludes on it. -/
theorem inSequenceWithoutPayload : Obligations.InSequenceWithoutPayload := by
  intro P h a s last hv hb hpid hpusi hst hlast hseq hafc
  have hpay : ¬h.afc.toNat % 2 = 1 := by obtain hafc | hafc := hafc <;> rw [hafc] <;> decide
  have hr := absorbPacket_concluded (p := s.params) (P := P) (a := a) hpid hpusi hst hlast hseq hb fun hodd => absurd hodd hpay
  rw [afterPayload, if_neg hpay] at hr
  exact exec_absorb_of_concluded hv hr

/-- Settles O46: the append is what fails, in the start of a unit and in step 3b. -/
theorem overflow : Obligations.Overflow := by
  intro P h a s cap hv hb hpid hcap
  refine ⟨fun ph newOffset hpusi hq hover => exec_absorb_of_fault hv ?_,
    fun last hpusi hst hlast hseq hafc hbc hover => exec_absorb_of_fault hv ?_⟩
  · rw [absorbPacket_start hpid hpusi]
    exact startUnit_overflow hb (parse_of_pes hq) (not_fits_of_lt hcap hover)
  · have hpay : hasPayload h = true := by
      obtain hafc | hafc := hafc <;> rw [hasPayload, hafc] <;> rfl
    have hfits := not_fits_of_lt hcap hover
    rw [← payload_length] at hfits
    rw [absorbPacket_inSequence hpid hpusi hst hlast hseq, if_pos hpay,
      appendPayload_overflow (start := payloadOffset a) (Nat.add_le_add_left hbc 4) hfits, andThen_fault]

/-! ### What an ABSORB that answers did -/

/-- Settles O43: only a bounded unit passes the completion test. -/
theorem unboundedNeverCompletes : Obligations.UnboundedNeverCompletes := by
  intro P h a s t hunb hpusi ht
  obtain ⟨-, r, d, hr, rfl⟩ := execAbsorb_cases ht
  refine ⟨r, rfl, ?_⟩
  cases hr with
  | foreign | duplicate => exact ⟨rfl, nofun, nofun, .inl hunb⟩
  | truncated _ _ _ hstart | start _ _ _ _ hstart => exact nomatch hpusi.symm.trans hstart
  | stray | gap => exact ⟨rfl, nofun, nofun, .inr rfl⟩
  | goOn last d _ _ _ _ _ hd =>
    obtain ⟨-, hkept, -, -⟩ := appendPayload_keeps hd
    exact ⟨rfl, nofun, nofun, .inl (hkept.trans hunb)⟩
  | finish last d e _ _ _ _ _ hd hcomplete =>
    obtain ⟨-, hkept, -, -⟩ := appendPayload_keeps hd
    obtain ⟨hbounded, -⟩ := (unitComplete_iff d).mp hcomplete
    exact nomatch hbounded.symm.trans (hkept.trans hunb)

/-- Settles O44: a start packet emits what was open, and the completion test what step 3b left. -/
theorem emissions : Obligations.Emissions := by
  intro P h a s t r e hinv ht ho he
  obtain ⟨-, -, -, hb, -⟩ := hinv
  obtain ⟨-, r', d, hr, rfl⟩ := execAbsorb_cases ht
  obtain rfl : r' = r := Result.absorbed.inj ho
  cases hr with
  | foreign | stray | duplicate | gap | goOn => exact nomatch he
  | truncated emit _ _ hpusi hfinish =>
    obtain rfl : emit = some e := he
    obtain ⟨hlen, hst, hwhole⟩ := emission_of_implicitFinish hb hfinish
    exact ⟨hlen, hst, nofun, fun _ => ⟨hpusi, hwhole⟩, fun _ => ⟨rfl, rfl⟩⟩
  | start emit _ _ _ hpusi hfinish =>
    obtain rfl : emit = some e := he
    obtain ⟨hlen, hst, hwhole⟩ := emission_of_implicitFinish hb hfinish
    exact ⟨hlen, hst, nofun, fun _ => ⟨hpusi, hwhole⟩, fun hno => absurd rfl hno⟩
  | finish last d e' _ _ hst _ _ hd hcomplete hemit =>
    obtain rfl : e' = e := Option.some.inj he
    obtain ⟨hidled, -, hhdr, htotal⟩ := appendPayload_keeps hd
    obtain ⟨hbd, hbegins⟩ := appendPayload_content hb hd
    obtain ⟨-, hsize⟩ := (unitComplete_iff d).mp hcomplete
    obtain rfl : whole d = e' := Host.Outcome.next.inj ((emission_eq hbd).symm.trans hemit)
    have hlen : (whole d).len + s.inst.hdrLen.toNat = s.inst.pesTotal.toNat := by
      rw [← hhdr, ← htotal, ← hsize, Nat.add_comm]; rfl
    exact ⟨(buf_eq_cells hbd).2, hst, fun _ => ⟨hlen, hidled, hbegins⟩, fun hno => absurd rfl hno, fun _ => ⟨rfl, rfl⟩⟩

/-- Settles O45: what ABSORB reads is equal on both sides. -/
theorem ignoredFields : Obligations.IgnoredFields := by
  constructor
  · intro P h h' a a' s hpid hpusi hcc hpay hbc
    show execAbsorb P h a s = execAbsorb P h' a' s
    rw [execAbsorb, execAbsorb, absorbPacket_congr hpid hpusi hcc hpay hbc]
  · intro P Q h a s t t' ph ph' n hpusi hq hq' hlen hagree ht ht'
    obtain ⟨-, r, d, hr, rfl⟩ := execAbsorb_cases ht
    obtain ⟨-, r', d', hr', rfl⟩ := execAbsorb_cases ht'
    show d = d'
    rw [absorbs_start_registers hr hpusi hq, absorbs_start_registers hr' hpusi hq', started_congr hlen hagree]

end Sys2Proof.Proofs
end

section
/-! PROOFS (spec/43_pes_assembler.md R119, spec/60_exceptions.md R157): O56. What ABSORB answers is the table's row, and STEP comes
to it behind the sync byte and the length of the adaptation field. -/

namespace Sys2Proof.Claims

open Sys2Proof.Machine

/-! ### AF_PARSE and the tests before the PID (R157) -/

theorem parseField_of_some {P : Packet} {afc : BitVec 2} {a : AdaptationField} (h : field P afc = some a) :
    parseField P afc = .ok a := by
  obtain ⟨b, hb⟩ := (parseField_isOk_iff P afc).mpr (Option.isSome_of_mem h)
  have hfound : field P afc = some b :=
    field_of_execAfParse (s := State.reset) (by rw [execAfParse, hb]; rfl) rfl
  rw [hb, Option.some.inj (hfound.symm.trans h)]

theorem parseField_of_none {P : Packet} {afc : BitVec 2} (h : field P afc = none) :
    ∃ len, parseField P afc = .error (.truncatedAf len) := by
  cases hp : parseField P afc with
  | ok a =>
    have hsome := (parseField_isOk_iff P afc).mp ⟨a, hp⟩
    simp [h] at hsome
  | error cond =>
    obtain ⟨-, -, rfl⟩ := parseField_eq_error.mp hp
    exact ⟨_, rfl⟩

theorem byteCount_of_field {P : Packet} {afc : BitVec 2} {a : AdaptationField} (h : field P afc = some a) :
    a.byteCount ≤ 184 :=
  (parseField_byteCount (parseField_of_some h)).2

section Step
variable {P : Packet} {s : State} (hv : s.inst.pidValid = true)
include hv

theorem exec_step_of_badSync (hsync : byte P 0 ≠ 0x47) :
    exec (.step P) s = .next { s with out := .output ⟨.invalidSyncByte, false, none, none, none, none⟩ } := by
  have hp : parseHeader P = .error (.invalidSyncByte (pktByte P 0)) :=
    parseHeader_eq_error.mpr ⟨mt (syncByte_iff P).mp hsync, rfl⟩
  show execStep P s = _
  rw [execStep, admission, if_pos hv, hp]
  rfl

/-- Behind the sync byte STEP parses the field. -/
theorem exec_step_of_sync (hsync : byte P 0 = 0x47) :
    exec (.step P) s =
      afterHeader (header P) (parseField P (header P).afc) (absorbPacket s.params P (header P)) s := by
  have hp : parseHeader P = .ok (header P) := parseHeader_eq_ok.mpr ⟨(syncByte_iff P).mpr hsync, (headerAt_eq P).symm⟩
  show execStep P s = _
  rw [execStep, admission, if_pos hv, hp]

theorem exec_step_of_longField (hsync : byte P 0 = 0x47) (hf : field P (header P).afc = none) :
    exec (.step P) s =
      .next { s with out := .output ⟨.truncatedHeader, false, some (header P), none, none, none⟩ } := by
  obtain ⟨len, hp⟩ := parseField_of_none hf
  rw [exec_step_of_sync hv hsync, hp]
  rfl

theorem exec_step_of_absorb {a : AdaptationField} {r : AbsorbResult} {d : Inst} (hsync : byte P 0 = 0x47)
    (hf : field P (header P).afc = some a) (hr : absorbPacket s.params P (header P) a s.inst = .next (r, d)) :
    exec (.step P) s = .next { s with inst := d, out := .output (absorbOutput (header P) a r) } := by
  rw [exec_step_of_sync hv hsync, parseField_of_some hf, afterHeader, hr]
  rfl

end Step

/-! ### The rows of the table (R119) -/

section Table
variable {p : Params} {P : Packet} {c : Inst} {a : AdaptationField}

/-- A unit start needs no more room than a whole payload. -/
theorem room_of_pes {ph : PesHeader} {n : Nat} (hroom : Room p c 184) (hq : pes p P (4 + a.byteCount) = .ok (ph, n)) :
    Room p (idled c) (188 - n) := by
  obtain ⟨-, hn, -, -⟩ := parsePesHeader_eq_ok (parse_of_pes hq)
  intro cap hcap
  have := hroom cap hcap
  simp only [idled, payloadOffset] at hn ⊢
  omega

/-- The output of a packet in sequence has neither dup nor PES header. -/
theorem absorbOutput_conclusion (h : TsHeader) (a : AdaptationField) (d : Inst) :
    absorbOutput h a (conclusion d) = ⟨(conclusion d).status, false, some h, some a, none, (conclusion d).emit⟩ := by
  unfold conclusion
  split <;> rfl

/-- With the sync byte and the field found, ABSORB answers the row that the table has for the packet and the state. -/
theorem absorbPacket_eq_table (hsync : byte P 0 = 0x47) (hf : field P (header P).afc = some a) (hb : BufInv c)
    (hroom : Room p c 184) :
    ∃ r d, absorbPacket p P (header P) a c = .next (r, d) ∧ table p P c = (d, absorbOutput (header P) a r) := by
  simp only [table, hsync, hf, ne_eq, not_true_eq_false, if_false]
  by_cases hpid : (header P).pid = c.targetPid
  case neg => exact ⟨_, _, absorbPacket_foreign hpid, if_pos hpid⟩
  rw [if_neg (not_not_intro hpid)]
  cases hpusi : (header P).pusi with
  | true =>
    cases hq : pes p P (4 + a.byteCount) with
    | error cond => exact ⟨_, _, absorbPacket_truncated hpid hpusi hb hq, rfl⟩
    | ok v => exact ⟨_, _, absorbPacket_started hpid hpusi hb hq (room_of_pes hroom hq), rfl⟩
  | false =>
    cases hst : c.st with
    | idle => exact ⟨_, _, absorbPacket_stray hpid hpusi (.inl hst), rfl⟩
    | assembling =>
      cases hlast : c.lastCc with
      | none => exact ⟨_, _, absorbPacket_stray hpid hpusi (.inr hlast), rfl⟩
      | some last =>
        by_cases hdup : (header P).cc = last
        · exact ⟨_, _, absorbPacket_duplicate hpid hpusi hst hlast hdup, if_pos hdup⟩
        · by_cases hseq : InSequence last (header P).cc
          · refine ⟨_, _, absorbPacket_concluded hpid hpusi hst hlast hseq hb fun _ => ?_, ?_⟩
            · exact ⟨byteCount_of_field hf, fun cap hcap => by have := hroom cap hcap; omega⟩
            · exact (if_neg hdup).trans ((if_pos hseq).trans (by rw [absorbOutput_conclusion]))
          · exact ⟨_, _, absorbPacket_gap hpid hpusi hst hlast hdup hseq, (if_neg hdup).trans (if_neg hseq)⟩

end Table

end Sys2Proof.Claims

namespace Sys2Proof.Proofs

open Sys2Proof.Machine Sys2Proof.Claims

/-- Settles O56: the tests of R157 in their order, the last of them ABSORB's own. -/
theorem stepFollowsTheTransitionTable : Obligations.StepFollowsTheTransitionTable := by
  intro P s hv hinv hroom
  obtain ⟨-, -, -, hb, -⟩ := hinv
  by_cases hsync : byte P 0 = 0x47
  · cases hf : field P (header P).afc with
    | none =>
      have htable : table s.params P s.inst = (s.inst, ⟨.truncatedHeader, false, some (header P), none, none, none⟩) := by
        simp only [table, hsync, hf, ne_eq, not_true_eq_false, if_false]
      rw [exec_step_of_longField hv hsync hf, htable]
    | some a =>
      obtain ⟨r, d, hr, htable⟩ := absorbPacket_eq_table hsync hf hb hroom
      rw [exec_step_of_absorb hv hsync hf hr, htable]
  · have htable : table s.params P s.inst = (s.inst, ⟨.invalidSyncByte, false, none, none, none, none⟩) := if_pos hsync
    rw [exec_step_of_badSync hv hsync, htable]

end Sys2Proof.Proofs
end

section
/-! PROOFS (spec/44_operations.md, STEP and the packet classes): what the statements O53, O57, O58 and O60 rest on. STEP behind a
found field is one call of ABSORB, and each packet class is STEP on the packet of its header and body. -/

namespace Sys2Proof.Claims

open Sys2Proof.Machine

/-! ### STEP and ABSORB call the assembler alike (R126) -/

section Pipeline
variable {P : Packet} {s : State}

theorem exec_step_of_field {a : AdaptationField} (hv : s.inst.pidValid = true) (hsync : byte P 0 = 0x47)
    (hf : field P (header P).afc = some a) :
    exec (.step P) s =
      andThen (absorbPacket s.params P (header P) a s.inst) fun r =>
        finish (.output (absorbOutput (header P) a r.1)) { s with inst := r.2 } := by
  rw [exec_step_of_sync hv hsync, parseField_of_some hf]
  rfl

theorem exec_absorb_of_pidValid (h : TsHeader) (a : AdaptationField) (hv : s.inst.pidValid = true) :
    exec (.absorb P h a) s =
      andThen (absorbPacket s.params P h a s.inst) fun r => finish (.absorbed r.1) { s with inst := r.2 } :=
  if_pos hv

/-- The value that TSH_PARSE returned decides the sync byte. -/
theorem sync_of_tshParse {v : Result} (ht : exec (.tshParse P) s = .next { s with out := v }) :
    byte P 0 = 0x47 ∧ v = .header (header P) ∨ byte P 0 ≠ 0x47 ∧ ∃ cond, v = .raised cond := by
  have hout := congrArg State.out (Host.Outcome.next.inj ((execTshParse_eq P s).symm.trans ht))
  by_cases hsync : byte P 0 = 0x47
  · exact .inl ⟨hsync, hout.symm.trans (if_pos hsync)⟩
  · exact .inr ⟨hsync, _, hout.symm.trans (if_neg hsync)⟩

/-- A condition that AF_PARSE raised means that no field was found. -/
theorem field_of_afParse_raised {afc : BitVec 2} {cond : Condition}
    (ht : exec (.afParse P afc) s = .next { s with out := .raised cond }) : field P afc = none := by
  have hout := congrArg State.out (Host.Outcome.next.inj ((execAfParse_eq P afc s).symm.trans ht))
  cases hf : field P afc with
  | none => rfl
  | some a => exact nomatch (fieldResult_of_some hf).symm.trans hout

end Pipeline

/-! ### What a STEP does with a start packet and with a continuation packet -/

section Step
variable {P : Packet} (hsync : byte P 0 = 0x47)
include hsync

theorem startClassRuns_step (hpusi : (header P).pusi = true) :
    StartClassRuns (.step P) P (header P) (field P (header P).afc) := by
  intro s hv
  refine ⟨exec_step_of_longField hv hsync, fun a hf => ⟨fun hpid => ?foreign, fun hpid hb =>
    ⟨fun ph newOffset hq hroom => ?started, fun cond hq => ?truncated⟩⟩⟩
  case foreign => exact exec_step_of_absorb hv hsync hf (absorbPacket_foreign hpid)
  case started => exact exec_step_of_absorb hv hsync hf (absorbPacket_started hpid hpusi hb hq hroom)
  case truncated => exact exec_step_of_absorb hv hsync hf (absorbPacket_truncated hpid hpusi hb hq)

theorem continuationClassRuns_step (hpusi : (header P).pusi = false) :
    ContinuationClassRuns (.step P) P (header P) (field P (header P).afc) := by
  intro s hv
  refine ⟨exec_step_of_longField hv hsync, fun a hf => ⟨fun hpid => ?foreign, fun hpid =>
    ⟨fun hidle => ?stray, fun last hst hlast =>
      ⟨fun hdup => ?duplicate, fun hdup hseq => ?gap, fun hseq hb hroom => ?inSequence⟩⟩⟩⟩
  case foreign => exact exec_step_of_absorb hv hsync hf (absorbPacket_foreign hpid)
  case stray => exact exec_step_of_absorb hv hsync hf (absorbPacket_stray hpid hpusi (.inl hidle))
  case duplicate => exact exec_step_of_absorb hv hsync hf (absorbPacket_duplicate hpid hpusi hst hlast hdup)
  case gap => exact exec_step_of_absorb hv hsync hf (absorbPacket_gap hpid hpusi hst hlast hdup hseq)
  case inSequence =>
    have hr := absorbPacket_concluded (P := P) hpid hpusi hst hlast hseq hb
      fun hpay => ⟨byteCount_of_field hf, hroom hpay⟩
    have hrun := exec_step_of_absorb hv hsync hf hr
    rw [absorbOutput_conclusion] at hrun
    exact hrun

end Step

end Sys2Proof.Claims

namespace Sys2Proof

open Sys2Proof.Machine Sys2Proof.Claims

/-! ### The packet of a class (R41, R72) -/

theorem toList_packetOf (h : TsHeader) (body : Body) : (packetOf h body).toList = bytesOfHeader h ++ body.toList := rfl

/-- The header of a packet is the one it was made with. -/
theorem headerAt_packetOf (h : TsHeader) (body : Body) : headerAt (packetOf h body) = h := by
  obtain ⟨b0, b1, b2, b3, hbytes, hheader⟩ := headerOfBytes_bytesOfHeader h
  simp [headerAt, pktByte, packetOf, hbytes, hheader]

/-- Bytes that decode as a packet class are the packet of the class's header and body. -/
theorem packetOf_of_decodePacket {bytes : List Byte} {i : Instr} (hd : decodePacket bytes = .ok i) :
    ∃ h body, (packetOf h body).toList = bytes ∧ RowOf body h i := by
  match bytes, hd with
  | b0 :: b1 :: b2 :: b3 :: rest, hd =>
    obtain ⟨body, rfl, rfl⟩ := decodePacket_eq_ok hd
    refine ⟨headerOfBytes b0 b1 b2 b3, body, ?_, classify_row _ body⟩
    rw [toList_packetOf, bytesOfHeader_headerOfBytes]
    rfl

/-! ### A class is STEP on its packet (R131 to R139) -/

section Rows
variable {h : TsHeader} {body : Body} {i : Instr}

theorem classSteps_eq_step (hsync : h.syncByte = Config.syncByte) (s : State) :
    classSteps h (parseField · h.afc) body s = exec (.step (packetOf h body)) s := by
  have hparse : parseHeader (packetOf h body) = .ok h :=
    parseHeader_eq_ok.mpr ⟨(pktByte_packetOf_zero h body).trans hsync, (headerAt_packetOf h body).symm⟩
  show _ = execStep (packetOf h body) s
  rw [execStep, hparse]
  rfl

theorem exec_pktBadsync_eq_step (hsync : h.syncByte ≠ Config.syncByte) (s : State) :
    exec (.pktBadsync h body) s = exec (.step (packetOf h body)) s := by
  have hparse := parseHeader_eq_error.mpr ⟨(pktByte_packetOf_zero h body).symm ▸ hsync, rfl⟩
  show _ = execStep (packetOf h body) s
  rw [execStep, hparse]
  rfl

/-- Each of the nine classes; afc 0 and 1 announce no field, which is what AF_PARSE answers for them. -/
theorem RowOf.exec_eq_step (hi : RowOf body h i) (s : State) : exec i s = exec (.step (packetOf h body)) s := by
  cases hi with
  | sRsv f => exact (exec_pktSRsv f body s).trans (classSteps_eq_step rfl s)
  | sPay f => exact (exec_pktSPay f body s).trans (classSteps_eq_step rfl s)
  | sAf f => exact (exec_pktSAf f body s).trans (classSteps_eq_step rfl s)
  | sAfpay f => exact (exec_pktSAfpay f body s).trans (classSteps_eq_step rfl s)
  | cRsv f => exact (exec_pktCRsv f body s).trans (classSteps_eq_step rfl s)
  | cPay f => exact (exec_pktCPay f body s).trans (classSteps_eq_step rfl s)
  | cAf f => exact (exec_pktCAf f body s).trans (classSteps_eq_step rfl s)
  | cAfpay f => exact (exec_pktCAfpay f body s).trans (classSteps_eq_step rfl s)
  | badsync _ hsync => exact exec_pktBadsync_eq_step hsync s

theorem header_packetOf (h : TsHeader) (body : Body) : header (packetOf h body) = h :=
  (headerAt_eq _).symm.trans (headerAt_packetOf h body)

theorem byte_packetOf_sync (hsync : h.syncByte = Config.syncByte) : byte (packetOf h body) 0 = 0x47 :=
  (syncByte_iff _).mp ((pktByte_packetOf_zero h body).trans hsync)

theorem RowOf.startClassRuns (hi : RowOf body h i) (hsync : h.syncByte = Config.syncByte) (hpusi : h.pusi = true) :
    StartClassRuns i (packetOf h body) h (field (packetOf h body) h.afc) := by
  have hstep := startClassRuns_step (byte_packetOf_sync (body := body) hsync)
  rw [header_packetOf] at hstep
  simpa only [StartClassRuns, hi.exec_eq_step] using hstep hpusi

theorem RowOf.continuationClassRuns (hi : RowOf body h i) (hsync : h.syncByte = Config.syncByte) (hpusi : h.pusi = false) :
    ContinuationClassRuns i (packetOf h body) h (field (packetOf h body) h.afc) := by
  have hstep := continuationClassRuns_step (byte_packetOf_sync (body := body) hsync)
  rw [header_packetOf] at hstep
  simpa only [ContinuationClassRuns, hi.exec_eq_step] using hstep hpusi

end Rows

end Sys2Proof
end

section
/-! PROOFS (spec/44_operations.md, the statements): O53, O57, O58, O60, O50, O51, O52 and O59. -/

namespace Sys2Proof.Proofs

open Sys2Proof.Machine Sys2Proof.Claims

/-! ### STEP and the packet classes -/

/-- Settles O53: what the two parses returned says what STEP finds, and then STEP and ABSORB run the same call of the assembler. -/
theorem stepIsThePipeline : Obligations.StepIsThePipeline := by
  intro P s
  refine ⟨fun hv => admission_refused hv _, fun hv => ⟨fun cond htsh => ?badSync, fun h htsh => ?sync⟩⟩
  case badSync =>
    obtain ⟨-, hno⟩ | ⟨hsync, -⟩ := sync_of_tshParse htsh
    · exact nomatch hno
    · exact exec_step_of_badSync hv hsync
  case sync =>
    obtain ⟨hsync, heq⟩ | ⟨-, cond, hno⟩ := sync_of_tshParse htsh
    · obtain rfl := Result.header.inj heq
      refine ⟨fun cond haf => exec_step_of_longField hv hsync (field_of_afParse_raised haf), fun a haf => ?_⟩
      rw [exec_step_of_field hv hsync (field_of_execAfParse haf rfl), exec_absorb_of_pidValid _ _ hv]
      refine ⟨fun t r hrun hout => ?_, fun e hrun => ?_⟩
      · obtain ⟨⟨r', d⟩, hr, hrun⟩ := (andThen_eq_next _).mp hrun
        obtain rfl := Host.Outcome.next.inj hrun
        obtain rfl := Result.absorbed.inj hout
        rw [hr]
        rfl
      · cases hr : absorbPacket s.params P (header P) a s.inst with
        | next v => rw [hr] at hrun; exact nomatch hrun
        | fault e' => rw [hr] at hrun; exact hrun
        | refused q => rw [hr] at hrun; exact nomatch hrun
    · exact nomatch hno

/-- Settles O57: each class is STEP on a start packet. -/
theorem startClasses : Obligations.StartClasses := fun f _ =>
  ⟨(RowOf.sRsv f).startClassRuns rfl rfl, (RowOf.sPay f).startClassRuns rfl rfl,
    (RowOf.sAf f).startClassRuns rfl rfl, (RowOf.sAfpay f).startClassRuns rfl rfl⟩

/-- Settles O58: each class is STEP on a continuation packet. -/
theorem continuationClasses : Obligations.ContinuationClasses := fun f _ =>
  ⟨(RowOf.cRsv f).continuationClassRuns rfl rfl, (RowOf.cPay f).continuationClassRuns rfl rfl,
    (RowOf.cAf f).continuationClassRuns rfl rfl, (RowOf.cAfpay f).continuationClassRuns rfl rfl⟩

/-- Settles O60: the bytes are the packet of the class's header and body, and STEP decodes them to that packet. -/
theorem classesRunAsStep : Obligations.ClassesRunAsStep := by
  intro p core bytes i hd
  obtain ⟨h, body, rfl, hrow⟩ := packetOf_of_decodePacket hd
  exact ⟨packetOf h body, rfl, decodeOnPacket_toList (packetOf h body) .step, hrow.exec_eq_step⟩

/-- Settles O59: the class answers its early output behind the admission check alone. -/
theorem badSyncClass : Obligations.BadSyncClass := fun _ _ _ hv _ => if_pos hv

/-! ### The commands -/

/-- Settles O50. -/
theorem setPid : Obligations.SetPid := fun _ _ => rfl

/-- Settles O51: the buffer of an open unit is its content, so the emission answers. -/
theorem flush : Obligations.Flush := by
  intro s
  refine ⟨fun hst hb => ?_, fun hst => ?_⟩
  · show execFlush s = _
    simp only [execFlush, hst, emission_eq hb]
    rfl
  · show execFlush s = _
    simp only [execFlush, hst]
    rfl

/-- Settles O52: `target_pid` is a free value where the PID was set, and stays where it was not. -/
theorem resetCommand : Obligations.ResetCommand := by
  intro s
  cases hv : s.inst.pidValid with
  | true => exact ⟨Config.freePid s.free, s.free + 1, if_pos hv⟩
  | false => exact ⟨s.inst.targetPid, s.free, if_neg (by simp [hv])⟩

end Sys2Proof.Proofs
end

section
/-! PROOFS (spec/60_exceptions.md, what a step leaves alone): O14, O15, O55 and O8. What a step does with the oldest request, what
an instruction reads of the machine, and what a status says about the call of ABSORB behind it. -/

namespace Sys2Proof.Machine

/-! ### The oldest request -/

section Fetch
variable {s : State} {r : Request} {rest : List Request}

theorem fetchRequest_of_empty (hq : s.queue = []) : fetchRequest s = .idle := by
  rw [fetchRequest, hq]

theorem select_eq_none {k : Nat} : s.select k = none ↔ s.insts.length ≤ k := by
  rw [← List.drop_eq_nil_iff, State.select]
  cases s.insts.drop k <;> simp

theorem fetchRequest_of_missing (hq : s.queue = r :: rest) (hcore : s.insts.length ≤ r.core) :
    fetchRequest s = .reject (.noSuchInstance r.core) := by
  simp only [fetchRequest, hq, select_eq_none.mpr hcore]

theorem fetchRequest_of_undecodable {e : DecodeError} (hq : s.queue = r :: rest) (hcore : r.core < s.insts.length)
    (hd : decode s.params r = .error e) : fetchRequest s = .reject (.badRequest e) := by
  obtain ⟨s', hs'⟩ := Option.ne_none_iff_exists'.mp (mt select_eq_none.mp (Nat.not_le.mpr hcore))
  simp only [fetchRequest, hq, hs', hd]

/-- A step that answers with a request waiting ran the instruction the request decodes to, on the instance it names. -/
theorem step_of_request {t : State} (hq : s.queue = r :: rest) (ht : step s = .next t) :
    r.core < s.insts.length ∧ ∃ c i,
      exec i { s with below := s.insts.take r.core, inst := c, above := s.insts.drop (r.core + 1), queue := rest } =
        .next t := by
  unfold step at ht
  by_cases hcore : r.core < s.insts.length
  · refine ⟨hcore, s.insts[r.core], ?_⟩
    cases hd : decode s.params r with
    | error e =>
      rw [fetchRequest_of_undecodable hq hcore hd] at ht
      exact nomatch ht
    | ok i =>
      rw [fetchRequest_eq_run.mpr ⟨r, rest, _, hq, List.getElem?_eq_getElem hcore, hd, rfl⟩] at ht
      exact ⟨i, ht⟩
  · rw [fetchRequest_of_missing hq (Nat.not_lt.mp hcore)] at ht
    exact nomatch ht

end Fetch

/-! ### A packet operation with another number of bytes (R181) -/

section WrongLength
variable {bytes : List Byte} (hlen : bytes.length ≠ 188)
include hlen

theorem decodeOnPacket_of_length_ne (mk : Packet → Instr) :
    decodeOnPacket bytes mk = .error (.wrongLength bytes.length) := by
  rw [decodeOnPacket, packetOfList, dif_neg hlen]

theorem decodePacket_of_length_ne : decodePacket bytes = .error (.wrongLength bytes.length) := by
  unfold decodePacket
  split
  · rename_i b0 b1 b2 b3 rest
    have hrest : rest.length ≠ 184 := fun h => hlen (by simp [h])
    rw [bodyOfList, dif_neg hrest]
  · rfl

end WrongLength

/-! ### What an instruction reads -/

/-- `e` with the parameters, the current instance and the free values of `s`: where it differs from `s` no instruction looks. -/
def amid (s e : State) : State := { e with params := s.params, inst := s.inst, free := s.free }

theorem amid_eq {s e : State} (hp : s.params = e.params) (hi : s.inst = e.inst) (hf : s.free = e.free) : amid s e = e := by
  rw [amid, hp, hi, hf]

@[simp] theorem amid_params (s e : State) : (amid s e).params = s.params := rfl
@[simp] theorem amid_inst (s e : State) : (amid s e).inst = s.inst := rfl

/-- An outcome as an outcome of `s`: its instance, output and free values, with the other fields of `s`. -/
def answerIn (s : State) (o : Host.Outcome State Fault Refusal) : Host.Outcome State Fault Refusal :=
  andThen o fun t => .next { s with inst := t.inst, out := t.out, free := t.free }

/-- In every surrounding `e` the operation has the outcome it has in `s`, with the rest of the machine kept (R163). -/
def OwnOnly (op : State → Host.Outcome State Fault Refusal) : Prop := ∀ s e, op (amid s e) = answerIn (amid s e) (op s)

section OwnOnly
variable {op op' : State → Host.Outcome State Fault Refusal}

/-- A branch on the current instance. -/
theorem ownOnly_ite (b : Inst → Bool) (hop : OwnOnly op) (hop' : OwnOnly op') :
    OwnOnly fun s => if b s.inst then op s else op' s := by
  intro s e
  show (if b s.inst then op (amid s e) else op' (amid s e)) = answerIn (amid s e) (if b s.inst then op s else op' s)
  cases b s.inst with
  | true => exact hop s e
  | false => exact hop' s e

/-- A computation on the parameters and the current instance, then an operation on what it gives. -/
theorem ownOnly_andThen {α : Type} (g : Params → Inst → Host.Outcome α Fault Refusal)
    {f : α → State → Host.Outcome State Fault Refusal} (hf : ∀ v, OwnOnly (f v)) :
    OwnOnly fun s => andThen (g s.params s.inst) fun v => f v s := by
  intro s e
  simp only [amid_params, amid_inst]
  cases g s.params s.inst with
  | next v => exact hf v s e
  | fault | refused => rfl

/-- STEP's admission check reads `pid_valid` of the current instance. -/
theorem ownOnly_admission (hop : OwnOnly op) : OwnOnly fun s => admission s (op s) :=
  ownOnly_ite Inst.pidValid hop fun _ _ => rfl

theorem ownOnly_afterHeader (h : TsHeader) (field : Except Condition AdaptationField)
    (assemble : Params → AdaptationField → Inst → AbsorbOutcome) :
    OwnOnly fun s => afterHeader h field (assemble s.params) s := by
  cases field with
  | error cond => exact fun _ _ => rfl
  | ok a => exact ownOnly_andThen (fun p c => assemble p a c) fun _ _ _ => rfl

/-- The eight packet classes of a valid sync byte. -/
theorem ownOnly_class {h : TsHeader} {field : Packet → Except Condition AdaptationField} {body : Body}
    (hop : ∀ s, op s = classSteps h field body s) : OwnOnly op :=
  (funext hop : op = classSteps h field body) ▸
    ownOnly_admission (ownOnly_afterHeader h _ fun p => absorbPacket p (packetOf h body) h)

theorem ownOnly_step (P : Packet) : OwnOnly (execStep P) := by
  refine ownOnly_admission ?_
  cases parseHeader P with
  | error cond => exact fun _ _ => rfl
  | ok h => exact ownOnly_afterHeader h _ fun p => absorbPacket p P h

theorem ownOnly_absorb (P : Packet) (h : TsHeader) (a : AdaptationField) : OwnOnly (execAbsorb P h a) :=
  ownOnly_ite Inst.pidValid (ownOnly_andThen (fun p c => absorbPacket p P h a c) fun _ _ _ => rfl) fun _ _ => rfl

theorem ownOnly_tshParse (P : Packet) : OwnOnly (execTshParse P) := by
  unfold execTshParse
  cases parseHeader P <;> exact fun _ _ => rfl

theorem ownOnly_afParse (P : Packet) (afc : BitVec 2) : OwnOnly (execAfParse P afc) := by
  unfold execAfParse
  cases parseField P afc <;> exact fun _ _ => rfl

theorem ownOnly_afLength (len : Byte) : OwnOnly (execAfLength len) := by
  unfold execAfLength
  cases lengthForm len <;> exact fun _ _ => rfl

theorem ownOnly_afStuffing : OwnOnly execAfStuffing :=
  ownOnly_ite (fun c => stuffingDue c.parse) (fun _ _ => rfl) fun _ _ => rfl

/-- A PES header parse on the parameters and the current instance (R99). -/
theorem ownOnly_endPesParse (v : Params → Inst → Except Condition (PesHeader × Nat)) :
    OwnOnly fun s => endPesParse (v s.params s.inst) s := by
  intro s e
  simp only [amid_params, amid_inst]
  cases v s.params s.inst <;> rfl

theorem ownOnly_flush : OwnOnly execFlush := by
  intro s e
  simp only [execFlush, amid_inst]
  cases s.inst.st with
  | idle => rfl
  | assembling => cases emission s.inst <;> rfl

theorem ownOnly_reset : OwnOnly execReset := ownOnly_ite Inst.pidValid (fun _ _ => rfl) fun _ _ => rfl

end OwnOnly

/-- R163, R32: every instruction reads the parameters, the current instance and the free values alone. -/
theorem ownOnly_exec (i : Instr) : OwnOnly (exec i) := by
  cases i with
  | pktSRsv f body => exact ownOnly_class (exec_pktSRsv f body)
  | pktSPay f body => exact ownOnly_class (exec_pktSPay f body)
  | pktSAf f body => exact ownOnly_class (exec_pktSAf f body)
  | pktSAfpay f body => exact ownOnly_class (exec_pktSAfpay f body)
  | pktCRsv f body => exact ownOnly_class (exec_pktCRsv f body)
  | pktCPay f body => exact ownOnly_class (exec_pktCPay f body)
  | pktCAf f body => exact ownOnly_class (exec_pktCAf f body)
  | pktCAfpay f body => exact ownOnly_class (exec_pktCAfpay f body)
  | pktBadsync h body => exact ownOnly_admission fun _ _ => rfl
  | afLength len => exact ownOnly_afLength len
  | afStuffing => exact ownOnly_afStuffing
  | afAbsent | afEmpty | afFlags | afPcr | afOpcr | afSplice | afPrivate | afExt | afExtLtw | afExtPiecewise | afExtSeamless |
    setPid => exact fun _ _ => rfl
  | peshBasic pre => exact ownOnly_endPesParse fun p c => pesHeaderAt p (payloadOffset c.parse.af) pre none
  | peshExt pre x => exact ownOnly_endPesParse fun p c => pesHeaderAt p (payloadOffset c.parse.af) pre (some x)
  | peshParse P off => exact ownOnly_endPesParse fun p _ => parsePesHeader p P off
  | tshParse P => exact ownOnly_tshParse P
  | afParse P afc => exact ownOnly_afParse P afc
  | absorb P h a => exact ownOnly_absorb P h a
  | step P => exact ownOnly_step P
  | flush => exact ownOnly_flush
  | reset => exact ownOnly_reset

end Sys2Proof.Machine

namespace Sys2Proof.Claims

open Sys2Proof.Machine

/-! ### What a status says (R150) -/

/-- R76: AF_PARSE finds no field only where the length is over 183. -/
theorem long_of_field_none {P : Packet} {afc : BitVec 2} (h : field P afc = none) : 183 < byte P 4 := by
  obtain ⟨len, hp⟩ := parseField_of_none h
  obtain ⟨-, hlong, -⟩ := parseField_eq_error.mp hp
  rwa [byte_eq P (by omega)]

/-- In Idle there is nothing to clear (I1 of R20). -/
theorem idled_of_idle {p : Params} {c : Inst} (hi : c.Inv p) (hst : c.st = .idle) : idled c = c := by
  obtain ⟨hidle, -, -, hb, -⟩ := hi
  obtain ⟨hcc, htotal, hunb, hlen, hwr⟩ := hidle hst
  have hbuf : c.buf = [] := by simpa [BufInv, hwr] using hb
  rw [idled, ← hst, ← hcc, ← htotal, ← hunb, ← hlen, ← hwr, ← hbuf]

section Status
variable {p : Params} {P : Packet} {h : TsHeader} {a : AdaptationField} {c d : Inst} {r : AbsorbResult}
  (hr : Absorbs p P h a c r d)
include hr

theorem absorbs_status_ne_invalidSyncByte : r.status ≠ .invalidSyncByte := by
  cases hr <;> exact nofun

theorem absorbs_unexpectedPid (hst : r.status = .unexpectedPid) :
    h.pid ≠ c.targetPid ∧ d = c ∧ r.pesh = none ∧ r.emit = none := by
  cases hr with
  | foreign hpid => exact ⟨hpid, rfl, rfl, rfl⟩
  | _ => exact nomatch hst

theorem absorbs_truncatedHeader (hb : BufInv c) (hst : r.status = .truncatedHeader) :
    d = idled c ∧ r.pesh = none ∧ r.emit = prior c := by
  cases hr with
  | truncated emit cond _ _ he =>
    rw [implicitFinish_eq hb] at he
    exact ⟨rfl, rfl, (Host.Outcome.next.inj he).symm⟩
  | _ => exact nomatch hst

/-- A lost packet clears the registers: an open unit is dropped, and in Idle they are clear already. -/
theorem absorbs_streamPacketLost (hi : c.Inv p) (hst : r.status = .streamPacketLost) :
    d = idled c ∧ r.pesh = none ∧ r.emit = none := by
  cases hr with
  | gap => exact ⟨rfl, rfl, rfl⟩
  | stray _ _ hno =>
    obtain ⟨-, hasm, -⟩ := id hi
    have hidle : c.st = .idle := by
      cases hs : c.st with
      | idle => rfl
      | assembling =>
        obtain ⟨hcc, -⟩ := hasm hs
        obtain hno | hno := hno
        · exact hs.symm.trans hno
        · simp [hno] at hcc
    exact ⟨(idled_of_idle hi hidle).symm, rfl, rfl⟩
  | _ => exact nomatch hst

end Status

end Sys2Proof.Claims

namespace Sys2Proof.Proofs

open Sys2Proof.Machine Sys2Proof.Claims

/-- Settles O14: the instruction writes nothing but the instance the request names (O16), so the instances after the step are the
ones before it with that one replaced. -/
theorem otherInstancesUntouched : Obligations.OtherInstancesUntouched := by
  intro s t r rest hq ht
  obtain ⟨hcore, c, i, hrun⟩ := step_of_request hq ht
  obtain ⟨hparams, hbelow, habove, hqueue, -⟩ := writersOfEachRegister _ _ _ hrun
  have hinsts : t.insts = s.insts.set r.core t.inst := by
    rw [insts_eq, hbelow, habove, List.set_eq_take_append_cons_drop, if_pos hcore]
  refine ⟨hparams, hqueue, by rw [hinsts, List.length_set], fun k hk => ?_⟩
  rw [hinsts, List.getElem?_set_ne hk.symm]

/-- Settles O15: the second state is the first one's own part amid other instances, requests and outputs. -/
theorem operationsReadTheirInstanceOnly : Obligations.OperationsReadTheirInstanceOnly := by
  intro i s s' hp hi hf
  have hown := ownOnly_exec i s s'
  rw [amid_eq hp hi hf] at hown
  exact ⟨fun t ht => by rw [hown, ht]; rfl, fun e he => by rw [hown, he]; rfl, fun r hr => by rw [hown, hr]; rfl⟩

/-- Settles O55: the tests before ABSORB leave the state, and a status of ABSORB names its arms. -/
theorem stateAfterACondition : Obligations.StateAfterACondition := by
  intro P s t o hi ht ho
  obtain ⟨-, hr⟩ := execStep_cases ht
  cases hr with
  | badSync hsync =>
    cases ho
    exact ⟨fun _ => ⟨hsync, rfl, rfl, rfl, rfl, rfl⟩, nofun, nofun, nofun, nofun⟩
  | longField _ hf =>
    cases ho
    have hlong := long_of_field_none (by simpa using hf)
    exact ⟨nofun, fun _ _ => ⟨hlong, rfl, rfl, rfl, rfl⟩, fun _ haf => absurd rfl haf, nofun, nofun⟩
  | absorbed a r d _ _ hr =>
    cases ho
    refine ⟨fun hst => absurd hst (absorbs_status_ne_invalidSyncByte hr), fun _ => nofun, fun hst _ => ?_, fun hst => ?_,
      fun hst => ?_⟩
    · obtain ⟨-, -, -, hb, -⟩ := hi
      obtain ⟨rfl, hpesh, hemit⟩ := absorbs_truncatedHeader hr hb hst
      exact ⟨rfl, hpesh, hemit⟩
    · obtain ⟨hpid, rfl, hpesh, hemit⟩ := absorbs_unexpectedPid hr hst
      exact ⟨hpid, rfl, hpesh, hemit⟩
    · obtain ⟨rfl, hpesh, hemit⟩ := absorbs_streamPacketLost hr hi hst
      exact ⟨rfl, hpesh, hemit, fun hidle => by rw [idled_of_idle hi hidle]⟩

/-- Settles O8: what the fetch of the oldest request answers where it runs nothing. -/
theorem stepWithoutAnInstruction : Obligations.StepWithoutAnInstruction := by
  have hundecodable : ∀ (s : State) (r : Request) (rest : List Request) (e : DecodeError), s.queue = r :: rest →
      r.core < s.insts.length → decode s.params r = .error e → step s = .refused (.badRequest e) :=
    fun s r rest e hq hcore hd => by rw [Machine.step, fetchRequest_of_undecodable hq hcore hd]
  refine ⟨fun s hq => ?_, fun s r rest hq hcore => ?_, hundecodable, fun s core bytes rest sel hq hcore hlen hsel => ?_⟩
  · rw [Machine.step, fetchRequest_of_empty hq]
  · rw [Machine.step, fetchRequest_of_missing hq hcore]
  · refine hundecodable s _ rest _ hq hcore ?_
    obtain rfl | rfl | ⟨afc, rfl⟩ | ⟨off, rfl⟩ := hsel
    · exact decodePacket_of_length_ne hlen
    · exact decodeOnPacket_of_length_ne hlen _
    · exact decodeOnPacket_of_length_ne hlen _
    · exact decodeOnPacket_of_length_ne hlen _

end Sys2Proof.Proofs
end

section
/-! PROOFS (spec/70_reset_and_hazards.md): O48. Without a PID no unit is open, so FLUSH has nothing to return and RESET nothing to
clear. -/

namespace Sys2Proof.Proofs

open Sys2Proof.Machine Sys2Proof.Claims

section BeforeSetPid
variable {s : State} (hv : s.inst.pidValid = false)
include hv

/-- I2 of R20: a unit is open only where a PID was set. -/
theorem idle_of_inv {p : Params} (hi : s.inst.Inv p) : s.inst.st = .idle := by
  obtain ⟨-, hasm, -, -, -⟩ := hi
  cases hst : s.inst.st with
  | idle => rfl
  | assembling =>
    obtain ⟨-, -, -, -, -, -, hset⟩ := hasm hst
    exact absurd hset (by simp [hv])

/-- R172: RESET keeps the unspecified `target_pid`, and the registers of a unit have their reset values in Idle. -/
theorem reset_keeps_registers {p : Params} (hi : s.inst.Inv p) :
    ∃ t, exec .reset s = .next t ∧ registers t.inst = registers s.inst := by
  refine ⟨_, (if_neg (by simp [hv]) : execReset s = _), ?_⟩
  rw [← idled_of_idle hi (idle_of_inv hv hi), idled, hv]
  rfl

end BeforeSetPid

/-- Settles O48: STEP by its admission check, FLUSH and RESET because no unit is open, the parses because they never look at
`pid_valid`. -/
theorem beforeSetPid : Obligations.BeforeSetPid := by
  intro s hv
  refine ⟨fun _ => admission_refused hv _, fun hi => ?_, reset_keeps_registers hv, fun P => ⟨_, execTshParse_eq P s⟩,
    fun P afc => ⟨_, execAfParse_eq P afc s⟩, fun P off => ⟨_, exec_peshParse P off s⟩⟩
  obtain ⟨-, hnothingOpen⟩ := flush s
  exact hnothingOpen (idle_of_inv hv hi)

end Sys2Proof.Proofs
end
